-- ==== Sys2Proof/Word.lean ====
section
/-! DEFINITION. The bit-level words of the block: the 4-bit digit group and the 8-bit command word. -/

namespace Sys2Proof

/-- A DigitGroup, "a 4-bit unsigned value (0–15)" (10_state.md R10).  Bit 3 weighs 8, bit 0 weighs 1
(20_memory.md R27), so the document's `value(g)` is `g.toNat`. -/
abbrev Group := BitVec 4

/-- The command word `cw`: the block's only instruction word, one byte (30_encoding.md R39, R46). -/
abbrev CmdWord := BitVec 8

end Sys2Proof
end

