-- ==== Sys2Proof/Config.lean ====
section
/-! DEFINITION. The parameters of the block, which everything else takes as an argument (00_scope.md R4; 10_state.md R24), the
layout of a trace record (43_adder.md R78), and the free values: everything the spec calls unspecified
(93_implementation_defined.md U7, U9). -/

namespace Sys2Proof.Config

/-! ### Parameters (00_scope.md R4) -/

/-- What is fixed when a block is built.  "A model takes them as arguments" (R4): the ports, the registers and every function
that depends on a parameter take a `Params`. -/
structure Params where
  /-- `N`, the largest number of decimal digits of an integer operand. -/
  N : Nat
  /-- `XS3_RECOMP_INC`: whether the Excess-3 negative path adds 1 (45_add_sub.md R98, 90_conflicts.md C1). -/
  xs3RecompInc : Bool
  /-- `TRACE`: whether the trace output exists (43_adder.md R78, R79). -/
  trace : Bool
  /-- The constraint on `N`. -/
  one_le_N : 1 ≤ N
  deriving DecidableEq, Repr

/-- The defaults: `N = 4`, `XS3_RECOMP_INC = 0`, `TRACE = 0`. -/
def Params.default : Params := { N := 4, xs3RecompInc := false, trace := false, one_le_N := by decide }

/-- `ceil(log2 m)`: the least width that holds the values 0 to `m - 1`. -/
def ceilLog2 (m : Nat) : Nat := if m ≤ 1 then 0 else Nat.log2 (m - 1) + 1

/-- `LMAX = N + 1`, the largest number of groups of a sequence. -/
abbrev Params.LMAX (P : Params) : Nat := P.N + 1

/-- `NW = ceil(log2(10^N))`, the width of `na` and `nb`. -/
abbrev Params.NW (P : Params) : Nat := ceilLog2 (10 ^ P.N)

/-- `RW = ceil(log2(10^LMAX))`, the width of `mag`. -/
abbrev Params.RW (P : Params) : Nat := ceilLog2 (10 ^ P.LMAX)

/-- `LW = ceil(log2(LMAX + 1))`, the width of a sequence length. -/
abbrev Params.LW (P : Params) : Nat := ceilLog2 (P.LMAX + 1)

/-! ### The trace record (43_adder.md R78) -/

/-- The correction decision of one digit position. -/
inductive Corr where
  | none
  | plus6
  | plus3
  | minus3
  deriving DecidableEq, Repr

/-- One record of the trace, with the fields and widths of R78's table. -/
structure TraceRec (P : Params) where
  /-- `pass`: false for the first adder pass of the command, true for the second. -/
  pass : Bool
  /-- The position, 0 the most significant. -/
  pos : BitVec P.LW
  a : Group
  b : Group
  cin : Bool
  /-- `a + b + cin` before any reduction. -/
  raw : BitVec 5
  bcarry : Bool
  corr : Corr
  /-- The emitted group. -/
  fixed : Group
  cout : Bool
  deriving DecidableEq, Repr

/-! ### Free values

"`any value`: the model gives the thing no value" (93_implementation_defined.md).  Each is an opaque constant applied to the
register's name and to a counter of the state, so that no proof can learn it and no two uses are known to agree. -/

/-- The registers whose contents the spec leaves unspecified at some time (10_state.md R18, R22; U7, U9). -/
inductive FreeReg where
  | rX4 | raLen | raGrp | rbLen | rbGrp | mag | neg | cout | matchRef
  | cwQ | x4Q | c0Q | naQ | nbQ | eaLen | eaGrp | ebLen | ebGrp
  | workRA | workRB | workRC | workRR | workRM | workCf | workCy | workDi
  deriving DecidableEq, Repr

/-- The unspecified contents of a bit-vector register, at the `k`-th time it is left unspecified. -/
opaque freeBits (r : FreeReg) (k w : Nat) : BitVec w

/-- The unspecified contents of a one-bit register. -/
opaque freeBit (r : FreeReg) (k : Nat) : Bool

/-- The unspecified contents of a working register that holds an EncodedNumber. -/
opaque freeSeq (r : FreeReg) (k : Nat) : List Group

/-- The unspecified contents of the trace output after a reset (10_state.md R22). -/
opaque freeTrace (P : Params) (k : Nat) : List (TraceRec P)

end Sys2Proof.Config
end

