-- ==== Sys2Proof/Syntax.lean ====
section
/-! DEFINITION. The twenty instructions (30_encoding.md R40): ten operations under two encodings, each with its trace bit. -/

namespace Sys2Proof

/-- The encoding, "a closed choice of {BCD, Excess3}" (10_state.md R12). -/
inductive Encoding where
  | bcd
  | xs3
  deriving DecidableEq, Repr

/-- The ten operations of the `OP` field (30_encoding.md R40). -/
inductive Op where
  | encd | decd | encn | decn | pad | algn | addg | cmpl | add | sub
  deriving DecidableEq, Repr

/-- The fields of a command word as it is laid out (30_encoding.md R39), legal or not. -/
structure CmdFields where
  rsv : BitVec 2
  t : Bool
  e : Encoding
  op : BitVec 4
  deriving DecidableEq, Repr

/-- One constructor per row of the opcode table.  The one operand that stands in the command word is the trace bit `T`
(30_encoding.md R42); all others are on the operand ports (R43). -/
inductive Instr where
  | encdB (t : Bool)
  | encdX (t : Bool)
  | decdB (t : Bool)
  | decdX (t : Bool)
  | encnB (t : Bool)
  | encnX (t : Bool)
  | decnB (t : Bool)
  | decnX (t : Bool)
  | padB (t : Bool)
  | padX (t : Bool)
  | algnB (t : Bool)
  | algnX (t : Bool)
  | addgB (t : Bool)
  | addgX (t : Bool)
  | cmplB (t : Bool)
  | cmplX (t : Bool)
  | addB (t : Bool)
  | addX (t : Bool)
  | subB (t : Bool)
  | subX (t : Bool)
  deriving DecidableEq, Repr

end Sys2Proof
end

