-- ==== Sys2Proof/WellFormed.lean ====
section
/-! DEFINITION. Which command words are legal (30_encoding.md R45). -/

namespace Sys2Proof

/-- `RSV` must be `00` (30_encoding.md R39). -/
def CmdFields.rsvOk (f : CmdFields) : Bool := f.rsv == 0

/-- `OP` must be one of 0x1..0xA: 0x0 and 0xB..0xF are reserved (30_encoding.md R40, R45). -/
def CmdFields.opOk (f : CmdFields) : Bool := decide (1 ≤ f.op.toNat) && decide (f.op.toNat ≤ 10)

/-- A legal command word: 40 of the 256 (30_encoding.md R45). -/
def CmdFields.wf (f : CmdFields) : Bool := f.rsvOk && f.opOk

/-- Every instruction term is well formed: both values of `E` and of `T` "are legal for every operation"
(30_encoding.md R41, R42), and an instruction has no other field. -/
def Instr.wf (_ : Instr) : Bool := true

end Sys2Proof
end

