-- ==== Sys2Proof/Decode.lean ====
section
/-! DEFINITION. The decoder and the encoder of the command word (30_encoding.md R39 to R46), and the numeric codes of its
fields. -/

namespace Sys2Proof

/-! ### The fields of a command word -/

/-- The `E` bit: 0 selects BCD, 1 selects Excess-3 (30_encoding.md R41). -/
def Encoding.ofBit (b : Bool) : Encoding := if b then .xs3 else .bcd

/-- The `E` bit of an encoding. -/
def Encoding.bit : Encoding → Bool
  | .bcd => false
  | .xs3 => true

/-- The fields of a command word: `RSV[7:6]`, `T[5]`, `E[4]`, `OP[3:0]` (30_encoding.md R39). -/
def splitWord (w : CmdWord) : CmdFields :=
  { rsv := w.extractLsb' 6 2, t := w.getLsbD 5, e := Encoding.ofBit (w.getLsbD 4), op := w.extractLsb' 0 4 }

/-- The command word with the given fields. -/
def joinWord (f : CmdFields) : CmdWord :=
  f.rsv ++ BitVec.ofBool f.t ++ BitVec.ofBool f.e.bit ++ f.op

/-- The `OP` field of an operation (30_encoding.md R40). -/
def Op.code : Op → BitVec 4
  | .encd => 0x1
  | .decd => 0x2
  | .encn => 0x3
  | .decn => 0x4
  | .pad => 0x5
  | .algn => 0x6
  | .addg => 0x7
  | .cmpl => 0x8
  | .add => 0x9
  | .sub => 0xA

/-- The operation an `OP` field selects; none for the six reserved values (30_encoding.md R40, R45). -/
def Op.ofCode (c : BitVec 4) : Option Op :=
  match c.toNat with
  | 1 => some .encd
  | 2 => some .decd
  | 3 => some .encn
  | 4 => some .decn
  | 5 => some .pad
  | 6 => some .algn
  | 7 => some .addg
  | 8 => some .cmpl
  | 9 => some .add
  | 10 => some .sub
  | _ => none

/-! ### The instruction of an operation and an encoding -/

/-- The instruction that an operation, an encoding and a trace bit name (30_encoding.md R40). -/
def instrOf (op : Op) (e : Encoding) (t : Bool) : Instr :=
  match op, e with
  | .encd, .bcd => .encdB t
  | .encd, .xs3 => .encdX t
  | .decd, .bcd => .decdB t
  | .decd, .xs3 => .decdX t
  | .encn, .bcd => .encnB t
  | .encn, .xs3 => .encnX t
  | .decn, .bcd => .decnB t
  | .decn, .xs3 => .decnX t
  | .pad, .bcd => .padB t
  | .pad, .xs3 => .padX t
  | .algn, .bcd => .algnB t
  | .algn, .xs3 => .algnX t
  | .addg, .bcd => .addgB t
  | .addg, .xs3 => .addgX t
  | .cmpl, .bcd => .cmplB t
  | .cmpl, .xs3 => .cmplX t
  | .add, .bcd => .addB t
  | .add, .xs3 => .addX t
  | .sub, .bcd => .subB t
  | .sub, .xs3 => .subX t

/-- The operation of an instruction. -/
def Instr.op : Instr → Op
  | .encdB _ | .encdX _ => .encd
  | .decdB _ | .decdX _ => .decd
  | .encnB _ | .encnX _ => .encn
  | .decnB _ | .decnX _ => .decn
  | .padB _ | .padX _ => .pad
  | .algnB _ | .algnX _ => .algn
  | .addgB _ | .addgX _ => .addg
  | .cmplB _ | .cmplX _ => .cmpl
  | .addB _ | .addX _ => .add
  | .subB _ | .subX _ => .sub

/-- The encoding of an instruction. -/
def Instr.enc : Instr → Encoding
  | .encdB _ | .decdB _ | .encnB _ | .decnB _ | .padB _ => .bcd
  | .algnB _ | .addgB _ | .cmplB _ | .addB _ | .subB _ => .bcd
  | .encdX _ | .decdX _ | .encnX _ | .decnX _ | .padX _ => .xs3
  | .algnX _ | .addgX _ | .cmplX _ | .addX _ | .subX _ => .xs3

/-- The trace bit of an instruction. -/
def Instr.traceBit : Instr → Bool
  | .encdB t | .encdX t | .decdB t | .decdX t | .encnB t | .encnX t | .decnB t | .decnX t => t
  | .padB t | .padX t | .algnB t | .algnX t | .addgB t | .addgX t | .cmplB t | .cmplX t => t
  | .addB t | .addX t | .subB t | .subX t => t

/-! ### The decoder -/

/-- Why a word is no instruction. -/
inductive Reject where
  /-- Nothing was presented. -/
  | noWord
  /-- `RSV` is not `00` (30_encoding.md R45). -/
  | reservedBits (rsv : BitVec 2)
  /-- `OP` is 0x0 or 0xB..0xF (30_encoding.md R45). -/
  | reservedOp (op : BitVec 4)
  deriving DecidableEq, Repr

/-- Decode one command word (30_encoding.md R39 to R45). -/
def decodeWord (w : CmdWord) : Except Reject Instr :=
  let f := splitWord w
  if f.rsvOk then
    match Op.ofCode f.op with
    | some op => .ok (instrOf op f.e f.t)
    | none => .error (.reservedOp f.op)
  else .error (.reservedBits f.rsv)

/-- Decode the first command word of a list: one word, one format, no prefixes (30_encoding.md R46). -/
def decode : List CmdWord → Except Reject (Instr × List CmdWord)
  | [] => .error .noWord
  | w :: rest =>
    match decodeWord w with
    | .ok i => .ok (i, rest)
    | .error e => .error e

/-! ### The encoder -/

/-- The fields of an instruction's command word (30_encoding.md R39 to R42). -/
def Instr.fields (i : Instr) : CmdFields := { rsv := 0, t := i.traceBit, e := i.enc, op := i.op.code }

/-- The command word of an instruction. -/
def encodeWord (i : Instr) : CmdWord := joinWord i.fields

/-- The words of an instruction: always one. -/
def encode (i : Instr) : List CmdWord := [encodeWord i]

/-! ### The host's view of the opcode table -/

/-- The byte that the low `nbits` bits of `w` stand for; every higher bit is 0. -/
def tableByte (nbits w : Nat) : CmdWord := BitVec.ofNat 8 (w % 2 ^ nbits)

/-- What the decoder reads from an instruction whose bits are `w`, bit 0 least significant. -/
def decodeTableWord (nbits w : Nat) : Option Instr :=
  match decode [tableByte nbits w] with
  | .ok (i, _) => some i
  | .error _ => none

end Sys2Proof
end

