-- ==== Sys2Proof/Machine/State.lean ====
section
/-! DEFINITION. The state of the block as plain data (10_state.md), the record a fault leaves, what a command delivers, and
the state after reset (10_state.md R22).

The parameters of 00_scope.md R4 are no state (10_state.md R24): `Block P` is the state of a block built with the parameters
`P`, which is an argument of its type and of every function on it.  `State` is what the host's interface carries: the
parameters together with the state of a block built with them. -/

namespace Sys2Proof.Machine

open Sys2Proof.Config

/-! ### Phases -/

/-- The phase register `ph` (10_state.md R15). -/
inductive Phase where
  /-- No transaction accepted since reset. -/
  | idle
  /-- A command other than ADD or SUB is computing. -/
  | exec
  /-- ADD or SUB: encoding and aligning the operands. -/
  | align
  /-- SUB: complementing the subtrahend. -/
  | complement
  /-- ADD or SUB: the first adder pass. -/
  | add
  /-- SUB: reading the final carry. -/
  | interpret
  /-- SUB, negative path: recovering the magnitude. -/
  | recomplement
  /-- SUB ended, result non-negative. -/
  | donePositive
  /-- SUB ended, result negative. -/
  | doneNegative
  /-- A command other than SUB ended without fault. -/
  | done
  /-- The command ended with a fault. -/
  | fault
  deriving DecidableEq, Repr

/-! ### Ports and registers -/

/-- An EncodedNumber as it sits on a port: a length and a group vector, right-aligned (20_memory.md R28). -/
structure EncPort (P : Params) where
  len : BitVec P.LW
  grp : BitVec (4 * P.LMAX)
  deriving DecidableEq, Repr

/-- The operand ports (30_encoding.md R43), and the registers `x4_q`, `c0_q`, `na_q`, `nb_q`, `ea_q`, `eb_q` that sample them
(10_state.md R16). -/
structure Operands (P : Params) where
  x4 : Group
  c0 : Bool
  na : BitVec P.NW
  nb : BitVec P.NW
  ea : EncPort P
  eb : EncPort P
  deriving DecidableEq, Repr

/-- The input pins: what the host drives (92_eei_decisions.md D1; 70_reset_and_hazards.md R124, R129). -/
structure Pins (P : Params) where
  rst : Bool
  start : Bool
  cw : CmdWord
  ops : Operands P
  deriving DecidableEq, Repr

/-- The working registers of the phase view (10_state.md R17). -/
structure Working (P : Params) where
  /-- `RA`, the aligned first operand. -/
  ra : List Group
  /-- `RB`, the aligned second operand. -/
  rb : List Group
  /-- `RC`, the nines complement of `RB`. -/
  rc : List Group
  /-- `RR`, the result sequence of the first adder pass. -/
  rr : List Group
  /-- `cf`, the final carry of the first adder pass. -/
  cf : Bool
  /-- `RM`, the magnitude sequence of the negative path. -/
  rm : List Group
  /-- `cy`, the carry threaded between digit positions (10_state.md R13). -/
  cy : Bool
  /-- `di`, the digit position being processed. -/
  di : Fin P.LMAX
  deriving DecidableEq, Repr

/-- The result outputs, the flags and the trace (10_state.md R18). -/
structure Outputs (P : Params) where
  rX4 : Group
  ra : EncPort P
  rb : EncPort P
  mag : BitVec P.RW
  neg : Bool
  cout : Bool
  /-- `match`, the document's `matches_reference`. -/
  matchRef : Bool
  /-- The trace records of the transaction, in the order they are emitted (43_adder.md R78). -/
  trace : List (TraceRec P)
  deriving DecidableEq, Repr

/-- The fault registers `err_code`, `err_opnd`, `err_idx` (10_state.md R19); `err_valid` is a function of the phase. -/
structure ErrRegs (P : Params) where
  code : BitVec 4
  opnd : Bool
  idx : BitVec P.LW
  deriving DecidableEq, Repr

/-- The fault registers when there is no fault: they "read 0 whenever `err_valid` = 0" (10_state.md R19). -/
def ErrRegs.zero {P : Params} : ErrRegs P := ⟨0, false, 0⟩

/-! ### What a command ends with -/

/-- The fault kinds (60_exceptions.md R108). -/
inductive FaultKind where
  /-- A group's decoded value falls outside 0–9 (R109). -/
  | invalidDigitGroup
  /-- A digit above 9 or an integer of 10^N or more (R110). -/
  | inputOutOfRange
  /-- Never raised by the block: four wires cannot be malformed text (R112). -/
  | malformedBinaryLiteral
  /-- The command word selects no instruction (R113). -/
  | illegalCommand
  /-- A sequence length the command cannot take (R114). -/
  | lengthViolation
  deriving DecidableEq, Repr

/-- `Fault(kind, opnd, idx)` (00_scope.md R8): `opnd` is false for the first operand and true for the second, `idx` is the
index of the offending group (60_exceptions.md R116). -/
structure FaultRec where
  kind : FaultKind
  opnd : Bool
  idx : Nat
  deriving DecidableEq, Repr

/-- `Result(outputs)` (00_scope.md R8): what a command writes when it ends without a fault, in the columns of 30_encoding.md
R44.  `none` says that the command does not write the output (it is then unspecified). -/
structure Results (P : Params) where
  /-- The terminal phase (45_add_sub.md R92, R106). -/
  ph : Phase := .done
  rX4 : Option Group := none
  ra : Option (EncPort P) := none
  rb : Option (EncPort P) := none
  mag : Option (BitVec P.RW) := none
  neg : Option Bool := none
  cout : Option Bool := none
  matchRef : Option Bool := none
  trace : List (TraceRec P) := []
  deriving DecidableEq, Repr

/-! ### The state -/

/-- The state of a block built with the parameters `P`, with the host's pins. -/
structure Block (P : Params) where
  /-- The input pins, as the host drives them at the next edge (log entry 3). -/
  pins : Pins P
  /-- `ph` (R15). -/
  ph : Phase
  /-- `cw_q` (R16). -/
  cwQ : CmdWord
  /-- `x4_q`, `c0_q`, `na_q`, `nb_q`, `ea_q`, `eb_q` (R16). -/
  opsQ : Operands P
  /-- `RA`, `RB`, `RC`, `RR`, `cf`, `RM`, `cy`, `di` (R17). -/
  work : Working P
  /-- `r_x4`, `ra`, `rb`, `mag`, `neg`, `cout`, `match`, `trace` (R18). -/
  out : Outputs P
  /-- `err_code`, `err_opnd`, `err_idx` (R19). -/
  err : ErrRegs P
  /-- The model's own: how many times registers have been left unspecified so far (log entry 10). -/
  fresh : Nat
  deriving DecidableEq, Repr

/-- What the host's interface carries from step to step: the parameters the block was built with, which no step changes, and
the block's state (log entry 6). -/
structure State where
  params : Params
  block : Block params
  deriving DecidableEq, Repr

/-- The reasons the MODEL stops: none.  "All are surfaced as explicit result/error values, never uncontrolled termination"
(60_exceptions.md R115), and every transaction ends (70_reset_and_hazards.md R135); a fault of the block is a next state. -/
inductive Fault where
  deriving DecidableEq, Repr

/-- The reasons the model refuses an instruction. -/
inductive Refusal where
  /-- Raised by an arm of `exec` whose instruction has no meaning yet; no arm raises it.  Safe: nothing is claimed. -/
  | notModelled (mnemonic : String)
  deriving DecidableEq, Repr

/-! ### Unspecified contents (93_implementation_defined.md U7, U9) -/

/-- Operand registers with unspecified contents. -/
def Operands.free (P : Params) (k : Nat) : Operands P :=
  { x4 := freeBits .x4Q k 4
    c0 := freeBit .c0Q k
    na := freeBits .naQ k P.NW
    nb := freeBits .nbQ k P.NW
    ea := ⟨freeBits .eaLen k P.LW, freeBits .eaGrp k (4 * P.LMAX)⟩
    eb := ⟨freeBits .ebLen k P.LW, freeBits .ebGrp k (4 * P.LMAX)⟩ }

/-- Working registers with unspecified contents. -/
def Working.free (P : Params) (k : Nat) : Working P :=
  { ra := freeSeq .workRA k
    rb := freeSeq .workRB k
    rc := freeSeq .workRC k
    rr := freeSeq .workRR k
    cf := freeBit .workCf k
    rm := freeSeq .workRM k
    cy := freeBit .workCy k
    di := Fin.ofNat P.LMAX (freeBits .workDi k P.LW).toNat }

/-- Outputs with unspecified contents and the given trace. -/
def Outputs.free (P : Params) (k : Nat) (trace : List (TraceRec P)) : Outputs P :=
  { rX4 := freeBits .rX4 k 4
    ra := ⟨freeBits .raLen k P.LW, freeBits .raGrp k (4 * P.LMAX)⟩
    rb := ⟨freeBits .rbLen k P.LW, freeBits .rbGrp k (4 * P.LMAX)⟩
    mag := freeBits .mag k P.RW
    neg := freeBit .neg k
    cout := freeBit .cout k
    matchRef := freeBit .matchRef k
    trace := trace }

/-! ### Reset -/

/-- Pins at rest: nothing asserted, every port 0 (log entry 3). -/
def Pins.idle {P : Params} : Pins P :=
  { rst := false, start := false, cw := 0
    ops := { x4 := 0, c0 := false, na := 0, nb := 0, ea := ⟨0, 0⟩, eb := ⟨0, 0⟩ } }

/-- The reset values of 10_state.md R22, for any parameters, with the given pins: `ph` IDLE, the fault registers and the three
flags 0, everything else unspecified. -/
def Block.afterReset {P : Params} (p : Pins P) (k : Nat) : Block P :=
  { pins := p
    ph := .idle
    cwQ := freeBits .cwQ k 8
    opsQ := Operands.free P k
    work := Working.free P k
    out := { Outputs.free P k (freeTrace P k) with neg := false, cout := false, matchRef := false }
    err := ErrRegs.zero
    fresh := k + 1 }

/-- A block built with the parameters `P`, right after reset and with its pins at rest. -/
def Block.reset (P : Params) : Block P := Block.afterReset Pins.idle 0

/-- The machine right after reset, built with the parameters `P`. -/
def State.resetOf (P : Params) : State := ⟨P, Block.reset P⟩

/-- The machine right after reset, built with the default parameters of 00_scope.md R4. -/
def State.reset : State := State.resetOf Params.default

end Sys2Proof.Machine
end

