-- ==== Sys2Proof/Machine/Operands.lean ====
section
/-! DEFINITION. Operand forms: group values, a sequence on a port (20_memory.md R28), and the length checks
(60_exceptions.md R114). -/

namespace Sys2Proof.Machine

open Sys2Proof.Config

variable {P : Params}

/-! ### Groups (00_scope.md R5, 30_encoding.md R37, R38) -/

/-- `grp4(v)`, the group whose value is `v mod 16`. -/
def grp4 (v : Nat) : Group := BitVec.ofNat 4 v

/-- `v & 0xF` of a signed value, "as two's complement" (43_adder.md R77). -/
def grp4OfInt (v : Int) : Group := BitVec.ofInt 4 v

/-- `Z(enc)`, the zero-digit group (30_encoding.md R37). -/
def zeroGroup : Encoding → Group
  | .bcd => 0b0000
  | .xs3 => 0b0011

/-! ### Sequences on a port (20_memory.md R28) -/

/-- Group `E_k` of a sequence of length `L`: bits `4(L-1-k)+3 : 4(L-1-k)` of the vector. -/
def EncPort.group (p : EncPort P) (k : Nat) : Group := p.grp.extractLsb' (4 * (p.len.toNat - 1 - k)) 4

/-- The sequence on a port, most significant digit first; bits at and above `4·len` are ignored. -/
def EncPort.groups (p : EncPort P) : List Group := (List.range p.len.toNat).map p.group

/-- The vector of a sequence read as a hexadecimal numeral (20_memory.md R28). -/
def hexValue (E : List Group) : Nat := E.foldl (fun v g => 16 * v + g.toNat) 0

/-- A sequence on an output port: right-aligned, the bits at and above `4·len` 0. -/
def packSeq (E : List Group) : EncPort P :=
  { len := BitVec.ofNat P.LW E.length, grp := BitVec.ofNat (4 * P.LMAX) (hexValue E) }

/-! ### Length checks (60_exceptions.md R114) -/

/-- A sequence length the hardware can hold. -/
def legalLen (lmax len : Nat) : Bool := decide (1 ≤ len) && decide (len ≤ lmax)

/-- The LengthViolation fault; its index is always 0. -/
def lengthFault (opnd : Bool) : FaultRec := ⟨.lengthViolation, opnd, 0⟩

/-- Rows 1 and 2 of R114's table: the length of one operand is 0 or above LMAX. -/
def checkLen (lmax : Nat) (opnd : Bool) (len : Nat) : Except FaultRec Unit :=
  if legalLen lmax len then .ok () else .error (lengthFault opnd)

/-- Both lengths, the first operand first (60_exceptions.md R118). -/
def checkLens (lmax lenA lenB : Nat) : Except FaultRec Unit := do
  checkLen lmax false lenA
  checkLen lmax true lenB

/-- Row 3: the two sequences of ADDG have the same length. -/
def checkEqualLen (lenA lenB : Nat) : Except FaultRec Unit :=
  if lenA = lenB then .ok () else .error (lengthFault true)

/-- Row 4: ALGN has room for the reserved digit; the longer operand is named, the first if they tie. -/
def checkRoom (lmax lenA lenB : Nat) : Except FaultRec Unit :=
  if max lenA lenB + 1 > lmax then .error (lengthFault (decide (lenA < lenB))) else .ok ()

end Sys2Proof.Machine
end

