-- ==== Sys2Proof/Machine/Flags.lean ====
section
/-! DEFINITION. The flags: `match` (45_add_sub.md R103), the signed result, `busy`, `done`, `err_valid` (10_state.md R15,
R19) and the status vector (10_state.md R21). -/

namespace Sys2Proof.Machine

open Sys2Proof.Config

variable {P : Params}

/-! ### `match` and the sign (45_add_sub.md R99, R103; 10_state.md R18) -/

/-- The decoded integer result `(-1)^neg · mag`; `neg` = 1 with `mag` = 0 stands for 0. -/
def signedResult (neg : Bool) (mag : Nat) : Int := if neg then -(mag : Int) else (mag : Int)

/-- `match` of ADD: the magnitude equals the native sum. -/
def matchAdd (n m mag : Nat) : Bool := mag == n + m

/-- `match` of SUB: the signed result equals the native difference, over the integers. -/
def matchSub (n m : Nat) (neg : Bool) (mag : Nat) : Bool := signedResult neg mag == (n : Int) - (m : Int)

/-! ### Functions of the phase (10_state.md R15, R19, R21) -/

/-- The 4-bit code of a phase (10_state.md R15). -/
def Phase.code : Phase → BitVec 4
  | .idle => 0x0
  | .exec => 0x1
  | .align => 0x2
  | .complement => 0x3
  | .add => 0x4
  | .interpret => 0x5
  | .recomplement => 0x6
  | .donePositive => 0x7
  | .doneNegative => 0x8
  | .done => 0x9
  | .fault => 0xA

/-- The terminal phases (10_state.md R15); in them `done` = 1. -/
def Phase.terminal : Phase → Bool
  | .donePositive | .doneNegative | .done | .fault => true
  | .idle | .exec | .align | .complement | .add | .interpret | .recomplement => false

/-- `busy`: a transaction is in flight (10_state.md R15, R21). -/
def Phase.busy : Phase → Bool
  | .exec | .align | .complement | .add | .interpret | .recomplement => true
  | .idle | .donePositive | .doneNegative | .done | .fault => false

/-- `busy`. -/
def Block.busy (s : Block P) : Bool := s.ph.busy

/-- `done`. -/
def Block.done (s : Block P) : Bool := s.ph.terminal

/-- `err_valid`, 1 exactly while `ph` = FAULT (10_state.md R19). -/
def Block.errValid (s : Block P) : Bool := s.ph == .fault

/-- `status[7:0]` = {busy, done, err_valid, match, neg, cout, 0, 0} (10_state.md R21). -/
def Block.status (s : Block P) : BitVec 8 :=
  BitVec.ofBool s.busy ++ BitVec.ofBool s.done ++ BitVec.ofBool s.errValid ++ BitVec.ofBool s.out.matchRef
    ++ BitVec.ofBool s.out.neg ++ BitVec.ofBool s.out.cout ++ (0 : BitVec 2)

end Sys2Proof.Machine
end

