-- ==== Sys2Proof/Machine/Ops.lean ====
section
/-! DEFINITION. The shared operations on the state: accepting a transaction, ending it with results, taking a fault
(60_exceptions.md R115 to R119), reset, and driving the pins. -/

namespace Sys2Proof.Machine

open Sys2Proof.Config

variable {P : Params}

/-! ### Numeric codes of what the block reports -/

/-- `err_code` (60_exceptions.md R108). -/
def FaultKind.code : FaultKind → BitVec 4
  | .invalidDigitGroup => 0x1
  | .inputOutOfRange => 0x2
  | .malformedBinaryLiteral => 0x3
  | .illegalCommand => 0x4
  | .lengthViolation => 0x5

/-- The trace field `corr` (43_adder.md R78). -/
def corrCode : Corr → BitVec 2
  | .none => 0b00
  | .plus6 => 0b01
  | .plus3 => 0b10
  | .minus3 => 0b11

/-- What a fault records (60_exceptions.md R116). -/
def FaultRec.regs (f : FaultRec) : ErrRegs P := { code := f.kind.code, opnd := f.opnd, idx := BitVec.ofNat P.LW f.idx }

/-- IllegalCommand, recorded with `err_opnd` = 0 and `err_idx` = 0 (60_exceptions.md R113). -/
def illegalFault : FaultRec := ⟨.illegalCommand, false, 0⟩

/-! ### A transaction begins, ends, or faults -/

/-- The `start` edge (70_reset_and_hazards.md R129, R130): the command word and every operand port are sampled, the block
goes to phase `p`, the fault registers return to 0 on leaving FAULT (60_exceptions.md R119), and no output but `busy`, `done`
and the fault registers means anything until `done` (R131).  No trace record has been emitted yet. -/
def Block.accept (s : Block P) (p : Phase) : Block P :=
  { s with
    ph := p
    cwQ := s.pins.cw
    opsQ := s.pins.ops
    work := Working.free P s.fresh
    out := Outputs.free P s.fresh []
    err := ErrRegs.zero
    fresh := s.fresh + 1 }

/-- The outputs at `done`: what the command writes (30_encoding.md R44), and unspecified contents in every output it does
not write (10_state.md R18, U7).  The trace holds the records the command emitted (43_adder.md R78). -/
def Results.outputs (r : Results P) (k : Nat) : Outputs P :=
  { rX4 := r.rX4.getD (Outputs.free P k []).rX4
    ra := r.ra.getD (Outputs.free P k []).ra
    rb := r.rb.getD (Outputs.free P k []).rb
    mag := r.mag.getD (Outputs.free P k []).mag
    neg := r.neg.getD (Outputs.free P k []).neg
    cout := r.cout.getD (Outputs.free P k []).cout
    matchRef := r.matchRef.getD (Outputs.free P k []).matchRef
    trace := r.trace }

/-- A transaction ends without a fault: all outputs change together (20_memory.md R31); the latched operands and the
working registers hold no value between transactions (U9). -/
def Block.conclude (s : Block P) (r : Results P) : Block P :=
  { s with
    ph := r.ph
    cwQ := freeBits .cwQ s.fresh 8
    opsQ := Operands.free P s.fresh
    work := Working.free P s.fresh
    out := r.outputs s.fresh
    err := ErrRegs.zero
    fresh := s.fresh + 1 }

/-- TAKING A FAULT (60_exceptions.md R115 to R117): phase FAULT, the fault recorded, no result: every result output is
unspecified and the trace is discarded.  There is no handler, no vector, no saved state and no mode change. -/
def Block.takeFault (s : Block P) (f : FaultRec) : Block P :=
  { s with
    ph := .fault
    cwQ := freeBits .cwQ s.fresh 8
    opsQ := Operands.free P s.fresh
    work := Working.free P s.fresh
    out := Outputs.free P s.fresh []
    err := f.regs
    fresh := s.fresh + 1 }

/-- The end of a transaction, with its results or with its fault. -/
def Block.settle (s : Block P) : Except FaultRec (Results P) → Block P
  | .ok r => s.conclude r
  | .error f => s.takeFault f

/-- A whole transaction as one step (70_reset_and_hazards.md R135): sample, compute `f` of the sampled operands, and end.
`p` is the phase that the `start` edge enters. -/
def Block.transact (s : Block P) (p : Phase) (f : Operands P → Except FaultRec (Results P)) : Block P :=
  (s.accept p).settle (f (s.accept p).opsQ)

/-- A whole transaction of a block, under the parameters it was built with. -/
def State.transact (s : State) (p : Phase) (f : Operands s.params → Except FaultRec (Results s.params)) :
    Host.Outcome State Fault Refusal :=
  .next ⟨s.params, s.block.transact p f⟩

/-- A `start` with a command word that selects no instruction: IllegalCommand, no operand examined
(60_exceptions.md R113; 45_add_sub.md R106). -/
def Block.rejectCommand (s : Block P) : Block P := (s.accept .exec).takeFault illegalFault

/-! ### Reset and the pins -/

/-- A clock edge with `rst` = 1 (70_reset_and_hazards.md R124 to R126): the reset values, whatever the block was doing. -/
def Block.resetEdge (s : Block P) : Block P := Block.afterReset s.pins s.fresh

/-- The host drives the pins, between two edges. -/
def Block.drive (s : Block P) (p : Pins P) : Block P := { s with pins := p }

/-- What the host presents on `cw` (20_memory.md R34). -/
def Block.fetch (s : Block P) : List CmdWord := [s.pins.cw]

/-! ### A shared recursion -/

/-- Apply a function that may raise to each element, index 0 first, stopping at the first fault; `k` is the index of the
first element (41_number_codec.md R57, 44_complement.md R83). -/
def mapRaise {α β : Type} (f : Nat → α → Except FaultRec β) (k : Nat) : List α → Except FaultRec (List β)
  | [] => .ok []
  | x :: xs => do
    let y ← f k x
    let ys ← mapRaise f (k + 1) xs
    return y :: ys

/-- Whether the block emits trace records for a command with trace bit `t` (43_adder.md R78, 30_encoding.md R42). -/
def tracing (P : Params) (t : Bool) : Bool := P.trace && t

end Sys2Proof.Machine
end

