-- ==== Sys2Proof/Machine/DigitCodec.lean ====
section
/-! DEFINITION. The digit codec (40_digit_codec.md): ENCD and DECD. -/

namespace Sys2Proof.Machine

open Sys2Proof.Config

variable {P : Params}

/-- `enc_digit(d, enc)` (R49, R50): InputOutOfRange above 9. -/
def encDigit (e : Encoding) (d : Nat) : Except FaultRec Group :=
  if d > 9 then .error ⟨.inputOutOfRange, false, 0⟩
  else
    match e with
    | .bcd => .ok (grp4 d)
    | .xs3 => .ok (grp4 (d + 3))

/-- The value a group decodes to, over the integers: `value(g)` under BCD, `value(g) - 3` under Excess-3 with "no
wrap-around" (R51, R52). -/
def decodedValue (e : Encoding) (g : Group) : Int :=
  match e with
  | .bcd => (g.toNat : Int)
  | .xs3 => (g.toNat : Int) - 3

/-- `dec_digit(g, enc)` (R51, R52): InvalidDigitGroup outside 0–9, reported at the caller's position of the group. -/
def decDigit (e : Encoding) (opnd : Bool) (idx : Nat) (g : Group) : Except FaultRec Nat :=
  let v := decodedValue e g
  if v < 0 ∨ v > 9 then .error ⟨.invalidDigitGroup, opnd, idx⟩ else .ok v.toNat

/-- ENCD: `r_x4 <- enc_digit(value(x4), enc)` (R49, R50). -/
def encdFn (e : Encoding) (o : Operands P) : Except FaultRec (Results P) := do
  let g ← encDigit e o.x4.toNat
  return { rX4 := some g }

/-- DECD: `r_x4 <- grp4(dec_digit(x4, enc))` (R51, R52). -/
def decdFn (e : Encoding) (o : Operands P) : Except FaultRec (Results P) := do
  let d ← decDigit e false 0 o.x4
  return { rX4 := some (grp4 d) }

/-- ENCD.B (R49).  The trace bit has no effect: no adder pass is run (30_encoding.md R42). -/
def execEncdB (_t : Bool) (s : State) : Host.Outcome State Fault Refusal := s.transact .exec (encdFn .bcd)

/-- ENCD.X (R50). -/
def execEncdX (_t : Bool) (s : State) : Host.Outcome State Fault Refusal := s.transact .exec (encdFn .xs3)

/-- DECD.B (R51). -/
def execDecdB (_t : Bool) (s : State) : Host.Outcome State Fault Refusal := s.transact .exec (decdFn .bcd)

/-- DECD.X (R52). -/
def execDecdX (_t : Bool) (s : State) : Host.Outcome State Fault Refusal := s.transact .exec (decdFn .xs3)

end Sys2Proof.Machine
end

