-- ==== Sys2Proof/Machine/NumberCodec.lean ====
section
/-! DEFINITION. The number codec (41_number_codec.md): ENCN and DECN. -/

namespace Sys2Proof.Machine

open Sys2Proof.Config

variable {P : Params}

/-- The least `L' ≥ L` with `n < 10^L'`, looked for in `fuel` steps. -/
def leastLen (n : Nat) : Nat → Nat → Nat
  | 0, L => L
  | fuel + 1, L => if n < 10 ^ L then L else leastLen n fuel (L + 1)

/-- The number of groups of `encn(n)`: 1 for `n = 0`, else the least `L` with `n < 10^L` (R54). -/
def encLen (nmax n : Nat) : Nat := if n = 0 then 1 else leastLen n nmax 1

/-- The digits `d_k = floor(n / 10^(L-1-k)) mod 10`, the leading one first (R54). -/
def decimalDigits (n L : Nat) : List Nat := (List.range L).map (fun k => n / 10 ^ (L - 1 - k) % 10)

/-- `encn(n, enc)` for operands of at most `nmax` digits (R54); `opnd` is false for `na`, true for `nb`. -/
def encn (nmax : Nat) (e : Encoding) (opnd : Bool) (n : Nat) : Except FaultRec (List Group) :=
  if n ≥ 10 ^ nmax then .error ⟨.inputOutOfRange, opnd, 0⟩
  else mapRaise (fun _ d => encDigit e d) 0 (decimalDigits n (encLen nmax n))

/-- The loop of `decn`: `v` is the value so far and `k` the index of the next group (R57). -/
def decnFrom (e : Encoding) (opnd : Bool) (k v : Nat) : List Group → Except FaultRec Nat
  | [] => .ok v
  | g :: gs => do
    let d ← decDigit e opnd k g
    decnFrom e opnd (k + 1) (10 * v + d) gs

/-- `decn(E, enc)` (R57): the lowest malformed index is the one reported. -/
def decn (e : Encoding) (opnd : Bool) (E : List Group) : Except FaultRec Nat := decnFrom e opnd 0 0 E

/-- ENCN: `ra <- encn(na, enc)` (R55, R56). -/
def encnFn (e : Encoding) (o : Operands P) : Except FaultRec (Results P) := do
  let E ← encn P.N e false o.na.toNat
  return { ra := some (packSeq E) }

/-- DECN: the length check, then `mag <- decn(ea, enc)` and `neg <- 0` (R58, R59). -/
def decnFn (e : Encoding) (o : Operands P) : Except FaultRec (Results P) := do
  checkLen P.LMAX false o.ea.len.toNat
  let v ← decn e false o.ea.groups
  return { mag := some (BitVec.ofNat P.RW v), neg := some false }

/-- ENCN.B (R55). -/
def execEncnB (_t : Bool) (s : State) : Host.Outcome State Fault Refusal := s.transact .exec (encnFn .bcd)

/-- ENCN.X (R56). -/
def execEncnX (_t : Bool) (s : State) : Host.Outcome State Fault Refusal := s.transact .exec (encnFn .xs3)

/-- DECN.B (R58). -/
def execDecnB (_t : Bool) (s : State) : Host.Outcome State Fault Refusal := s.transact .exec (decnFn .bcd)

/-- DECN.X (R59). -/
def execDecnX (_t : Bool) (s : State) : Host.Outcome State Fault Refusal := s.transact .exec (decnFn .xs3)

end Sys2Proof.Machine
end

