-- ==== Sys2Proof/Machine/Aligner.lean ====
section
/-! DEFINITION. The aligner (42_aligner.md): PAD and ALGN. -/

namespace Sys2Proof.Machine

open Sys2Proof.Config

variable {P : Params}

/-- One operand of `pad`: zero-digit groups at the most significant end up to length `L` (R61). -/
def padTo (e : Encoding) (L : Nat) (A : List Group) : List Group :=
  List.replicate (L - A.length) (zeroGroup e) ++ A

/-- `pad(A, B, enc)` (R61): the groups are copied unexamined. -/
def pad (e : Encoding) (A B : List Group) : List Group × List Group :=
  (padTo e (max A.length B.length) A, padTo e (max A.length B.length) B)

/-- `align1(A, B, enc)`: one zero-digit group before both, then `pad` (R64). -/
def align1 (e : Encoding) (A B : List Group) : List Group × List Group :=
  pad e (zeroGroup e :: A) (zeroGroup e :: B)

/-- PAD (R62, R63). -/
def padFn (e : Encoding) (o : Operands P) : Except FaultRec (Results P) := do
  checkLens P.LMAX o.ea.len.toNat o.eb.len.toNat
  let (A, B) := pad e o.ea.groups o.eb.groups
  return { ra := some (packSeq A), rb := some (packSeq B) }

/-- ALGN: a LengthViolation also when the reserved digit would not fit (R65, R66). -/
def algnFn (e : Encoding) (o : Operands P) : Except FaultRec (Results P) := do
  checkLens P.LMAX o.ea.len.toNat o.eb.len.toNat
  checkRoom P.LMAX o.ea.len.toNat o.eb.len.toNat
  let (A, B) := align1 e o.ea.groups o.eb.groups
  return { ra := some (packSeq A), rb := some (packSeq B) }

/-- PAD.B (R62). -/
def execPadB (_t : Bool) (s : State) : Host.Outcome State Fault Refusal := s.transact .exec (padFn .bcd)

/-- PAD.X (R63). -/
def execPadX (_t : Bool) (s : State) : Host.Outcome State Fault Refusal := s.transact .exec (padFn .xs3)

/-- ALGN.B (R65). -/
def execAlgnB (_t : Bool) (s : State) : Host.Outcome State Fault Refusal := s.transact .exec (algnFn .bcd)

/-- ALGN.X (R66). -/
def execAlgnX (_t : Bool) (s : State) : Host.Outcome State Fault Refusal := s.transact .exec (algnFn .xs3)

end Sys2Proof.Machine
end

