-- ==== Sys2Proof/Machine/Adder.lean ====
section
/-! DEFINITION. The digit-wise adder (43_adder.md): the two digit rules, the pass, the trace, and ADDG. -/

namespace Sys2Proof.Machine

open Sys2Proof.Config

variable {P : Params}

/-- What one digit position computes: the result, and what its trace record reports. -/
structure DigitSum where
  /-- `a + b + c_in` before any reduction. -/
  raw : Nat
  bcarry : Bool
  corr : Corr
  fixed : Group
  cout : Bool
  deriving DecidableEq, Repr

/-- `add_digit_bcd(a, b, c_in)`, line by line as R69 transcribes it; the binary carry forces `c_out` (R70). -/
def addDigitBcd (a b : Nat) (cin : Bool) : DigitSum :=
  let raw := a + b + cin.toNat
  let bcarry := decide (raw > 15)
  let red := if bcarry then raw - 16 else raw
  let needsFix := decide (red > 9) || bcarry
  if needsFix then
    let plus := red + 6
    let inner := decide (plus > 15)
    let fixed := if inner then plus - 16 else plus
    let cout := if bcarry then true else inner
    { raw := raw, bcarry := bcarry, corr := .plus6, fixed := grp4 fixed, cout := cout }
  else { raw := raw, bcarry := bcarry, corr := .none, fixed := grp4 red, cout := false }

/-- `add_digit_xs3(a, b, c_in)`, line by line as R71 transcribes it; `raw - 3` is over the integers. -/
def addDigitXs3 (a b : Nat) (cin : Bool) : DigitSum :=
  let raw := a + b + cin.toNat
  let cout := decide (raw > 15)
  let red := if cout then raw - 16 else raw
  let fixed : Int := if cout then (red : Int) + 3 else (red : Int) - 3
  { raw := raw, bcarry := cout, corr := if cout then .plus3 else .minus3, fixed := grp4OfInt fixed, cout := cout }

/-- The digit rule of an encoding (R68). -/
def addDigit (e : Encoding) (a b : Group) (cin : Bool) : DigitSum :=
  match e with
  | .bcd => addDigitBcd a.toNat b.toNat cin
  | .xs3 => addDigitXs3 a.toNat b.toNat cin

/-- The trace record of one position (R78). -/
def traceRec (pass : Bool) (pos : Nat) (a b : Group) (cin : Bool) (d : DigitSum) : TraceRec P :=
  { pass := pass, pos := BitVec.ofNat P.LW pos, a := a, b := b, cin := cin, raw := BitVec.ofNat 5 d.raw
    bcarry := d.bcarry, corr := d.corr, fixed := d.fixed, cout := d.cout }

/-- What a pass delivers: the result sequence, the final carry (R72), and its trace records in order (R78). -/
structure PassOut (P : Params) where
  seq : List Group
  carry : Bool
  recs : List (TraceRec P)
  deriving DecidableEq, Repr

/-- The positions from `pos` on, least significant first: the tail of the sequences is added before their head, and its
carry goes into the head (R68). -/
def addPass (P : Params) (e : Encoding) (pass : Bool) (c0 : Bool) (pos : Nat) : List Group → List Group → PassOut P
  | a :: as, b :: bs =>
    let r := addPass P e pass c0 (pos + 1) as bs
    let d := addDigit e a b r.carry
    { seq := d.fixed :: r.seq, carry := d.cout, recs := r.recs ++ [traceRec pass pos a b r.carry d] }
  | _, _ => { seq := [], carry := c0, recs := [] }

/-- `addg(A, B, c0, enc)` (R68, R72); `pass` says which pass of the command it is (R78). -/
def addg (P : Params) (e : Encoding) (pass : Bool) (A B : List Group) (c0 : Bool) : PassOut P := addPass P e pass c0 0 A B

/-- The records a command with trace bit `t` emits (R78, 30_encoding.md R42). -/
def emitted (t : Bool) (recs : List (TraceRec P)) : List (TraceRec P) := if tracing P t then recs else []

/-- ADDG: the three length checks, then `(ra, cout) <- addg(ea, eb, c0, enc)`; groups are not examined (R73 to R75). -/
def addgFn (e : Encoding) (t : Bool) (o : Operands P) : Except FaultRec (Results P) := do
  checkLens P.LMAX o.ea.len.toNat o.eb.len.toNat
  checkEqualLen o.ea.len.toNat o.eb.len.toNat
  let p := addg P e false o.ea.groups o.eb.groups o.c0
  return { ra := some (packSeq p.seq), cout := some p.carry, trace := emitted t p.recs }

/-- ADDG.B (R73). -/
def execAddgB (t : Bool) (s : State) : Host.Outcome State Fault Refusal := s.transact .exec (addgFn .bcd t)

/-- ADDG.X (R74). -/
def execAddgX (t : Bool) (s : State) : Host.Outcome State Fault Refusal := s.transact .exec (addgFn .xs3 t)

end Sys2Proof.Machine
end

