-- ==== Sys2Proof/Machine/Complement.lean ====
section
/-! DEFINITION. The nines-complement generator (44_complement.md): CMPL. -/

namespace Sys2Proof.Machine

open Sys2Proof.Config

variable {P : Params}

/-- `cmpl_digit(g, enc)`: through the digit value under BCD (R81), a bit inversion under Excess-3 that never faults (R82). -/
def cmplDigit (e : Encoding) (opnd : Bool) (idx : Nat) (g : Group) : Except FaultRec Group :=
  match e with
  | .bcd => do
    let d ← decDigit .bcd opnd idx g
    encDigit .bcd (9 - d)
  | .xs3 => .ok (~~~g)

/-- `cmpl(E, enc)`: group by group, order preserved, index 0 first (R83). -/
def cmpl (e : Encoding) (opnd : Bool) (E : List Group) : Except FaultRec (List Group) := mapRaise (cmplDigit e opnd) 0 E

/-- CMPL: the length check, then `ra <- cmpl(ea, enc)` (R84, R85). -/
def cmplFn (e : Encoding) (o : Operands P) : Except FaultRec (Results P) := do
  checkLen P.LMAX false o.ea.len.toNat
  let K ← cmpl e false o.ea.groups
  return { ra := some (packSeq K) }

/-- CMPL.B (R84). -/
def execCmplB (_t : Bool) (s : State) : Host.Outcome State Fault Refusal := s.transact .exec (cmplFn .bcd)

/-- CMPL.X (R85). -/
def execCmplX (_t : Bool) (s : State) : Host.Outcome State Fault Refusal := s.transact .exec (cmplFn .xs3)

end Sys2Proof.Machine
end

