-- ==== Sys2Proof/Machine/AddSub.lean ====
section
/-! DEFINITION. The add path and the subtractor (45_add_sub.md), as functions: ADD and SUB. -/

namespace Sys2Proof.Machine

open Sys2Proof.Config

variable {P : Params}

/-- What the two paths return: `(RR, cf, mag, neg, match)` (R88, R99) and the trace records of their passes (R78). -/
structure PathOut (P : Params) where
  rr : List Group
  cf : Bool
  mag : Nat
  neg : Bool
  matchRef : Bool
  recs : List (TraceRec P)
  deriving DecidableEq, Repr

/-- Encode and align both operands: the first step of both paths (R88, R93). -/
def encodeAlign (nmax : Nat) (e : Encoding) (n m : Nat) : Except FaultRec (List Group × List Group) := do
  let A ← encn nmax e false n
  let B ← encn nmax e true m
  return align1 e A B

/-- `add_path(n, m, enc)` (R88): the final carry is reported and otherwise unused. -/
def addPath (P : Params) (e : Encoding) (n m : Nat) : Except FaultRec (PathOut P) := do
  let (RA, RB) ← encodeAlign P.N e n m
  let p := addg P e false RA RB false
  let mag ← decn e false p.seq
  return { rr := p.seq, cf := p.carry, mag := mag, neg := false, matchRef := matchAdd n m mag, recs := p.recs }

/-- The sequence that stands for 1: the group of digit 1 last, zero-digit groups before it (R97). -/
def oneSeq (e : Encoding) (len : Nat) : Except FaultRec (List Group) := do
  let one ← encDigit e 1
  return List.replicate (len - 1) (zeroGroup e) ++ [one]

/-- Whether the negative path adds 1: always under BCD (R97), under Excess-3 only with `XS3_RECOMP_INC` = 1 (R98). -/
def addsOne (inc : Bool) : Encoding → Bool
  | .bcd => true
  | .xs3 => inc

/-- Step 5, RECOMPLEMENT (R97, R98): the magnitude sequence `RM` of the negative path and the records of its second pass,
whose carry seed is 0 and whose final carry is discarded. -/
def recomplement (P : Params) (e : Encoding) (RR : List Group) : Except FaultRec (List Group × List (TraceRec P)) := do
  let K ← cmpl e false RR
  if addsOne P.xs3RecompInc e then
    let one ← oneSeq e RR.length
    let p := addg P e true K one false
    return (p.seq, p.recs)
  else return (K, [])

/-- `sub_path(n, m, enc)` (R93 to R99): the sign is read from the final carry of the first pass. -/
def subPath (P : Params) (e : Encoding) (n m : Nat) : Except FaultRec (PathOut P) := do
  let (RA, RB) ← encodeAlign P.N e n m
  let RC ← cmpl e false RB
  let p := addg P e false RA RC true
  if p.carry then
    let mag ← decn e false p.seq
    return { rr := p.seq, cf := true, mag := mag, neg := false, matchRef := matchSub n m false mag, recs := p.recs }
  else
    let (RM, recs2) ← recomplement P e p.seq
    let mag ← decn e false RM
    return { rr := p.seq, cf := false, mag := mag, neg := true, matchRef := matchSub n m true mag
             recs := p.recs ++ recs2 }

/-- What ADD and SUB write (30_encoding.md R44), in the terminal phase `ph` (R92, R106). -/
def PathOut.results (p : PathOut P) (ph : Phase) (trace : List (TraceRec P)) : Results P :=
  { ph := ph, ra := some (packSeq p.rr), mag := some (BitVec.ofNat P.RW p.mag), neg := some p.neg
    cout := some p.cf, matchRef := some p.matchRef, trace := trace }

/-- ADD (R89, R90): ends in DONE, not in DONE_POSITIVE (R106). -/
def addFn (e : Encoding) (t : Bool) (o : Operands P) : Except FaultRec (Results P) := do
  let p ← addPath P e o.na.toNat o.nb.toNat
  return p.results .done (emitted t p.recs)

/-- SUB (R100, R101): ends in DONE_POSITIVE when the final carry is 1, in DONE_NEGATIVE when it is 0 (R92). -/
def subFn (e : Encoding) (t : Bool) (o : Operands P) : Except FaultRec (Results P) := do
  let p ← subPath P e o.na.toNat o.nb.toNat
  return p.results (if p.cf then .donePositive else .doneNegative) (emitted t p.recs)

/-- ADD.B (R89). -/
def execAddB (t : Bool) (s : State) : Host.Outcome State Fault Refusal := s.transact .align (addFn .bcd t)

/-- ADD.X (R90). -/
def execAddX (t : Bool) (s : State) : Host.Outcome State Fault Refusal := s.transact .align (addFn .xs3 t)

/-- SUB.B (R100). -/
def execSubB (t : Bool) (s : State) : Host.Outcome State Fault Refusal := s.transact .align (subFn .bcd t)

/-- SUB.X (R101). -/
def execSubX (t : Bool) (s : State) : Host.Outcome State Fault Refusal := s.transact .align (subFn .xs3 t)

end Sys2Proof.Machine
end

