-- ==== Sys2Proof/Machine/Dispatch.lean ====
section
/-! DEFINITION. The meaning of each instruction, by its constructor. -/

namespace Sys2Proof.Machine

def exec (i : Instr) (s : State) : Host.Outcome State Fault Refusal :=
  match i with
  | .encdB t => Sys2Proof.Machine.execEncdB t s
  | .encdX t => Sys2Proof.Machine.execEncdX t s
  | .decdB t => Sys2Proof.Machine.execDecdB t s
  | .decdX t => Sys2Proof.Machine.execDecdX t s
  | .encnB t => Sys2Proof.Machine.execEncnB t s
  | .encnX t => Sys2Proof.Machine.execEncnX t s
  | .decnB t => Sys2Proof.Machine.execDecnB t s
  | .decnX t => Sys2Proof.Machine.execDecnX t s
  | .padB t => Sys2Proof.Machine.execPadB t s
  | .padX t => Sys2Proof.Machine.execPadX t s
  | .algnB t => Sys2Proof.Machine.execAlgnB t s
  | .algnX t => Sys2Proof.Machine.execAlgnX t s
  | .addgB t => Sys2Proof.Machine.execAddgB t s
  | .addgX t => Sys2Proof.Machine.execAddgX t s
  | .cmplB t => Sys2Proof.Machine.execCmplB t s
  | .cmplX t => Sys2Proof.Machine.execCmplX t s
  | .addB t => Sys2Proof.Machine.execAddB t s
  | .addX t => Sys2Proof.Machine.execAddX t s
  | .subB t => Sys2Proof.Machine.execSubB t s
  | .subX t => Sys2Proof.Machine.execSubX t s

end Sys2Proof.Machine
end

