-- ==== Sys2Proof/Machine/Phases.lean ====
section
/-! DEFINITION. The phase view of every command (00_scope.md R9; 45_add_sub.md R92, R106): one clock edge at which something
happens is one step, the phase register sequences the working registers, and an adder pass takes its positions one by one
through `cy` and `di` (10_state.md R17). -/

namespace Sys2Proof.Machine

open Sys2Proof.Config

variable {P : Params}

/-! ### The adder pass, position by position (43_adder.md R68) -/

/-- The registers of an adder pass: `cy`, `di`, the groups written so far, and the records emitted so far. -/
structure PassRegs (P : Params) where
  cy : Bool
  di : Fin P.LMAX
  seq : List Group
  recs : List (TraceRec P)
  deriving DecidableEq, Repr

/-- Position `i` of a pass over `A` and `B`: reads the two groups at the position and `cy`, writes one result group, `cy` and
`di`, and emits one record. -/
def digitStep (e : Encoding) (pass : Bool) (A B : List Group) (i : Nat) (r : PassRegs P) : PassRegs P :=
  let a := A.getD i 0
  let b := B.getD i 0
  let d := addDigit e a b r.cy
  { cy := d.cout, di := Fin.ofNat P.LMAX i, seq := d.fixed :: r.seq, recs := r.recs ++ [traceRec pass i a b r.cy d] }

/-- The positions below `k`, from `k - 1` down to 0. -/
def passLoop (e : Encoding) (pass : Bool) (A B : List Group) : Nat → PassRegs P → PassRegs P
  | 0, r => r
  | i + 1, r => passLoop e pass A B i (digitStep e pass A B i r)

/-- A pass with carry seed `c0`, from position `len - 1` down to 0; `di` is where an earlier pass left it. -/
def runPass (e : Encoding) (pass : Bool) (A B : List Group) (c0 : Bool) (di : Fin P.LMAX) : PassRegs P :=
  passLoop e pass A B A.length { cy := c0, di := di, seq := [], recs := [] }

/-! ### The sampled command (10_state.md R16) -/

/-- The encoding of the command in flight. -/
def Block.cwEnc (s : Block P) : Encoding := (splitWord s.cwQ).e

/-- The trace bit of the command in flight. -/
def Block.cwTrace (s : Block P) : Bool := (splitWord s.cwQ).t

/-- Whether the command in flight is SUB; in the phases of R92 and R106 that ADD shares, it is ADD otherwise. -/
def Block.cwIsSub (s : Block P) : Bool := Op.ofCode (splitWord s.cwQ).op == some .sub

/-- The function of a command (00_scope.md R8). -/
def commandFn (i : Instr) (o : Operands P) : Except FaultRec (Results P) :=
  match i.op with
  | .encd => encdFn i.enc o
  | .decd => decdFn i.enc o
  | .encn => encnFn i.enc o
  | .decn => decnFn i.enc o
  | .pad => padFn i.enc o
  | .algn => algnFn i.enc o
  | .addg => addgFn i.enc i.traceBit o
  | .cmpl => cmplFn i.enc o
  | .add => addFn i.enc i.traceBit o
  | .sub => subFn i.enc i.traceBit o

/-- The phase that an accepted `start` enters (45_add_sub.md R92, R106). -/
def firstPhase : Op → Phase
  | .add | .sub => .align
  | .encd | .decd | .encn | .decn | .pad | .algn | .addg | .cmpl => .exec

/-! ### The actions of the phases -/

/-- EXEC (R106): the command's rule, with its outputs or its fault. -/
def execPhase (s : Block P) : Block P :=
  match decodeWord s.cwQ with
  | .ok i => s.settle (commandFn i s.opsQ)
  | .error _ => s.takeFault illegalFault

/-- ALIGN (R93): encode and align; to COMPLEMENT for SUB, to ADD for ADD. -/
def alignPhase (s : Block P) : Block P :=
  match encodeAlign P.N s.cwEnc s.opsQ.na.toNat s.opsQ.nb.toNat with
  | .ok (RA, RB) =>
    { s with work := { s.work with ra := RA, rb := RB }, ph := if s.cwIsSub then .complement else .add }
  | .error f => s.takeFault f

/-- COMPLEMENT (R94): `RC <- cmpl(RB, enc)`. -/
def complementPhase (s : Block P) : Block P :=
  match cmpl s.cwEnc false s.work.rb with
  | .ok RC => { s with work := { s.work with rc := RC }, ph := .add }
  | .error f => s.takeFault f

/-- The state after an adder pass has written `RR`, `cf`, `cy`, `di` and emitted its records. -/
def Block.firstPass (s : Block P) (r : PassRegs P) : Block P :=
  { s with
    work := { s.work with rr := r.seq, cf := r.cy, cy := r.cy, di := r.di }
    out := { s.out with trace := s.out.trace ++ emitted s.cwTrace r.recs } }

/-- The end of ADD, from `RR` and `cf` (R106). -/
def addResults (s : Block P) : Except FaultRec (Results P) := do
  let mag ← decn s.cwEnc false s.work.rr
  let p : PathOut P :=
    { rr := s.work.rr, cf := s.work.cf, mag := mag, neg := false
      matchRef := matchAdd s.opsQ.na.toNat s.opsQ.nb.toNat mag, recs := [] }
  return p.results .done s.out.trace

/-- ADD: the first adder pass, of `RA` and `RC` with seed 1 for SUB (R95), of `RA` and `RB` with seed 0 for ADD, which ends
here (R106). -/
def addPhase (s : Block P) : Block P :=
  if s.cwIsSub then
    { s.firstPass (runPass s.cwEnc false s.work.ra s.work.rc true s.work.di) with ph := .interpret }
  else
    let s1 := s.firstPass (runPass s.cwEnc false s.work.ra s.work.rb false s.work.di)
    s1.settle (addResults s1)

/-- The end of SUB (R96, R99), from the magnitude sequence `E`. -/
def subResults (s : Block P) (neg : Bool) (E : List Group) : Except FaultRec (Results P) := do
  let mag ← decn s.cwEnc false E
  let p : PathOut P :=
    { rr := s.work.rr, cf := s.work.cf, mag := mag, neg := neg
      matchRef := matchSub s.opsQ.na.toNat s.opsQ.nb.toNat neg mag, recs := [] }
  return p.results (if neg then .doneNegative else .donePositive) s.out.trace

/-- INTERPRET (R96): the one branch, on `cf`. -/
def interpretPhase (s : Block P) : Block P :=
  if s.work.cf then s.settle (subResults s false s.work.rr) else { s with ph := .recomplement }

/-- The state after `RM` has been written, by a second pass over `K` and the one-sequence (R97; R98 with
`XS3_RECOMP_INC` = 1) or by the complement alone (R98 with 0). -/
def Block.magnitudePass (s : Block P) (K one : List Group) : Block P :=
  if addsOne P.xs3RecompInc s.cwEnc then
    let r := runPass s.cwEnc true K one false s.work.di
    { s with
      work := { s.work with rm := r.seq, cy := r.cy, di := r.di }
      out := { s.out with trace := s.out.trace ++ emitted s.cwTrace r.recs } }
  else { s with work := { s.work with rm := K } }

/-- RECOMPLEMENT (R97, R98, R99). -/
def recomplementPhase (s : Block P) : Block P :=
  match cmpl s.cwEnc false s.work.rr, oneSeq s.cwEnc s.work.rr.length with
  | .ok K, .ok one =>
    let s1 := s.magnitudePass K one
    s1.settle (subResults s1 true s1.work.rm)
  | .error f, _ => s.takeFault f
  | .ok _, .error f => s.takeFault f

/-- One phase step (R92, R106).  In IDLE and in the terminal phases there is none. -/
def phaseStep (s : Block P) : Block P :=
  match s.ph with
  | .exec => execPhase s
  | .align => alignPhase s
  | .complement => complementPhase s
  | .add => addPhase s
  | .interpret => interpretPhase s
  | .recomplement => recomplementPhase s
  | .idle | .donePositive | .doneNegative | .done | .fault => s

/-- The `start` edge of the phase view (R92, R106; 70_reset_and_hazards.md R129). -/
def Block.startEdge (s : Block P) : Block P :=
  match decode s.fetch with
  | .ok (i, _) => s.accept (firstPhase i.op)
  | .error _ => s.rejectCommand

/-- One edge of the phase view: reset wins (R124), a block that is busy takes its next phase step and ignores `start` (R129),
a block that is not busy accepts `start`, and otherwise everything is held (10_state.md R14). -/
def edge (s : Block P) : Block P :=
  if s.pins.rst then s.resetEdge
  else if s.busy then phaseStep s
  else if s.pins.start then s.startEdge
  else s

end Sys2Proof.Machine
end

