-- ==== Sys2Proof/Machine/Step.lean ====
section
/-! DEFINITION. The step of the machine, with a whole transaction as one step (70_reset_and_hazards.md R135). -/

namespace Sys2Proof.Machine

/-- One step.  `rst` gives the reset state, whatever the phase (R124, R126).  A block that is busy takes its next phase step
and ignores `start` (R129).  A block that is not busy accepts `start`: the command word is decoded and the whole transaction
runs; a word that selects no instruction is an IllegalCommand (60_exceptions.md R113).  Otherwise everything is held
(10_state.md R14). -/
def step (s : State) : Host.Outcome State Fault Refusal :=
  if s.block.pins.rst then .next ⟨s.params, s.block.resetEdge⟩
  else if s.block.busy then .next ⟨s.params, phaseStep s.block⟩
  else if s.block.pins.start then
    match decode s.block.fetch with
    | .ok (i, _) => exec i s
    | .error _ => .next ⟨s.params, s.block.rejectCommand⟩
  else .next s

/-- The host presents the command word `w` with `start` = 1 and `rst` = 0 to a block that is not busy (a busy one is put in
IDLE), so that the next step runs it.  The operand ports stay as they are. -/
def Block.withFetchWord {P : Config.Params} (s : Block P) (nbits w : Nat) : Block P :=
  { s with
    ph := if s.busy then .idle else s.ph
    pins := { s.pins with rst := false, start := true, cw := tableByte nbits w } }

/-- The same on the host's state. -/
def State.withFetchWord (s : State) (nbits w : Nat) : State := ⟨s.params, s.block.withFetchWord nbits w⟩

end Sys2Proof.Machine
end

