-- ==== Sys2Proof/Safety.lean ====
section
/-! DEFINITION. The terms in which statements about the block are made: the decimal meaning of groups and sequences, how a
transaction ends, what it reads and writes, and the invariant of the phase machine. -/

namespace Sys2Proof.Safety

open Sys2Proof.Config Sys2Proof.Machine

variable {P : Params}

/-! ### Decimal meaning (10_state.md R10 to R12, 30_encoding.md R35 to R38) -/

/-- A valid group: 0..9 under BCD, 3..12 under Excess-3; the other six of each encoding are malformed (R38). -/
def validGroup : Encoding → Group → Bool
  | .bcd, g => decide (g.toNat ≤ 9)
  | .xs3, g => decide (3 ≤ g.toNat) && decide (g.toNat ≤ 12)

/-- The digit of a valid group. -/
def digitOf : Encoding → Group → Nat
  | .bcd, g => g.toNat
  | .xs3, g => g.toNat - 3

/-- The group of a digit, as the tables of R35 and R36 list it. -/
def groupOf (e : Encoding) (d : Nat) : Group :=
  match e with
  | .bcd => [0b0000, 0b0001, 0b0010, 0b0011, 0b0100, 0b0101, 0b0110, 0b0111, 0b1000, 0b1001].getD d 0
  | .xs3 => [0b0011, 0b0100, 0b0101, 0b0110, 0b0111, 0b1000, 0b1001, 0b1010, 0b1011, 0b1100].getD d 0

/-- Every group of a sequence is valid. -/
def AllValid (e : Encoding) (E : List Group) : Prop := ∀ g ∈ E, validGroup e g = true

/-- The decimal value of a sequence of valid groups, most significant digit first (41_number_codec.md R57). -/
def seqValue (e : Encoding) (E : List Group) : Nat := Nat.ofDigits 10 (E.reverse.map (digitOf e))

/-- The digits of `n` in base 10, leading digit first, without leading zeros; the one digit 0 for `n = 0` (R54). -/
def canonicalDigits (n : Nat) : List Nat := if n = 0 then [0] else (Nat.digits 10 n).reverse

/-- A sequence without its leading zero-digit groups, all but one if it is all zeros (41_number_codec.md R60). -/
def withoutLeadingZeros (e : Encoding) : List Group → List Group
  | [] => []
  | [g] => [g]
  | g :: h :: gs => if g = groupOf e 0 then withoutLeadingZeros e (h :: gs) else g :: h :: gs

/-- A port holds a sequence: its length, its groups in the places R28 gives them, and 0 above them. -/
def PortHolds (p : EncPort P) (E : List Group) : Prop :=
  p.len.toNat = E.length ∧
  (∀ k, k < E.length → p.grp.extractLsb' (4 * (E.length - 1 - k)) 4 = E.getD k 0) ∧
  p.grp.toNat < 16 ^ E.length

/-! ### The digit rules in closed form (43_adder.md R70, R71) -/

/-- The carry out of a position with raw sum `raw`. -/
def closedCarry : Encoding → Nat → Bool
  | .bcd, raw => decide (raw > 9)
  | .xs3, raw => decide (raw > 15)

/-- The group a position with raw sum `raw` emits: `(raw + 6·c_out) mod 16` under BCD, `(raw - 3 + 6·c_out) mod 16` under
Excess-3 (13 is -3 modulo 16). -/
def closedFixed (e : Encoding) (raw : Nat) : Group :=
  match e with
  | .bcd => BitVec.ofNat 4 (raw + 6 * (closedCarry .bcd raw).toNat)
  | .xs3 => BitVec.ofNat 4 (raw + 13 + 6 * (closedCarry .xs3 raw).toNat)

/-- The correction a position with raw sum `raw` applies (43_adder.md R78; 95_test_vectors.md section 2.10). -/
def closedCorr : Encoding → Nat → Corr
  | .bcd, raw => if raw > 9 then .plus6 else .none
  | .xs3, raw => if raw > 15 then .plus3 else .minus3

/-- The raw sum at position `i` of `A` and `B` with carry in `c`. -/
def rawAt (A B : List Group) (c : Bool) (i : Nat) : Nat := (A.getD i 0).toNat + (B.getD i 0).toNat + c.toNat

/-- `R` and `cout` come out of one adder pass over `A`, `B` with carry seed `c0`, by the carries `cs`: `cs i` is the carry out
of position `i`, and the carry into it comes from the position to its right (43_adder.md R68, R72). -/
def IsPass (e : Encoding) (A B : List Group) (c0 : Bool) (R : List Group) (cout : Bool) (cs : List Bool) : Prop :=
  R.length = A.length ∧ cs.length = A.length + 1 ∧ cs.getD A.length false = c0 ∧ cs.getD 0 false = cout ∧
  ∀ i, i < A.length →
    cs.getD i false = closedCarry e (rawAt A B (cs.getD (i + 1) false) i) ∧
    R.getD i 0 = closedFixed e (rawAt A B (cs.getD (i + 1) false) i)

/-- The trace record of position `i` of such a pass (43_adder.md R78). -/
def recordAt (P : Params) (e : Encoding) (pass : Bool) (A B : List Group) (cs : List Bool) (i : Nat) : TraceRec P :=
  let raw := rawAt A B (cs.getD (i + 1) false) i
  { pass := pass, pos := BitVec.ofNat P.LW i, a := A.getD i 0, b := B.getD i 0, cin := cs.getD (i + 1) false
    raw := BitVec.ofNat 5 raw, bcarry := decide (raw > 15), corr := closedCorr e raw, fixed := closedFixed e raw
    cout := closedCarry e raw }

/-- The records of such a pass, from position `L - 1` down to 0. -/
def passRecords (P : Params) (e : Encoding) (pass : Bool) (A B : List Group) (cs : List Bool) : List (TraceRec P) :=
  (List.range A.length).reverse.map (recordAt P e pass A B cs)

/-- One adder pass over `A` and `B` with seed `c0`: its result `R`, its final carry and its records. -/
def PassOf (e : Encoding) (pass : Bool) (A B : List Group) (c0 : Bool) (R : List Group) (cout : Bool)
    (recs : List (TraceRec P)) : Prop :=
  ∃ cs, IsPass e A B c0 R cout cs ∧ recs = passRecords P e pass A B cs

/-! ### The sequences ADD and SUB work on (45_add_sub.md R93, R94, R97) -/

/-- The length both operands are aligned to: one more than the longer one (42_aligner.md R64). -/
def alignedLen (n m : Nat) : Nat := max (canonicalDigits n).length (canonicalDigits m).length + 1

/-- The digits of `n` as groups, behind zero-digit groups up to length `L`. -/
def operandSeq (e : Encoding) (L n : Nat) : List Group :=
  List.replicate (L - (canonicalDigits n).length) (groupOf e 0) ++ (canonicalDigits n).map (groupOf e)

/-- The nines complement, digit `d` to `9 - d`, on valid groups (44_complement.md R81, R82). -/
def ninesOf (e : Encoding) (E : List Group) : List Group := E.map (fun g => groupOf e (9 - digitOf e g))

/-! ### Sequences of command words (30_encoding.md R46; 20_memory.md R32, R34) -/

/-- What a host's command words, presented one by one, decode to. -/
def decodeAll : List CmdWord → Except Reject (List Instr)
  | [] => .ok []
  | w :: ws => do
    let (i, _) ← decode [w]
    let is ← decodeAll ws
    return i :: is

/-! ### How a transaction ends -/

/-- The row of the opcode table an instruction stands in: its word under the mask 0xDF (30_encoding.md R42). -/
def HasMatch (i : Instr) (m : CmdWord) : Prop := encodeWord i &&& 0xDF = m

/-- The transaction from `s` ended without a fault in phase `ph` in state `t`.  The frame: the pins are the host's and
are unchanged; the fault registers read 0; every other register of the block is either written by the command or unspecified
after it (10_state.md R18, R22). -/
def Ended (s t : Block P) (ph : Phase) : Prop :=
  t.ph = ph ∧ t.err = ⟨0, false, 0⟩ ∧ t.pins = s.pins

/-- The transaction from `s` ended in FAULT in state `t`, with the given record (60_exceptions.md R115, R116). -/
def Faulted (s t : Block P) (code : BitVec 4) (opnd : Bool) (idx : Nat) : Prop :=
  t.ph = .fault ∧ t.errValid = true ∧ t.done = true ∧ t.busy = false ∧
  t.err.code = code ∧ t.err.opnd = opnd ∧ t.err.idx.toNat = idx ∧ t.pins = s.pins

/-- A sequence length the hardware can hold (60_exceptions.md R114). -/
def LegalLen (p : EncPort P) : Prop := 1 ≤ p.len.toNat ∧ p.len.toNat ≤ P.LMAX

/-- `k` is the lowest index of a malformed group of `E`. -/
def FirstMalformed (e : Encoding) (E : List Group) (k : Nat) : Prop :=
  k < E.length ∧ validGroup e (E.getD k 0) = false ∧ ∀ j, j < k → validGroup e (E.getD j 0) = true

/-! ### What a command reads and writes (30_encoding.md R43, R44)

These compare two blocks, which may have been built with different parameters, by the numbers on their wires. -/

/-- Two ports present the same sequence, whatever stands above it (20_memory.md R28). -/
def SamePort {P Q : Params} (p : EncPort P) (q : EncPort Q) : Prop := p.len.toNat = q.len.toNat ∧ p.groups = q.groups

/-- The operands agree on what the operation reads (30_encoding.md R43). -/
def SameOperands {P Q : Params} (op : Op) (a : Operands P) (b : Operands Q) : Prop :=
  match op with
  | .encd | .decd => a.x4 = b.x4
  | .encn => a.na.toNat = b.na.toNat
  | .decn | .cmpl => SamePort a.ea b.ea
  | .pad | .algn => SamePort a.ea b.ea ∧ SamePort a.eb b.eb
  | .addg => SamePort a.ea b.ea ∧ SamePort a.eb b.eb ∧ a.c0 = b.c0
  | .add | .sub => a.na.toNat = b.na.toNat ∧ a.nb.toNat = b.nb.toNat

/-- Two output ports read the same in every bit. -/
def EqualPort {P Q : Params} (p : EncPort P) (q : EncPort Q) : Prop :=
  p.len.toNat = q.len.toNat ∧ p.grp.toNat = q.grp.toNat

/-- The outputs agree on what the operation writes, the trace apart (30_encoding.md R44). -/
def SameOutputs {P Q : Params} (op : Op) (a : Outputs P) (b : Outputs Q) : Prop :=
  match op with
  | .encd | .decd => a.rX4 = b.rX4
  | .encn | .cmpl => EqualPort a.ra b.ra
  | .decn => a.mag.toNat = b.mag.toNat ∧ a.neg = b.neg
  | .pad | .algn => EqualPort a.ra b.ra ∧ EqualPort a.rb b.rb
  | .addg => EqualPort a.ra b.ra ∧ a.cout = b.cout
  | .add | .sub =>
    EqualPort a.ra b.ra ∧ a.mag.toNat = b.mag.toNat ∧ a.neg = b.neg ∧ a.cout = b.cout ∧ a.matchRef = b.matchRef

/-- The fault registers agree. -/
def SameErr {P Q : Params} (a : ErrRegs P) (b : ErrRegs Q) : Prop :=
  a.code = b.code ∧ a.opnd = b.opnd ∧ a.idx.toNat = b.idx.toNat

/-- Two transactions of one operation end the same way, the trace apart: the phase, the fault registers, and, where there is
no fault, every output the operation writes. -/
def SameEnd {P Q : Params} (op : Op) (t : Block P) (u : Block Q) : Prop :=
  t.ph = u.ph ∧ SameErr t.err u.err ∧ (t.ph ≠ .fault → SameOutputs op t.out u.out)

/-- The fault codes an instruction can end with (60_exceptions.md R122). -/
def possibleFaults (i : Instr) : List (BitVec 4) :=
  match i.op, i.enc with
  | .encd, _ | .encn, _ | .add, _ | .sub, _ => [0x2]
  | .decd, _ => [0x1]
  | .decn, _ | .cmpl, .bcd => [0x5, 0x1]
  | .pad, _ | .algn, _ | .addg, _ | .cmpl, .xs3 => [0x5]

/-! ### The phase machine -/

/-- The phases that one phase step can reach from a phase (45_add_sub.md R92, R106). -/
def nextPhases : Phase → List Phase
  | .exec => [.done, .fault]
  | .align => [.complement, .add, .fault]
  | .complement => [.add]
  | .add => [.interpret, .done]
  | .interpret => [.donePositive, .recomplement]
  | .recomplement => [.doneNegative]
  | .idle | .donePositive | .doneNegative | .done | .fault => []

/-- The command in flight is `op` under `e` with trace bit `t`. -/
def InFlight (s : Block P) (op : Op) (e : Encoding) (t : Bool) : Prop := decodeWord s.cwQ = .ok (instrOf op e t)

/-- `RA` and `RB` hold the aligned operands (10_state.md R17; 45_add_sub.md R93). -/
def Aligned (s : Block P) (e : Encoding) : Prop :=
  encodeAlign P.N e s.opsQ.na.toNat s.opsQ.nb.toNat = .ok (s.work.ra, s.work.rb)

/-- `RC`, `RR`, `cf` and the trace after the first pass of SUB (45_add_sub.md R94, R95). -/
def FirstPassDone (s : Block P) (e : Encoding) (t : Bool) : Prop :=
  cmpl e false s.work.rb = .ok s.work.rc ∧
  s.work.rr = (addg P e false s.work.ra s.work.rc true).seq ∧
  s.work.cf = (addg P e false s.work.ra s.work.rc true).carry ∧
  s.out.trace = emitted t (addg P e false s.work.ra s.work.rc true).recs

/-- What the registers hold in each phase: each working register holds what R17's table says once its phase has written it,
and the flags hold what the terminal phases stand for. -/
def PhaseOk (s : Block P) : Prop :=
  match s.ph with
  | .idle => s.out.neg = false ∧ s.out.cout = false ∧ s.out.matchRef = false
  | .exec => (∃ op e t, InFlight s op e t ∧ firstPhase op = .exec) ∧ s.out.trace = []
  | .align => (∃ op e t, InFlight s op e t ∧ firstPhase op = .align) ∧ s.out.trace = []
  | .complement => (∃ e t, InFlight s .sub e t ∧ Aligned s e) ∧ s.out.trace = []
  | .add =>
    (∃ e t, Aligned s e ∧
      (InFlight s .add e t ∨ (InFlight s .sub e t ∧ cmpl e false s.work.rb = .ok s.work.rc))) ∧ s.out.trace = []
  | .interpret => ∃ e t, InFlight s .sub e t ∧ Aligned s e ∧ FirstPassDone s e t
  | .recomplement => ∃ e t, InFlight s .sub e t ∧ Aligned s e ∧ FirstPassDone s e t ∧ s.work.cf = false
  | .donePositive => s.out.neg = false ∧ s.out.cout = true ∧ s.out.matchRef = true
  | .doneNegative => s.out.neg = true ∧ s.out.cout = false
  | .done | .fault => True

/-- The fault registers: 0 outside FAULT, one of the four codes that are produced in FAULT, an index only for
InvalidDigitGroup and then below LMAX, and the second operand only for InputOutOfRange and LengthViolation
(10_state.md R19; 60_exceptions.md R108, R116). -/
def ErrOk (s : Block P) : Prop :=
  if s.ph = .fault then
    s.err.code ∈ [(0x1 : BitVec 4), 0x2, 0x4, 0x5] ∧ (s.err.code ≠ 0x1 → s.err.idx = 0) ∧ s.err.idx.toNat < P.LMAX ∧
    (s.err.opnd = true → s.err.code ∈ [(0x2 : BitVec 4), 0x5])
  else s.err = ⟨0, false, 0⟩

/-- The invariant of the machine. -/
def Inv (s : Block P) : Prop := PhaseOk s ∧ ErrOk s

end Sys2Proof.Safety
end

