-- ==== Sys2Proof/Certificates/Slice0/Obligations.lean ====
section
/-! DEFINITION. The statements for the provers.  They come from the numbered rules of spec/; each docstring names the rules.

A statement holds for every choice `P` of the parameters of 00_scope.md R4 and every state `s` of a block built with them;
`exec i ⟨P, s⟩ = .next ⟨P, t⟩` says also that the parameters do not change.

The frame of every command is the same, and `Ended` and `Faulted` state it: the pins are unchanged, the fault
registers are what the rules say; the block has no memory and no register file (10_state.md R20, 20_memory.md R25), and every
other register is either written by the command or unspecified after it (10_state.md R18, R22), so nothing more can be said to
be unchanged. -/

open Sys2Proof Sys2Proof.Config Sys2Proof.Machine Sys2Proof.Safety

/-! ### Encoding (30_encoding.md) -/

/-- R39, R46: decoding the word of an instruction gives the instruction back, whatever words follow. -/
def Obligations.DecodeOfEncodeIsTheInstr : Prop :=
  ∀ (i : Instr) (rest : List CmdWord), i.wf = true → decode (encode i ++ rest) = .ok (i, rest)

/-- R39, R46: a word that decodes is the word of the instruction it decodes to, so no bit of a legal word is dropped. -/
def Obligations.EncodeOfDecodeIsTheWord : Prop :=
  ∀ (w : CmdWord) (i : Instr), decodeWord w = .ok i → encodeWord i = w

/-- R39, R46: the words of any sequence of instructions, presented one by one, decode to that sequence, and a sequence of words
that decodes is the words of what it decodes to: every word is one instruction, whatever stands before or after it. -/
def Obligations.WordSequencesRoundTrip : Prop :=
  ∀ (ws : List CmdWord) (is : List Instr), decodeAll ws = .ok is ↔ (∀ i ∈ is, i.wf = true) ∧ ws = is.flatMap encode

/-- R45: exactly the words with `RSV` = 00 and `OP` in 0x1..0xA select an instruction; they are 40 of the 256. -/
def Obligations.LegalWordsAreForty : Prop :=
  (∀ w : CmdWord, (∃ i, decodeWord w = .ok i) ↔ w.toNat / 64 = 0 ∧ 1 ≤ w.toNat % 16 ∧ w.toNat % 16 ≤ 10) ∧
  ((List.range 256).map (BitVec.ofNat 8)).countP (fun w => (decodeWord w).isOk) = 40

/-- 95_test_vectors.md section 2.9: a few words, written out bit by bit from R39 and R40, decode to their instructions. -/
def Obligations.WrittenWordsDecode : Prop :=
  decode [0b00000001] = .ok (.encdB false, []) ∧ decode [0b00010010] = .ok (.decdX false, []) ∧
  decode [0b00100011] = .ok (.encnB true, []) ∧ decode [0b00110100] = .ok (.decnX true, []) ∧
  decode [0b00000101] = .ok (.padB false, []) ∧ decode [0b00010110] = .ok (.algnX false, []) ∧
  decode [0b00000111] = .ok (.addgB false, []) ∧ decode [0b00011000] = .ok (.cmplX false, []) ∧
  decode [0b00001001] = .ok (.addB false, []) ∧ decode [0b00111010] = .ok (.subX true, []) ∧
  decode [0b00001011] = .error (.reservedOp 0xB) ∧ decode [0b01001001] = .error (.reservedBits 0b01)

/-- R28: a sequence of 1 to LMAX groups sits right-aligned on an output port, with 0 above it, and an input port presents
exactly the sequence that sits on it, whatever stands above. -/
def Obligations.PortPackingIsRightAligned : Prop :=
  ∀ P : Params,
  (∀ E : List Group, 1 ≤ E.length → E.length ≤ P.LMAX →
    PortHolds (packSeq E : EncPort P) E ∧ (packSeq E : EncPort P).groups = E) ∧
  (∀ p : EncPort P, p.groups.length = p.len.toNat ∧
    ∀ k, k < p.len.toNat → p.groups.getD k 0 = p.grp.extractLsb' (4 * (p.len.toNat - 1 - k)) 4)

/-! ### The step, the start protocol, reset -/

/-- A step runs the decoded instruction: when the block is not busy, `rst` = 0 and `start` = 1, and the word on `cw` decodes
to `i`, the step is exactly `exec i` (R129, R135); nothing is added around it. -/
def Obligations.StepRunsTheDecodedInstr : Prop :=
  ∀ (P : Params) (s : Block P) (i : Instr) (rest : List CmdWord), s.pins.rst = false → s.busy = false → s.pins.start = true →
    decode s.fetch = .ok (i, rest) → step ⟨P, s⟩ = exec i ⟨P, s⟩

/-- R113: a `start` with `RSV` ≠ 00, or with `OP` 0x0 or 0xB..0xF, is an IllegalCommand, recorded with operand 0 and index 0,
whatever the operands are; in both views. -/
def Obligations.ReservedWordRaisesIllegalCommand : Prop :=
  ∀ (P : Params) (s : Block P), s.pins.rst = false → s.busy = false → s.pins.start = true →
    (s.pins.cw.toNat / 64 ≠ 0 ∨ s.pins.cw.toNat % 16 = 0 ∨ 11 ≤ s.pins.cw.toNat % 16) →
    ∃ t, step ⟨P, s⟩ = .next ⟨P, t⟩ ∧ Faulted s t 0x4 false 0 ∧ Faulted s (edge s) 0x4 false 0

/-- R16, R130: at `start` the command word and every operand port are sampled, and afterwards a change on the pins has no
effect on the transaction: a phase step commutes with it.  That it has none on the outputs the spec leaves unspecified either is
the model's choice (log entries 7, 9, 10). -/
def Obligations.InputsAreSampledAtStartOnly : Prop :=
  ∀ P : Params,
  (∀ s : Block P, s.pins.rst = false → s.busy = false → s.pins.start = true → (decodeWord s.pins.cw).isOk = true →
    (edge s).busy = true ∧ (edge s).cwQ = s.pins.cw ∧ (edge s).opsQ = s.pins.ops) ∧
  (∀ (s : Block P) (p : Pins P), s.busy = true → s.pins.rst = false → p.rst = false →
    edge (s.drive p) = (edge s).drive p)

/-- R129: a `start` at an edge at which `busy` = 1 starts nothing, changes nothing and is not remembered.  That
the outputs the spec leaves unspecified are the same too is the model's choice (log entries 7, 9, 10). -/
def Obligations.StartWhileBusyIsIgnored : Prop :=
  ∀ (P : Params) (s : Block P) (b : Bool), s.busy = true →
    edge (s.drive { s.pins with start := b }) = (edge s).drive { s.pins with start := b } ∧
    ∀ t, step ⟨P, s⟩ = .next ⟨P, t⟩ →
      step ⟨P, s.drive { s.pins with start := b }⟩ = .next ⟨P, t.drive { s.pins with start := b }⟩

/-- R124, R126: an edge with `rst` = 1 gives the reset state, whatever the block was doing and whatever `start` is: `ph` IDLE,
`busy`, `done`, `err_valid`, the fault registers, the flags and `status` 0.  The last clause is the model's choice, not the
spec's: it equates whole states, so also the outputs and registers that R22 leaves unspecified, and rests on the free values the
model names there (log entries 8, 9, 10).  Two blocks that differ in anything but the pins and the model's counter are equal
after such an edge, so nothing of an abandoned transaction remains. -/
def Obligations.ResetEdgeGivesTheResetState : Prop :=
  ∀ (P : Params) (s : Block P), s.pins.rst = true →
    (∃ t, step ⟨P, s⟩ = .next ⟨P, t⟩ ∧ edge s = t ∧ t.ph = .idle ∧ t.busy = false ∧ t.done = false ∧ t.errValid = false ∧
      t.err = ⟨0, false, 0⟩ ∧ t.out.matchRef = false ∧ t.out.neg = false ∧ t.out.cout = false ∧ t.status = 0x00 ∧
      t.pins = s.pins) ∧
    ∀ s' : Block P, s'.pins = s.pins → s'.fresh = s.fresh → edge s' = edge s

/-- R22, the values it gives: IDLE, all control outputs, fault registers and flags 0; for every choice of the parameters.  The
machine's own reset state is that of a block with R4's defaults.  Of the fields whose value at reset is the model's choice (log
entries 3, 8, 9, 10) nothing is stated. -/
def Obligations.ResetStateHasTheStatedValues : Prop :=
  (∀ P : Params,
    (Block.reset P).ph = .idle ∧ (Block.reset P).busy = false ∧ (Block.reset P).done = false ∧
    (Block.reset P).errValid = false ∧ (Block.reset P).err = ⟨0, false, 0⟩ ∧ (Block.reset P).out.matchRef = false ∧
    (Block.reset P).out.neg = false ∧ (Block.reset P).out.cout = false ∧ (Block.reset P).status = 0x00) ∧
  State.reset = ⟨Params.default, Block.reset Params.default⟩ ∧ Params.default.N = 4 ∧
  Params.default.xs3RecompInc = false ∧ Params.default.trace = false

/-- R125, R14, R119: with `rst` = 0 and `start` = 0 a block that is not busy waits, and holds its outputs and, in FAULT, the
fault registers.  That what the spec leaves unspecified is held too is the model's choice (log entries 7 to 10). -/
def Obligations.BlockWaitsForStart : Prop :=
  ∀ (P : Params) (s : Block P), s.pins.rst = false → s.busy = false → s.pins.start = false → step ⟨P, s⟩ = .next ⟨P, s⟩ ∧
    edge s = s

/-- R119: on an accepted `start` from FAULT, `err_valid` falls and `err_code`, `err_opnd`, `err_idx` return to 0; and a
transaction that ends without fault ends with them 0. -/
def Obligations.StartLeavesTheFault : Prop :=
  ∀ P : Params,
  (∀ s : Block P, s.ph = .fault → s.pins.rst = false → s.pins.start = true → (decodeWord s.pins.cw).isOk = true →
    (edge s).errValid = false ∧ (edge s).err = ⟨0, false, 0⟩ ∧ (edge s).busy = true) ∧
  (∀ (s : Block P) (i : Instr), ∃ t, exec i ⟨P, s⟩ = .next ⟨P, t⟩ ∧
    (t.ph ≠ .fault → t.errValid = false ∧ t.err = ⟨0, false, 0⟩))

/-- R21: the bits of `status`. -/
def Obligations.StatusBits : Prop :=
  ∀ (P : Params) (s : Block P),
    (s.status.getLsbD 7 = true ↔ s.ph ∈ [.exec, .align, .complement, .add, .interpret, .recomplement]) ∧
    (s.status.getLsbD 6 = true ↔ s.ph ∈ [.done, .donePositive, .doneNegative, .fault]) ∧
    (s.status.getLsbD 5 = true ↔ s.ph = .fault) ∧
    s.status.getLsbD 4 = s.out.matchRef ∧ s.status.getLsbD 3 = s.out.neg ∧ s.status.getLsbD 2 = s.out.cout ∧
    s.status.getLsbD 1 = false ∧ s.status.getLsbD 0 = false

/-- R135: every transaction ends: `exec` always answers a next state, in a terminal phase. -/
def Obligations.EveryTransactionEnds : Prop :=
  ∀ (P : Params) (i : Instr) (s : Block P), ∃ t, exec i ⟨P, s⟩ = .next ⟨P, t⟩ ∧ t.done = true ∧ t.busy = false

/-! ### Digit codec (40_digit_codec.md) -/

/-- R49, R50: ENCD.B and ENCD.X (constructors encdB, encdX). -/
def Obligations.EncdEncodesADigit : Prop :=
  (∀ t, HasMatch (.encdB t) 0x01 ∧ HasMatch (.encdX t) 0x11) ∧
  ∀ (P : Params) (e : Encoding) (t : Bool) (s : Block P),
    (s.pins.ops.x4.toNat ≤ 9 →
      ∃ u, exec (instrOf .encd e t) ⟨P, s⟩ = .next ⟨P, u⟩ ∧ Ended s u .done ∧ u.out.rX4 = groupOf e s.pins.ops.x4.toNat ∧
        u.out.trace = []) ∧
    (9 < s.pins.ops.x4.toNat → ∃ u, exec (instrOf .encd e t) ⟨P, s⟩ = .next ⟨P, u⟩ ∧ Faulted s u 0x2 false 0)

/-- R51, R52: DECD.B and DECD.X (constructors decdB, decdX). -/
def Obligations.DecdDecodesAGroup : Prop :=
  (∀ t, HasMatch (.decdB t) 0x02 ∧ HasMatch (.decdX t) 0x12) ∧
  ∀ (P : Params) (e : Encoding) (t : Bool) (s : Block P),
    (validGroup e s.pins.ops.x4 = true →
      ∃ u, exec (instrOf .decd e t) ⟨P, s⟩ = .next ⟨P, u⟩ ∧ Ended s u .done ∧ u.out.rX4.toNat = digitOf e s.pins.ops.x4 ∧
        u.out.trace = []) ∧
    (validGroup e s.pins.ops.x4 = false → ∃ u, exec (instrOf .decd e t) ⟨P, s⟩ = .next ⟨P, u⟩ ∧ Faulted s u 0x1 false 0)

/-- R53: the digit round trip, both ways, and neither call faults: a bijection of the ten digits and the ten valid groups. -/
def Obligations.DigitRoundTrip : Prop :=
  ∀ (e : Encoding) (opnd : Bool) (idx : Nat),
    (∀ d, d ≤ 9 → ∃ g, encDigit e d = .ok g ∧ validGroup e g = true ∧ decDigit e opnd idx g = .ok d) ∧
    (∀ g, validGroup e g = true → ∃ d, decDigit e opnd idx g = .ok d ∧ d ≤ 9 ∧ encDigit e d = .ok g)

/-! ### Number codec (41_number_codec.md) -/

/-- R54: `encn` for every operand bound `nmax`: the canonical base-10 digits as groups, 1 to `nmax` of them, all valid, the first
the zero-digit group only for 0; InputOutOfRange from `10^nmax` on. -/
def Obligations.EncnGivesCanonicalDigits : Prop :=
  ∀ (nmax : Nat) (e : Encoding) (opnd : Bool) (n : Nat), 1 ≤ nmax →
    (n < 10 ^ nmax → ∃ E, encn nmax e opnd n = .ok E ∧ E = (canonicalDigits n).map (groupOf e) ∧ 1 ≤ E.length ∧
      E.length ≤ nmax ∧ AllValid e E ∧ (E.head? = some (groupOf e 0) → n = 0)) ∧
    (10 ^ nmax ≤ n → encn nmax e opnd n = .error ⟨.inputOutOfRange, opnd, 0⟩)

/-- R57: `decn` is the decimal value of a valid sequence, to which leading zero-digit groups add nothing, and names the lowest
malformed index of any other. -/
def Obligations.DecnGivesTheDecimalValue : Prop :=
  ∀ (e : Encoding) (opnd : Bool) (E : List Group),
    (AllValid e E → decn e opnd E = .ok (seqValue e E) ∧ seqValue e E < 10 ^ E.length ∧
      ∀ z, decn e opnd (List.replicate z (groupOf e 0) ++ E) = .ok (seqValue e E)) ∧
    (∀ k, FirstMalformed e E k → decn e opnd E = .error ⟨.invalidDigitGroup, opnd, k⟩)

/-- R60: the round-trip contract for every operand bound, and the other direction up to leading zeros. -/
def Obligations.NumberRoundTrip : Prop :=
  ∀ (nmax : Nat) (e : Encoding) (opnd : Bool), 1 ≤ nmax →
    (∀ n, n < 10 ^ nmax → ∃ E, encn nmax e opnd n = .ok E ∧ decn e opnd E = .ok n) ∧
    (∀ E, E ≠ [] → AllValid e E → seqValue e E < 10 ^ nmax →
      ∃ n, decn e opnd E = .ok n ∧ encn nmax e opnd n = .ok (withoutLeadingZeros e E))

/-- R55, R56: ENCN.B and ENCN.X (constructors encnB, encnX). -/
def Obligations.EncnEncodesAnInteger : Prop :=
  (∀ t, HasMatch (.encnB t) 0x03 ∧ HasMatch (.encnX t) 0x13) ∧
  ∀ (P : Params) (e : Encoding) (t : Bool) (s : Block P),
    (s.pins.ops.na.toNat < 10 ^ P.N →
      ∃ u, exec (instrOf .encn e t) ⟨P, s⟩ = .next ⟨P, u⟩ ∧ Ended s u .done ∧
        PortHolds u.out.ra ((canonicalDigits s.pins.ops.na.toNat).map (groupOf e)) ∧ u.out.trace = []) ∧
    (10 ^ P.N ≤ s.pins.ops.na.toNat → ∃ u, exec (instrOf .encn e t) ⟨P, s⟩ = .next ⟨P, u⟩ ∧ Faulted s u 0x2 false 0)

/-- R58, R59: DECN.B and DECN.X (constructors decnB, decnX): the value, the length fault first, then the lowest malformed
index. -/
def Obligations.DecnDecodesASequence : Prop :=
  (∀ t, HasMatch (.decnB t) 0x04 ∧ HasMatch (.decnX t) 0x14) ∧
  ∀ (P : Params) (e : Encoding) (t : Bool) (s : Block P),
    (LegalLen s.pins.ops.ea → AllValid e s.pins.ops.ea.groups →
      ∃ u, exec (instrOf .decn e t) ⟨P, s⟩ = .next ⟨P, u⟩ ∧ Ended s u .done ∧
        u.out.mag.toNat = seqValue e s.pins.ops.ea.groups ∧ u.out.neg = false ∧ u.out.trace = []) ∧
    (¬ LegalLen s.pins.ops.ea → ∃ u, exec (instrOf .decn e t) ⟨P, s⟩ = .next ⟨P, u⟩ ∧ Faulted s u 0x5 false 0) ∧
    (∀ k, LegalLen s.pins.ops.ea → FirstMalformed e s.pins.ops.ea.groups k →
      ∃ u, exec (instrOf .decn e t) ⟨P, s⟩ = .next ⟨P, u⟩ ∧ Faulted s u 0x1 false k)

/-! ### Aligner (42_aligner.md) -/

/-- R67: the postconditions of `pad` and of `align1`. -/
def Obligations.AlignerPostconditions : Prop :=
  ∀ (e : Encoding) (A B : List Group),
    (pad e A B).1 = List.replicate (max A.length B.length - A.length) (groupOf e 0) ++ A ∧
    (pad e A B).2 = List.replicate (max A.length B.length - B.length) (groupOf e 0) ++ B ∧
    (pad e A B).1.length = max A.length B.length ∧ (pad e A B).2.length = max A.length B.length ∧
    (align1 e A B).1 = List.replicate (max A.length B.length + 1 - A.length) (groupOf e 0) ++ A ∧
    (align1 e A B).2 = List.replicate (max A.length B.length + 1 - B.length) (groupOf e 0) ++ B ∧
    (align1 e A B).1.length = max A.length B.length + 1 ∧ (align1 e A B).2.length = max A.length B.length + 1 ∧
    (align1 e A B).1.head? = some (groupOf e 0) ∧ (align1 e A B).2.head? = some (groupOf e 0)

/-- R62, R63: PAD.B and PAD.X (constructors padB, padX); malformed groups pass through. -/
def Obligations.PadEqualisesLengths : Prop :=
  (∀ t, HasMatch (.padB t) 0x05 ∧ HasMatch (.padX t) 0x15) ∧
  ∀ (P : Params) (e : Encoding) (t : Bool) (s : Block P), ∀ A B : List Group, A = s.pins.ops.ea.groups →
    B = s.pins.ops.eb.groups →
    (LegalLen s.pins.ops.ea → LegalLen s.pins.ops.eb →
      ∃ u, exec (instrOf .pad e t) ⟨P, s⟩ = .next ⟨P, u⟩ ∧ Ended s u .done ∧
        PortHolds u.out.ra (List.replicate (max A.length B.length - A.length) (groupOf e 0) ++ A) ∧
        PortHolds u.out.rb (List.replicate (max A.length B.length - B.length) (groupOf e 0) ++ B) ∧ u.out.trace = []) ∧
    (¬ LegalLen s.pins.ops.ea → ∃ u, exec (instrOf .pad e t) ⟨P, s⟩ = .next ⟨P, u⟩ ∧ Faulted s u 0x5 false 0) ∧
    (LegalLen s.pins.ops.ea → ¬ LegalLen s.pins.ops.eb →
      ∃ u, exec (instrOf .pad e t) ⟨P, s⟩ = .next ⟨P, u⟩ ∧ Faulted s u 0x5 true 0)

/-- R65, R66: ALGN.B and ALGN.X (constructors algnB, algnX); without room for the reserved digit the longer operand is
named, the first if they tie. -/
def Obligations.AlgnReservesOneDigit : Prop :=
  (∀ t, HasMatch (.algnB t) 0x06 ∧ HasMatch (.algnX t) 0x16) ∧
  ∀ (P : Params) (e : Encoding) (t : Bool) (s : Block P), ∀ A B : List Group, A = s.pins.ops.ea.groups →
    B = s.pins.ops.eb.groups →
    (LegalLen s.pins.ops.ea → LegalLen s.pins.ops.eb → max A.length B.length + 1 ≤ P.LMAX →
      ∃ u, exec (instrOf .algn e t) ⟨P, s⟩ = .next ⟨P, u⟩ ∧ Ended s u .done ∧
        PortHolds u.out.ra (List.replicate (max A.length B.length + 1 - A.length) (groupOf e 0) ++ A) ∧
        PortHolds u.out.rb (List.replicate (max A.length B.length + 1 - B.length) (groupOf e 0) ++ B) ∧
        u.out.trace = []) ∧
    (¬ LegalLen s.pins.ops.ea → ∃ u, exec (instrOf .algn e t) ⟨P, s⟩ = .next ⟨P, u⟩ ∧ Faulted s u 0x5 false 0) ∧
    (LegalLen s.pins.ops.ea → ¬ LegalLen s.pins.ops.eb →
      ∃ u, exec (instrOf .algn e t) ⟨P, s⟩ = .next ⟨P, u⟩ ∧ Faulted s u 0x5 true 0) ∧
    (LegalLen s.pins.ops.ea → LegalLen s.pins.ops.eb → P.LMAX < max A.length B.length + 1 →
      ∃ u, exec (instrOf .algn e t) ⟨P, s⟩ = .next ⟨P, u⟩ ∧ Faulted s u 0x5 (decide (A.length < B.length)) 0)

/-! ### Digit-wise adder (43_adder.md) -/

/-- R69, R70: the BCD digit rule on every input is its closed form; the binary carry forces the decimal carry. -/
def Obligations.BcdDigitRuleClosedForm : Prop :=
  ∀ (a b : Group) (cin : Bool), ∀ raw : Nat, raw = a.toNat + b.toNat + cin.toNat →
    addDigit .bcd a b cin =
      { raw := raw, bcarry := decide (15 < raw), corr := if 9 < raw then .plus6 else .none
        fixed := BitVec.ofNat 4 (if raw ≤ 9 then raw else if raw ≤ 25 then raw - 10 else raw - 26)
        cout := decide (9 < raw) }

/-- R71: the Excess-3 digit rule on every input is its closed form. -/
def Obligations.Xs3DigitRuleClosedForm : Prop :=
  ∀ (a b : Group) (cin : Bool), ∀ raw : Nat, raw = a.toNat + b.toNat + cin.toNat →
    addDigit .xs3 a b cin =
      { raw := raw, bcarry := decide (15 < raw), corr := if 15 < raw then .plus3 else .minus3
        fixed := BitVec.ofNat 4 (if raw ≤ 2 then raw + 13 else if raw ≤ 15 then raw - 3 else if raw ≤ 28 then raw - 13
          else raw - 29)
        cout := decide (15 < raw) }

/-- R76: the decimal meaning of one position on valid groups, and of a pass on valid operands of equal length, for every
length. -/
def Obligations.PassAddsDecimalNumbers : Prop :=
  ∀ P : Params,
  (∀ (e : Encoding) (a b : Group) (cin : Bool), validGroup e a = true → validGroup e b = true →
    ∀ sum, sum = digitOf e a + digitOf e b + cin.toNat →
      (addDigit e a b cin).fixed = groupOf e (sum % 10) ∧ (addDigit e a b cin).cout = decide (10 ≤ sum)) ∧
  ∀ (e : Encoding) (pass c0 : Bool) (A B : List Group), A.length = B.length → AllValid e A → AllValid e B →
    AllValid e (addg P e pass A B c0).seq ∧ (addg P e pass A B c0).seq.length = A.length ∧
    seqValue e (addg P e pass A B c0).seq + 10 ^ A.length * (addg P e pass A B c0).carry.toNat
      = seqValue e A + seqValue e B + c0.toNat

/-- R68, R72, R78: on any groups, valid or not, a pass threads its carry from the least significant position to the most
significant, keeps the length, and emits one record per position in that order. -/
def Obligations.PassThreadsTheCarry : Prop :=
  ∀ (P : Params) (e : Encoding) (pass c0 : Bool) (A B : List Group), A.length = B.length →
    PassOf e pass A B c0 (addg P e pass A B c0).seq (addg P e pass A B c0).carry (addg P e pass A B c0).recs

/-- R68: the pass taken one position at a time through `cy` and `di` gives the same result as the pass as a function. -/
def Obligations.SerialPassAgrees : Prop :=
  ∀ (P : Params) (e : Encoding) (pass c0 : Bool) (A B : List Group) (di : Fin P.LMAX), A.length = B.length →
    (runPass e pass A B c0 di).seq = (addg P e pass A B c0).seq ∧
    (runPass e pass A B c0 di).cy = (addg P e pass A B c0).carry ∧
    (runPass e pass A B c0 di).recs = (addg P e pass A B c0).recs ∧
    (A ≠ [] → (runPass e pass A B c0 di).di = 0)

/-- R73, R74: ADDG.B and ADDG.X (constructors addgB, addgX), on any groups (R75); the trace only when asked for. -/
def Obligations.AddgRunsOnePass : Prop :=
  (∀ t, HasMatch (.addgB t) 0x07 ∧ HasMatch (.addgX t) 0x17) ∧
  ∀ (P : Params) (e : Encoding) (t : Bool) (s : Block P),
    (LegalLen s.pins.ops.ea → LegalLen s.pins.ops.eb → s.pins.ops.ea.len = s.pins.ops.eb.len →
      ∃ u R recs, exec (instrOf .addg e t) ⟨P, s⟩ = .next ⟨P, u⟩ ∧ Ended s u .done ∧ PortHolds u.out.ra R ∧
        PassOf e false s.pins.ops.ea.groups s.pins.ops.eb.groups s.pins.ops.c0 R u.out.cout recs ∧
        u.out.trace = if P.trace && t then recs else []) ∧
    (¬ LegalLen s.pins.ops.ea → ∃ u, exec (instrOf .addg e t) ⟨P, s⟩ = .next ⟨P, u⟩ ∧ Faulted s u 0x5 false 0) ∧
    (LegalLen s.pins.ops.ea → ¬ LegalLen s.pins.ops.eb →
      ∃ u, exec (instrOf .addg e t) ⟨P, s⟩ = .next ⟨P, u⟩ ∧ Faulted s u 0x5 true 0) ∧
    (LegalLen s.pins.ops.ea → LegalLen s.pins.ops.eb → s.pins.ops.ea.len ≠ s.pins.ops.eb.len →
      ∃ u, exec (instrOf .addg e t) ⟨P, s⟩ = .next ⟨P, u⟩ ∧ Faulted s u 0x5 true 0)

/-! ### Nines complement (44_complement.md) -/

/-- R86: the complement is an involution: on valid sequences under BCD, on all sequences under Excess-3; under BCD a malformed
group faults at once. -/
def Obligations.ComplementIsAnInvolution : Prop :=
  (∀ (e : Encoding) (opnd : Bool) (E : List Group), (e = .bcd → AllValid .bcd E) →
    ∃ K, cmpl e opnd E = .ok K ∧ cmpl e opnd K = .ok E) ∧
  ∀ (opnd : Bool) (E : List Group) (k : Nat), FirstMalformed .bcd E k →
    cmpl .bcd opnd E = .error ⟨.invalidDigitGroup, opnd, k⟩

/-- R87: the decimal meaning of the complement of a valid sequence, every digit `d` having become `9 - d`, and why the
subtractor adds it with carry seed 1. -/
def Obligations.ComplementIsNinesComplement : Prop :=
  ∀ (e : Encoding) (opnd : Bool) (E : List Group), AllValid e E →
    ∃ K v, cmpl e opnd E = .ok K ∧ decn e opnd E = .ok v ∧ decn e opnd K = .ok ((10 ^ E.length - 1) - v) ∧
      K = E.map (fun g => groupOf e (9 - digitOf e g)) ∧
      ∀ A, A.length = E.length → AllValid e A →
        ∃ a k, decn e opnd A = .ok a ∧ decn e opnd K = .ok k ∧ (a : Int) + k + 1 = a - v + 10 ^ E.length

/-- R84, R85: CMPL.B and CMPL.X (constructors cmplB, cmplX): digit `d` to `9 - d` with malformed groups rejected under BCD,
every group inverted under Excess-3. -/
def Obligations.CmplComplementsASequence : Prop :=
  (∀ t, HasMatch (.cmplB t) 0x08 ∧ HasMatch (.cmplX t) 0x18) ∧
  ∀ (P : Params) (e : Encoding) (t : Bool) (s : Block P),
    (LegalLen s.pins.ops.ea → (e = .bcd → AllValid .bcd s.pins.ops.ea.groups) →
      ∃ u, exec (instrOf .cmpl e t) ⟨P, s⟩ = .next ⟨P, u⟩ ∧ Ended s u .done ∧ u.out.trace = [] ∧
        PortHolds u.out.ra
          (s.pins.ops.ea.groups.map
            (fun g => BitVec.ofNat 4 (match e with | .bcd => 9 - g.toNat | .xs3 => 15 - g.toNat)))) ∧
    (¬ LegalLen s.pins.ops.ea → ∃ u, exec (instrOf .cmpl e t) ⟨P, s⟩ = .next ⟨P, u⟩ ∧ Faulted s u 0x5 false 0) ∧
    (∀ k, LegalLen s.pins.ops.ea → e = .bcd → FirstMalformed .bcd s.pins.ops.ea.groups k →
      ∃ u, exec (instrOf .cmpl e t) ⟨P, s⟩ = .next ⟨P, u⟩ ∧ Faulted s u 0x1 false k)

/-! ### Add path and subtractor (45_add_sub.md) -/

/-- R91: on the add path position 0 of both aligned operands is the zero-digit group, no carry leaves it, every group of the
result is valid, so that the decode cannot fault, and `mag = n + m`; for every `N`. -/
def Obligations.AddPathIsExact : Prop :=
  ∀ (P : Params) (e : Encoding) (n m : Nat), n < 10 ^ P.N → m < 10 ^ P.N →
    ∃ RA RB p, encodeAlign P.N e n m = .ok (RA, RB) ∧ RA.head? = some (groupOf e 0) ∧ RB.head? = some (groupOf e 0) ∧
      addPath P e n m = .ok p ∧ p.rr = (addg P e false RA RB false).seq ∧ AllValid e p.rr ∧ p.cf = false ∧
      p.rr.head? ∈ [some (groupOf e 0), some (groupOf e 1)] ∧ p.mag = n + m ∧ p.neg = false ∧ p.matchRef = true

/-- R104, row by row and for every `N`: ADD exact; SUB exact on the positive path under both encodings and on the
negative path under BCD and under Excess-3 with `XS3_RECOMP_INC` = 1; one short, with `match` = 0, under Excess-3 with 0. -/
def Obligations.CorrectnessProperties : Prop :=
  ∀ (P : Params) (e : Encoding) (n m : Nat), n < 10 ^ P.N → m < 10 ^ P.N →
    (∃ p, addPath P e n m = .ok p ∧ p.cf = false ∧ p.neg = false ∧ p.mag = n + m ∧ p.matchRef = true) ∧
    (m ≤ n → ∃ p, subPath P e n m = .ok p ∧ p.cf = true ∧ p.neg = false ∧ p.mag = n - m ∧ p.matchRef = true) ∧
    (n < m → (e = .bcd ∨ P.xs3RecompInc = true) →
      ∃ p, subPath P e n m = .ok p ∧ p.cf = false ∧ p.neg = true ∧ p.mag = m - n ∧ p.matchRef = true) ∧
    (n < m → e = .xs3 → P.xs3RecompInc = false →
      ∃ p, subPath P e n m = .ok p ∧ p.cf = false ∧ p.neg = true ∧ p.mag = m - n - 1 ∧ p.matchRef = false)

/-- R89, R90: ADD.B and ADD.X (constructors addB, addX): every output, the trace of the one pass when asked for, and the
faults, first operand first. -/
def Obligations.AddAddsTwoIntegers : Prop :=
  (∀ t, HasMatch (.addB t) 0x09 ∧ HasMatch (.addX t) 0x19) ∧
  ∀ (P : Params) (e : Encoding) (t : Bool) (s : Block P), ∀ n m : Nat, n = s.pins.ops.na.toNat → m = s.pins.ops.nb.toNat →
    (n < 10 ^ P.N → m < 10 ^ P.N →
      ∃ u R recs, exec (instrOf .add e t) ⟨P, s⟩ = .next ⟨P, u⟩ ∧ Ended s u .done ∧ PortHolds u.out.ra R ∧
        PassOf e false (operandSeq e (alignedLen n m) n) (operandSeq e (alignedLen n m) m) false R u.out.cout recs ∧
        u.out.cout = false ∧ u.out.mag.toNat = n + m ∧ u.out.neg = false ∧ u.out.matchRef = true ∧
        u.out.trace = if P.trace && t then recs else []) ∧
    (10 ^ P.N ≤ n → ∃ u, exec (instrOf .add e t) ⟨P, s⟩ = .next ⟨P, u⟩ ∧ Faulted s u 0x2 false 0) ∧
    (n < 10 ^ P.N → 10 ^ P.N ≤ m → ∃ u, exec (instrOf .add e t) ⟨P, s⟩ = .next ⟨P, u⟩ ∧ Faulted s u 0x2 true 0)

/-- R100, R101, the positive path: SUB.B and SUB.X (constructors subB, subX) with `na ≥ nb` end in DONE_POSITIVE with the
difference; the one pass adds the nines complement of the aligned subtrahend with carry seed 1 (R93 to R96). -/
def Obligations.SubPositivePath : Prop :=
  (∀ t, HasMatch (.subB t) 0x0A ∧ HasMatch (.subX t) 0x1A) ∧
  ∀ (P : Params) (e : Encoding) (t : Bool) (s : Block P), ∀ n m : Nat, n = s.pins.ops.na.toNat → m = s.pins.ops.nb.toNat →
    n < 10 ^ P.N → m ≤ n →
      ∃ u R recs, exec (instrOf .sub e t) ⟨P, s⟩ = .next ⟨P, u⟩ ∧ Ended s u .donePositive ∧ PortHolds u.out.ra R ∧
        PassOf e false (operandSeq e (alignedLen n m) n) (ninesOf e (operandSeq e (alignedLen n m) m)) true
          R u.out.cout recs ∧
        seqValue e R = n - m ∧ u.out.cout = true ∧ u.out.mag.toNat = n - m ∧ u.out.neg = false ∧
        u.out.matchRef = true ∧ u.out.trace = if P.trace && t then recs else []

/-- R97, R98, R99: SUB with `na < nb` where the recomplement adds 1 (SUB.B always, SUB.X with `XS3_RECOMP_INC` = 1) ends in
DONE_NEGATIVE with the exact magnitude, after a second pass that is traced as such. -/
def Obligations.SubNegativePathAddingOne : Prop :=
  ∀ (P : Params) (e : Encoding) (t : Bool) (s : Block P), ∀ n m L : Nat, n = s.pins.ops.na.toNat → m = s.pins.ops.nb.toNat →
    L = alignedLen n m → m < 10 ^ P.N → n < m → (e = .bcd ∨ P.xs3RecompInc = true) →
      ∃ u R RM c2 recs recs2, exec (instrOf .sub e t) ⟨P, s⟩ = .next ⟨P, u⟩ ∧ Ended s u .doneNegative ∧ PortHolds u.out.ra R ∧
        PassOf e false (operandSeq e L n) (ninesOf e (operandSeq e L m)) true R u.out.cout recs ∧
        PassOf e true (ninesOf e R) (operandSeq e L 1) false RM c2 recs2 ∧
        seqValue e R = 10 ^ L - (m - n) ∧ u.out.cout = false ∧ u.out.mag.toNat = m - n ∧ u.out.neg = true ∧
        u.out.matchRef = true ∧ u.out.trace = if P.trace && t then recs ++ recs2 else []

/-- R98, R99 with the default `XS3_RECOMP_INC` = 0: SUB.X (constructor subX) with `na < nb` runs no second pass and is one
short of the magnitude, which `match` = 0 reports (90_conflicts.md C1). -/
def Obligations.SubXNegativePathByDefault : Prop :=
  ∀ (P : Params) (t : Bool) (s : Block P), ∀ n m L : Nat, n = s.pins.ops.na.toNat → m = s.pins.ops.nb.toNat →
    L = alignedLen n m → m < 10 ^ P.N → n < m → P.xs3RecompInc = false →
      ∃ u R recs, exec (.subX t) ⟨P, s⟩ = .next ⟨P, u⟩ ∧ Ended s u .doneNegative ∧ PortHolds u.out.ra R ∧
        PassOf .xs3 false (operandSeq .xs3 L n) (ninesOf .xs3 (operandSeq .xs3 L m)) true R u.out.cout recs ∧
        seqValue .xs3 R = 10 ^ L - (m - n) ∧ u.out.cout = false ∧ u.out.mag.toNat = m - n - 1 ∧ u.out.neg = true ∧
        u.out.matchRef = false ∧ u.out.trace = if P.trace && t then recs else []

/-- R100, R101: the faults of SUB.B and SUB.X, first operand first. -/
def Obligations.SubOperandOutOfRange : Prop :=
  ∀ (P : Params) (e : Encoding) (t : Bool) (s : Block P),
    (10 ^ P.N ≤ s.pins.ops.na.toNat → ∃ u, exec (instrOf .sub e t) ⟨P, s⟩ = .next ⟨P, u⟩ ∧ Faulted s u 0x2 false 0) ∧
    (s.pins.ops.na.toNat < 10 ^ P.N → 10 ^ P.N ≤ s.pins.ops.nb.toNat →
      ∃ u, exec (instrOf .sub e t) ⟨P, s⟩ = .next ⟨P, u⟩ ∧ Faulted s u 0x2 true 0)

/-- R102: equal operands give magnitude 0 with final carry 1 (positive zero) in DONE_POSITIVE, every group of the result the
zero-digit group and every carry 1, for both encodings. -/
def Obligations.EqualOperandsGivePositiveZero : Prop :=
  ∀ (P : Params) (e : Encoding) (t : Bool) (s : Block P), ∀ n L : Nat, n = s.pins.ops.na.toNat → L = alignedLen n n →
    s.pins.ops.na = s.pins.ops.nb → n < 10 ^ P.N →
      ∃ u cs, exec (instrOf .sub e t) ⟨P, s⟩ = .next ⟨P, u⟩ ∧ Ended s u .donePositive ∧ u.out.cout = true ∧ u.out.mag = 0 ∧
        u.out.neg = false ∧ u.out.matchRef = true ∧ PortHolds u.out.ra (List.replicate L (groupOf e 0)) ∧
        IsPass e (operandSeq e L n) (ninesOf e (operandSeq e L n)) true (List.replicate L (groupOf e 0)) u.out.cout cs ∧
        ∀ c ∈ cs, c = true

/-- R105: a subtraction gives `neg` = 1 with `mag` = 0 exactly under Excess-3 with `XS3_RECOMP_INC` = 0 and `n = m - 1`; then
`cout` = 0, `match` = 0 and every group of the result stands for 9, in DONE_NEGATIVE. -/
def Obligations.NegativeZeroOnlyUnderExcess3 : Prop :=
  ∀ (P : Params) (e : Encoding) (t : Bool) (s : Block P), ∀ n m : Nat, n = s.pins.ops.na.toNat → m = s.pins.ops.nb.toNat →
    n < 10 ^ P.N → m < 10 ^ P.N →
      ∃ u, exec (instrOf .sub e t) ⟨P, s⟩ = .next ⟨P, u⟩ ∧
        (u.out.neg = true ∧ u.out.mag = 0 ↔ e = .xs3 ∧ P.xs3RecompInc = false ∧ n + 1 = m) ∧
        (u.out.neg = true ∧ u.out.mag = 0 →
          u.ph = .doneNegative ∧ u.out.cout = false ∧ u.out.matchRef = false ∧
          PortHolds u.out.ra (List.replicate (alignedLen n m) 0b1100))

/-- R48: ADD equals ENCN, ENCN, ALGN, ADDG with seed 0 and DECN, with the host carrying results to operands. -/
def Obligations.AddIsItsComponentCommands : Prop :=
  ∀ (P : Params) (e : Encoding) (t : Bool) (s : Block P) (o : Operands P), o = s.pins.ops → o.na.toNat < 10 ^ P.N →
    o.nb.toNat < 10 ^ P.N →
    ∃ t1 t2 t3 t4 t5 u : Block P,
      exec (instrOf .encn e t) ⟨P, s⟩ = .next ⟨P, t1⟩ ∧
      exec (instrOf .encn e t) ⟨P, t1.drive { s.pins with ops := { o with na := o.nb } }⟩ = .next ⟨P, t2⟩ ∧
      exec (instrOf .algn e t) ⟨P, t2.drive { s.pins with ops := { o with ea := t1.out.ra, eb := t2.out.ra } }⟩ = .next ⟨P, t3⟩ ∧
      exec (instrOf .addg e t) ⟨P, t3.drive { s.pins with ops := { o with ea := t3.out.ra, eb := t3.out.rb, c0 := false } }⟩ =
        .next ⟨P, t4⟩ ∧
      exec (instrOf .decn e t) ⟨P, t4.drive { s.pins with ops := { o with ea := t4.out.ra } }⟩ = .next ⟨P, t5⟩ ∧
      exec (instrOf .add e t) ⟨P, s⟩ = .next ⟨P, u⟩ ∧
      [t1.ph, t2.ph, t3.ph, t4.ph, t5.ph, u.ph] = [.done, .done, .done, .done, .done, .done] ∧
      u.out.ra = t4.out.ra ∧ u.out.cout = t4.out.cout ∧ u.out.mag = t5.out.mag ∧ u.out.neg = t5.out.neg ∧
      u.out.trace = t4.out.trace

/-- R48: SUB equals ENCN, ENCN, ALGN, CMPL, ADDG with seed 1 and then, by ADDG's carry, DECN, or CMPL, the second ADDG with
the one-sequence where the recomplement adds 1 (R97, R98), and DECN. -/
def Obligations.SubIsItsComponentCommands : Prop :=
  ∀ (P : Params) (e : Encoding) (t : Bool) (s : Block P) (o : Operands P), o = s.pins.ops → o.na.toNat < 10 ^ P.N →
    o.nb.toNat < 10 ^ P.N →
    ∃ t1 t2 t3 t4 t5 u : Block P,
      exec (instrOf .encn e t) ⟨P, s⟩ = .next ⟨P, t1⟩ ∧
      exec (instrOf .encn e t) ⟨P, t1.drive { s.pins with ops := { o with na := o.nb } }⟩ = .next ⟨P, t2⟩ ∧
      exec (instrOf .algn e t) ⟨P, t2.drive { s.pins with ops := { o with ea := t1.out.ra, eb := t2.out.ra } }⟩ = .next ⟨P, t3⟩ ∧
      exec (instrOf .cmpl e t) ⟨P, t3.drive { s.pins with ops := { o with ea := t3.out.rb } }⟩ = .next ⟨P, t4⟩ ∧
      exec (instrOf .addg e t) ⟨P, t4.drive { s.pins with ops := { o with ea := t3.out.ra, eb := t4.out.ra, c0 := true } }⟩ =
        .next ⟨P, t5⟩ ∧
      exec (instrOf .sub e t) ⟨P, s⟩ = .next ⟨P, u⟩ ∧
      [t1.ph, t2.ph, t3.ph, t4.ph, t5.ph] = [.done, .done, .done, .done, .done] ∧
      u.out.ra = t5.out.ra ∧ u.out.cout = t5.out.cout ∧ u.out.neg = !t5.out.cout ∧
      (t5.out.cout = true →
        ∃ t6, exec (instrOf .decn e t) ⟨P, t5.drive { s.pins with ops := { o with ea := t5.out.ra } }⟩ = .next ⟨P, t6⟩ ∧
          t6.ph = .done ∧ u.out.mag = t6.out.mag) ∧
      (t5.out.cout = false →
        ∃ t6, exec (instrOf .cmpl e t) ⟨P, t5.drive { s.pins with ops := { o with ea := t5.out.ra } }⟩ = .next ⟨P, t6⟩ ∧
          t6.ph = .done ∧
          (e = .xs3 ∧ P.xs3RecompInc = false →
            ∃ t7, exec (instrOf .decn e t) ⟨P, t6.drive { s.pins with ops := { o with ea := t6.out.ra } }⟩ = .next ⟨P, t7⟩ ∧
              t7.ph = .done ∧ u.out.mag = t7.out.mag) ∧
          (e = .bcd ∨ P.xs3RecompInc = true →
            ∀ one : EncPort P, PortHolds one (operandSeq e t5.out.ra.len.toNat 1) →
              ∃ t7 t8,
                exec (instrOf .addg e t) ⟨P, t6.drive { s.pins with ops := { o with ea := t6.out.ra, eb := one, c0 := false } }⟩ =
                  .next ⟨P, t7⟩ ∧
                exec (instrOf .decn e t) ⟨P, t7.drive { s.pins with ops := { o with ea := t7.out.ra } }⟩ = .next ⟨P, t8⟩ ∧
                t7.ph = .done ∧ t8.ph = .done ∧ u.out.mag = t8.out.mag))

/-! ### Faults (60_exceptions.md) -/

/-- R122: the fault codes an instruction can end with are exactly those of the matrix, and each is reached. -/
def Obligations.FaultMatrixIsComplete : Prop :=
  ∀ (P : Params) (i : Instr) (code : BitVec 4),
    code ∈ possibleFaults i ↔ ∃ s t, exec i ⟨P, s⟩ = .next ⟨P, t⟩ ∧ t.ph = .fault ∧ t.err.code = code

/-- R112 and R108: no step from a state with sound fault registers ends with a code that is never produced: 0x3
(MalformedBinaryLiteral) or 0x6..0xF. -/
def Obligations.NoReservedFaultCode : Prop :=
  ∀ s t : State, Inv s.block → step s = .next t → t.block.err.code ∈ [(0x0 : BitVec 4), 0x1, 0x2, 0x4, 0x5]

/-! ### What a transaction depends on -/

/-- R8, R14, R43, U13: the end of a transaction is a function of the parameters and of the operands its format reads:
not of earlier transactions, of the phase, of unread ports, nor of the bits above a sequence. -/
def Obligations.TransactionReadsOnlyItsOperands : Prop :=
  ∀ (P : Params) (i : Instr) (s s' : Block P), SameOperands i.op s.pins.ops s'.pins.ops →
    ∃ t t', exec i ⟨P, s⟩ = .next ⟨P, t⟩ ∧ exec i ⟨P, s'⟩ = .next ⟨P, t'⟩ ∧ SameEnd i.op t t' ∧ t.out.trace = t'.out.trace

/-- R79: neither the `T` bit nor `TRACE` changes anything but the trace. -/
def Obligations.TraceHasNoSemanticWeight : Prop :=
  ∀ (op : Op) (e : Encoding) (b b' : Bool) (P Q : Params) (s : Block P) (s' : Block Q), P.N = Q.N →
    P.xs3RecompInc = Q.xs3RecompInc → SameOperands op s.pins.ops s'.pins.ops →
    ∃ t t', exec (instrOf op e b) ⟨P, s⟩ = .next ⟨P, t⟩ ∧ exec (instrOf op e b') ⟨Q, s'⟩ = .next ⟨Q, t'⟩ ∧ SameEnd op t t'

/-- R42, R78: no record is emitted with `T` = 0 or `TRACE` = 0, nor by a command that runs no adder pass. -/
def Obligations.TraceOnlyWhenAskedFor : Prop :=
  ∀ (P : Params) (i : Instr) (s t : Block P), exec i ⟨P, s⟩ = .next ⟨P, t⟩ →
    (P.trace = false ∨ i.traceBit = false ∨ i.op ∉ [Op.addg, Op.add, Op.sub]) → t.out.trace = []

/-! ### The phase machine (45_add_sub.md R92, R106, R107) -/

/-- R92, R106: from a state of the invariant, a phase step goes where the tables say; ALIGN faults exactly on an operand out
of range, and goes to COMPLEMENT for SUB and to ADD for ADD; INTERPRET branches on `cf`. -/
def Obligations.PhaseTransitionsFollowTheTables : Prop :=
  ∀ (P : Params) (s : Block P), Inv s → s.busy = true → s.pins.rst = false →
    (edge s).ph ∈ nextPhases s.ph ∧
    (s.ph = .align → ((edge s).ph = .fault ↔ 10 ^ P.N ≤ s.opsQ.na.toNat ∨ 10 ^ P.N ≤ s.opsQ.nb.toNat) ∧
      ((edge s).ph = .complement → s.cwIsSub = true) ∧ ((edge s).ph = .add → s.cwIsSub = false)) ∧
    (s.ph = .add → ((edge s).ph = .interpret ↔ s.cwIsSub = true)) ∧
    (s.ph = .interpret → ((edge s).ph = .donePositive ↔ s.work.cf = true))

/-- The invariant holds at reset (R22), for every choice of the parameters. -/
def Obligations.InvariantHoldsAtReset : Prop := (∀ P : Params, Inv (Block.reset P)) ∧ Inv State.reset.block

/-- Every step keeps the invariant, in both views: each working register holds what R17 says once its phase has written it,
DONE_POSITIVE stands for `neg` = 0, `cout` = 1, `match` = 1 and DONE_NEGATIVE for `neg` = 1, `cout` = 0, and the fault registers
are 0 outside FAULT and one of the four produced codes in it (R19, R108). -/
def Obligations.EveryStepKeepsTheInvariant : Prop :=
  ∀ s : State, Inv s.block → (∀ t, step s = .next t → t.params = s.params ∧ Inv t.block) ∧ Inv (edge s.block)

/-- The invariant does not depend on the pins, so the host cannot break it between two edges. -/
def Obligations.HostCannotBreakTheInvariant : Prop := ∀ (P : Params) (s : Block P) (p : Pins P), Inv s → Inv (s.drive p)

/-- R107: the two views agree.  From an accepted `start`, the edges of the phase view reach a terminal phase after at most
six of them, are busy in between, and the state they reach is the one state the step gives.  That both views leave the same contents
where the spec leaves them unspecified is the model's choice (log entries 7, 9, 10). -/
def Obligations.PhaseViewAgreesWithFunctionView : Prop :=
  ∀ (P : Params) (s : Block P), s.pins.rst = false → s.busy = false → s.pins.start = true →
    ∃ k, 1 ≤ k ∧ k ≤ 6 ∧ (∀ j, 1 ≤ j → j < k → (edge^[j] s).busy = true) ∧ (edge^[k] s).done = true ∧
      step ⟨P, s⟩ = .next ⟨P, edge^[k] s⟩

/-! ### Parameters (00_scope.md R4, 10_state.md R24) -/

/-- R4: the widths follow from `N`: `NW`, `RW` and `LW` are the smallest that hold `10^N - 1`, `10^LMAX - 1` and LMAX, and for
the default `N` they are 14, 17 and 3. -/
def Obligations.WidthsFollowFromN : Prop :=
  (∀ P : Params, 1 ≤ P.N ∧ P.LMAX = P.N + 1 ∧
    (10 ^ P.N - 1 < 2 ^ P.NW ∧ ∀ w, 10 ^ P.N - 1 < 2 ^ w → P.NW ≤ w) ∧
    (10 ^ P.LMAX - 1 < 2 ^ P.RW ∧ ∀ w, 10 ^ P.LMAX - 1 < 2 ^ w → P.RW ≤ w) ∧
    (P.LMAX < 2 ^ P.LW ∧ ∀ w, P.LMAX < 2 ^ w → P.LW ≤ w)) ∧
  Params.default.N = 4 ∧ Params.default.LMAX = 5 ∧ Params.default.NW = 14 ∧ Params.default.RW = 17 ∧ Params.default.LW = 3

/-- R24, R127: the parameters are fixed when the block is built: every step answers a next state of a block with the same
parameters, whatever the state is. -/
def Obligations.StepsKeepTheParameters : Prop :=
  ∀ (P : Params) (s : Block P), ∃ t : Block P, step ⟨P, s⟩ = .next ⟨P, t⟩
end

