-- ==== Sys2Proof/Laws/State.lean ====
section
/-! SUPPORT. One lemma per field of a block's state per update, true by unfolding, so that no proof unfolds a record update. -/

namespace Sys2Proof.Machine

open Sys2Proof.Config

variable {P : Params}

/-! ### `Block.accept` -/

@[simp] theorem Block.accept_pins (s : Block P) (p : Phase) : (s.accept p).pins = s.pins := rfl

@[simp] theorem Block.accept_ph (s : Block P) (p : Phase) : (s.accept p).ph = p := rfl

@[simp] theorem Block.accept_cwQ (s : Block P) (p : Phase) : (s.accept p).cwQ = s.pins.cw := rfl

@[simp] theorem Block.accept_opsQ (s : Block P) (p : Phase) : (s.accept p).opsQ = s.pins.ops := rfl

@[simp] theorem Block.accept_work (s : Block P) (p : Phase) : (s.accept p).work = Working.free P s.fresh := rfl

@[simp] theorem Block.accept_out (s : Block P) (p : Phase) : (s.accept p).out = Outputs.free P s.fresh [] := rfl

@[simp] theorem Block.accept_err (s : Block P) (p : Phase) : (s.accept p).err = ErrRegs.zero := rfl

@[simp] theorem Block.accept_fresh (s : Block P) (p : Phase) : (s.accept p).fresh = s.fresh + 1 := rfl

/-! ### `Block.conclude` -/

@[simp] theorem Block.conclude_pins (s : Block P) (r : Results P) : (s.conclude r).pins = s.pins := rfl

@[simp] theorem Block.conclude_ph (s : Block P) (r : Results P) : (s.conclude r).ph = r.ph := rfl

@[simp] theorem Block.conclude_cwQ (s : Block P) (r : Results P) : (s.conclude r).cwQ = freeBits .cwQ s.fresh 8 := rfl

@[simp] theorem Block.conclude_opsQ (s : Block P) (r : Results P) : (s.conclude r).opsQ = Operands.free P s.fresh := rfl

@[simp] theorem Block.conclude_work (s : Block P) (r : Results P) : (s.conclude r).work = Working.free P s.fresh := rfl

@[simp] theorem Block.conclude_out (s : Block P) (r : Results P) : (s.conclude r).out = r.outputs s.fresh := rfl

@[simp] theorem Block.conclude_err (s : Block P) (r : Results P) : (s.conclude r).err = ErrRegs.zero := rfl

@[simp] theorem Block.conclude_fresh (s : Block P) (r : Results P) : (s.conclude r).fresh = s.fresh + 1 := rfl

/-! ### `Block.takeFault` -/

@[simp] theorem Block.takeFault_pins (s : Block P) (f : FaultRec) : (s.takeFault f).pins = s.pins := rfl

@[simp] theorem Block.takeFault_ph (s : Block P) (f : FaultRec) : (s.takeFault f).ph = Phase.fault := rfl

@[simp] theorem Block.takeFault_cwQ (s : Block P) (f : FaultRec) : (s.takeFault f).cwQ = freeBits .cwQ s.fresh 8 := rfl

@[simp] theorem Block.takeFault_opsQ (s : Block P) (f : FaultRec) : (s.takeFault f).opsQ = Operands.free P s.fresh := rfl

@[simp] theorem Block.takeFault_work (s : Block P) (f : FaultRec) : (s.takeFault f).work = Working.free P s.fresh := rfl

@[simp] theorem Block.takeFault_out (s : Block P) (f : FaultRec) : (s.takeFault f).out = Outputs.free P s.fresh [] := rfl

@[simp] theorem Block.takeFault_err (s : Block P) (f : FaultRec) : (s.takeFault f).err = f.regs := rfl

@[simp] theorem Block.takeFault_fresh (s : Block P) (f : FaultRec) : (s.takeFault f).fresh = s.fresh + 1 := rfl

/-! ### `Block.resetEdge` -/

@[simp] theorem Block.resetEdge_pins (s : Block P) : s.resetEdge.pins = s.pins := rfl

@[simp] theorem Block.resetEdge_ph (s : Block P) : s.resetEdge.ph = Phase.idle := rfl

@[simp] theorem Block.resetEdge_cwQ (s : Block P) : s.resetEdge.cwQ = freeBits .cwQ s.fresh 8 := rfl

@[simp] theorem Block.resetEdge_opsQ (s : Block P) : s.resetEdge.opsQ = Operands.free P s.fresh := rfl

@[simp] theorem Block.resetEdge_work (s : Block P) : s.resetEdge.work = Working.free P s.fresh := rfl

@[simp] theorem Block.resetEdge_err (s : Block P) : s.resetEdge.err = ErrRegs.zero := rfl

@[simp] theorem Block.resetEdge_fresh (s : Block P) : s.resetEdge.fresh = s.fresh + 1 := rfl

/-! ### `Block.drive` -/

@[simp] theorem Block.drive_pins (s : Block P) (p : Pins P) : (s.drive p).pins = p := rfl

@[simp] theorem Block.drive_ph (s : Block P) (p : Pins P) : (s.drive p).ph = s.ph := rfl

@[simp] theorem Block.drive_cwQ (s : Block P) (p : Pins P) : (s.drive p).cwQ = s.cwQ := rfl

@[simp] theorem Block.drive_opsQ (s : Block P) (p : Pins P) : (s.drive p).opsQ = s.opsQ := rfl

@[simp] theorem Block.drive_work (s : Block P) (p : Pins P) : (s.drive p).work = s.work := rfl

@[simp] theorem Block.drive_out (s : Block P) (p : Pins P) : (s.drive p).out = s.out := rfl

@[simp] theorem Block.drive_err (s : Block P) (p : Pins P) : (s.drive p).err = s.err := rfl

@[simp] theorem Block.drive_fresh (s : Block P) (p : Pins P) : (s.drive p).fresh = s.fresh := rfl

/-! ### `Block.firstPass` -/

@[simp] theorem Block.firstPass_pins (s : Block P) (r : PassRegs P) : (s.firstPass r).pins = s.pins := rfl

@[simp] theorem Block.firstPass_ph (s : Block P) (r : PassRegs P) : (s.firstPass r).ph = s.ph := rfl

@[simp] theorem Block.firstPass_cwQ (s : Block P) (r : PassRegs P) : (s.firstPass r).cwQ = s.cwQ := rfl

@[simp] theorem Block.firstPass_opsQ (s : Block P) (r : PassRegs P) : (s.firstPass r).opsQ = s.opsQ := rfl

@[simp] theorem Block.firstPass_work (s : Block P) (r : PassRegs P) :
    (s.firstPass r).work = { s.work with rr := r.seq, cf := r.cy, cy := r.cy, di := r.di } := rfl

@[simp] theorem Block.firstPass_out (s : Block P) (r : PassRegs P) :
    (s.firstPass r).out = { s.out with trace := s.out.trace ++ emitted s.cwTrace r.recs } := rfl

@[simp] theorem Block.firstPass_err (s : Block P) (r : PassRegs P) : (s.firstPass r).err = s.err := rfl

@[simp] theorem Block.firstPass_fresh (s : Block P) (r : PassRegs P) : (s.firstPass r).fresh = s.fresh := rfl

/-! ### The flags after a reset edge -/

@[simp] theorem Block.resetEdge_neg (s : Block P) : s.resetEdge.out.neg = false := rfl

@[simp] theorem Block.resetEdge_cout (s : Block P) : s.resetEdge.out.cout = false := rfl

@[simp] theorem Block.resetEdge_matchRef (s : Block P) : s.resetEdge.out.matchRef = false := rfl

/-! ### The outputs a command's results give -/

@[simp] theorem Results.outputs_trace (r : Results P) (k : Nat) : (r.outputs k).trace = r.trace := rfl

/-! ### The host's state -/

/-- The next states of blocks with the same parameters are equal only if the blocks' states are. -/
theorem next_block_inj {a b : Block P} (h : (Host.Outcome.next ⟨P, a⟩ : Host.Outcome State Fault Refusal) = .next ⟨P, b⟩) :
    a = b := by
  cases h
  rfl

@[simp] theorem State.resetOf_block (P : Params) : (State.resetOf P).block = Block.reset P := rfl

@[simp] theorem State.resetOf_params (P : Params) : (State.resetOf P).params = P := rfl

/-! ### Functions of the state through a change of the pins -/

@[simp] theorem Block.drive_busy (s : Block P) (p : Pins P) : (s.drive p).busy = s.busy := rfl

@[simp] theorem Block.drive_drive (s : Block P) (p q : Pins P) : (s.drive p).drive q = s.drive q := rfl

@[simp] theorem Block.drive_pins_self (s : Block P) : s.drive s.pins = s := rfl

end Sys2Proof.Machine
end

