-- ==== Sys2Proof/Laws/Ops.lean ====
section
/-! SUPPORT. One lemma per shared operation that says all it can do: how a transaction ends, the length checks, and the
recursion that may raise. -/

namespace Sys2Proof.Machine

open Sys2Proof.Config

variable {P : Params}

/-! ### How a transaction ends -/

@[simp] theorem Block.settle_ok (s : Block P) (r : Results P) : s.settle (.ok r) = s.conclude r := rfl

@[simp] theorem Block.settle_error (s : Block P) (f : FaultRec) : s.settle (.error f) = s.takeFault f := rfl

theorem Block.transact_of_ok {s : Block P} {p : Phase} {f : Operands P → Except FaultRec (Results P)} {r : Results P}
    (h : f s.pins.ops = .ok r) : s.transact p f = (s.accept p).conclude r := by
  simp [Block.transact, h]

theorem Block.transact_of_error {s : Block P} {p : Phase} {f : Operands P → Except FaultRec (Results P)} {e : FaultRec}
    (h : f s.pins.ops = .error e) : s.transact p f = (s.accept p).takeFault e := by
  simp [Block.transact, h]

/-- What a transaction can do: it ends with the command's results or with its fault. -/
theorem Block.transact_cases (s : Block P) (p : Phase) (f : Operands P → Except FaultRec (Results P)) :
    (∃ r, f s.pins.ops = .ok r ∧ s.transact p f = (s.accept p).conclude r) ∨
    (∃ e, f s.pins.ops = .error e ∧ s.transact p f = (s.accept p).takeFault e) := by
  cases hf : f s.pins.ops with
  | ok r => exact .inl ⟨r, rfl, Block.transact_of_ok hf⟩
  | error e => exact .inr ⟨e, rfl, Block.transact_of_error hf⟩

/-- The host's state after a transaction: the parameters and the block's state. -/
@[simp] theorem State.transact_block (s : Block P) (p : Phase) (f : Operands P → Except FaultRec (Results P)) :
    State.transact ⟨P, s⟩ p f = .next ⟨P, s.transact p f⟩ := rfl

/-- The phase that the `start` edge enters leaves no mark on the end of a transaction. -/
theorem Block.accept_settle (s : Block P) (p q : Phase) (x : Except FaultRec (Results P)) :
    (s.accept p).settle x = (s.accept q).settle x := by
  cases x <;> rfl

/-! ### Length checks -/

theorem legalLen_iff {lmax len : Nat} : legalLen lmax len = true ↔ 1 ≤ len ∧ len ≤ lmax := by
  simp [legalLen]

theorem checkLen_of_legal {lmax len : Nat} (opnd : Bool) (h : 1 ≤ len ∧ len ≤ lmax) : checkLen lmax opnd len = .ok () := by
  simp [checkLen, legalLen_iff.mpr h]

theorem checkLen_of_illegal {lmax len : Nat} (opnd : Bool) (h : ¬ (1 ≤ len ∧ len ≤ lmax)) :
    checkLen lmax opnd len = .error (lengthFault opnd) := by
  simp [checkLen, legalLen_iff, h]

theorem checkLens_of_legal {lmax a b : Nat} (ha : 1 ≤ a ∧ a ≤ lmax) (hb : 1 ≤ b ∧ b ≤ lmax) :
    checkLens lmax a b = .ok () := by
  simp [checkLens, checkLen_of_legal _ ha, checkLen_of_legal _ hb, bind, Except.bind]

theorem checkLens_of_first {lmax a b : Nat} (ha : ¬ (1 ≤ a ∧ a ≤ lmax)) :
    checkLens lmax a b = .error (lengthFault false) := by
  simp [checkLens, checkLen_of_illegal _ ha, bind, Except.bind]

theorem checkLens_of_second {lmax a b : Nat} (ha : 1 ≤ a ∧ a ≤ lmax) (hb : ¬ (1 ≤ b ∧ b ≤ lmax)) :
    checkLens lmax a b = .error (lengthFault true) := by
  simp [checkLens, checkLen_of_legal _ ha, checkLen_of_illegal _ hb, bind, Except.bind]

/-! ### A recursion that may raise -/

theorem mapRaise_of_ok {α β : Type} {f : Nat → α → Except FaultRec β} {g : α → β} :
    ∀ (k : Nat) (xs : List α), (∀ k, ∀ x ∈ xs, f k x = .ok (g x)) → mapRaise f k xs = .ok (xs.map g)
  | _, [], _ => rfl
  | k, x :: xs, h => by
    have ih := mapRaise_of_ok (f := f) (g := g) (k + 1) xs (fun j y hy => h j y (List.mem_cons_of_mem _ hy))
    simp [mapRaise, h k x List.mem_cons_self, ih, bind, Except.bind, pure, Except.pure]

/-- The element of index `j` raises and all before it do not: its fault, at its index, is the one reported. -/
theorem mapRaise_of_error {α β : Type} {f : Nat → α → Except FaultRec β} {e : FaultRec} :
    ∀ (j k : Nat) (xs : List α) (x : α), xs[j]? = some x → f (k + j) x = .error e →
      (∀ i y, i < j → xs[i]? = some y → ∃ z, f (k + i) y = .ok z) → mapRaise f k xs = .error e
  | _, _, [], _, h, _, _ => by simp at h
  | 0, k, y :: ys, x, h, hx, _ => by
    obtain rfl : y = x := by simpa using h
    have hy : f k y = .error e := by simpa using hx
    simp [mapRaise, hy, bind, Except.bind]
  | j + 1, k, y :: ys, x, h, hx, hlt => by
    obtain ⟨z, hz⟩ := hlt 0 y (Nat.succ_pos j) (by simp)
    have hz' : f k y = .ok z := by simpa using hz
    have ih : mapRaise f (k + 1) ys = .error e :=
      mapRaise_of_error j (k + 1) ys x (by simpa using h)
        (by rw [show k + 1 + j = k + (j + 1) by omega]; exact hx)
        (fun i w hi hw => by
          obtain ⟨v, hv⟩ := hlt (i + 1) w (by omega) (by simpa using hw)
          exact ⟨v, by rw [show k + 1 + i = k + (i + 1) by omega]; exact hv⟩)
    simp [mapRaise, hz', ih, bind, Except.bind]

end Sys2Proof.Machine
end

