-- ==== Sys2Proof/Laws/Codec.lean ====
section
/-! SUPPORT. The small facts about groups and digits, and what `enc_digit`, `dec_digit` and `cmpl_digit` do on each kind of
input. -/

namespace Sys2Proof.Machine

open Sys2Proof.Config Sys2Proof.Safety

variable {P : Params}

/-! ### Groups and digits -/

theorem zeroGroup_eq (e : Encoding) : zeroGroup e = groupOf e 0 := by cases e <;> rfl

theorem validGroup_groupOf (e : Encoding) {d : Nat} (h : d ≤ 9) : validGroup e (groupOf e d) = true := by
  interval_cases d <;> cases e <;> decide

theorem digitOf_groupOf (e : Encoding) {d : Nat} (h : d ≤ 9) : digitOf e (groupOf e d) = d := by
  interval_cases d <;> cases e <;> decide

theorem digitOf_le (e : Encoding) {g : Group} (h : validGroup e g = true) : digitOf e g ≤ 9 := by
  cases e <;> simp only [validGroup, digitOf, decide_eq_true_eq, Bool.and_eq_true] at * <;> omega

theorem groupOf_digitOf : ∀ (e : Encoding) (g : Group), validGroup e g = true → groupOf e (digitOf e g) = g := by
  intro e g; cases e <;> revert g <;> decide

/-! ### `enc_digit`, `dec_digit`, `cmpl_digit` -/

theorem encDigit_of_le (e : Encoding) {d : Nat} (h : d ≤ 9) : encDigit e d = .ok (groupOf e d) := by
  interval_cases d <;> cases e <;> rfl

theorem encDigit_of_gt (e : Encoding) {d : Nat} (h : 9 < d) : encDigit e d = .error ⟨.inputOutOfRange, false, 0⟩ := by
  simp [encDigit, h]

theorem decodedValue_of_valid : ∀ (e : Encoding) (g : Group), validGroup e g = true →
    ¬ (decodedValue e g < 0 ∨ decodedValue e g > 9) ∧ (decodedValue e g).toNat = digitOf e g := by
  intro e g; cases e <;> revert g <;> decide

theorem decodedValue_of_malformed : ∀ (e : Encoding) (g : Group), validGroup e g = false →
    decodedValue e g < 0 ∨ decodedValue e g > 9 := by
  intro e g; cases e <;> revert g <;> decide

theorem decDigit_of_valid (e : Encoding) (opnd : Bool) (idx : Nat) {g : Group} (h : validGroup e g = true) :
    decDigit e opnd idx g = .ok (digitOf e g) := by
  obtain ⟨h1, h2⟩ := decodedValue_of_valid e g h
  unfold decDigit
  rw [if_neg h1, h2]

theorem decDigit_of_malformed (e : Encoding) (opnd : Bool) (idx : Nat) {g : Group} (h : validGroup e g = false) :
    decDigit e opnd idx g = .error ⟨.invalidDigitGroup, opnd, idx⟩ := by
  unfold decDigit
  rw [if_pos (decodedValue_of_malformed e g h)]

theorem cmplDigit_of_valid (e : Encoding) (opnd : Bool) (idx : Nat) {g : Group} (h : validGroup e g = true) :
    cmplDigit e opnd idx g = .ok (groupOf e (9 - digitOf e g)) := by
  cases e with
  | bcd =>
    simp only [cmplDigit, decDigit_of_valid .bcd opnd idx h, bind, Except.bind]
    exact encDigit_of_le .bcd (by omega)
  | xs3 => revert g; simp only [cmplDigit]; decide

theorem cmplDigit_of_malformed (opnd : Bool) (idx : Nat) {g : Group} (h : validGroup .bcd g = false) :
    cmplDigit .bcd opnd idx g = .error ⟨.invalidDigitGroup, opnd, idx⟩ := by
  simp only [cmplDigit, decDigit_of_malformed .bcd opnd idx h, bind, Except.bind]

theorem cmpl_of_valid (e : Encoding) (opnd : Bool) {E : List Group} (h : AllValid e E) :
    cmpl e opnd E = .ok (ninesOf e E) :=
  mapRaise_of_ok 0 E (fun k g hg => cmplDigit_of_valid e opnd k (h g hg))

theorem cmpl_xs3 (opnd : Bool) (E : List Group) : cmpl .xs3 opnd E = .ok (E.map (~~~ ·)) :=
  mapRaise_of_ok 0 E (fun _ _ _ => rfl)

end Sys2Proof.Machine
end

