-- ==== Sys2Proof/Laws/Params.lean ====
section
/-! SUPPORT. The widths that follow from the parameters (00_scope.md R4): each is the least that holds its range. -/

namespace Sys2Proof.Config

theorem le_two_pow_ceilLog2 (m : Nat) : m ≤ 2 ^ ceilLog2 m := by
  unfold ceilLog2
  split
  · omega
  · have := Nat.lt_log2_self (n := m - 1)
    omega

theorem ceilLog2_le {m w : Nat} (h : m ≤ 2 ^ w) : ceilLog2 m ≤ w := by
  unfold ceilLog2
  split
  · omega
  · rename_i h1
    have := (Nat.log2_lt (n := m - 1) (k := w) (by omega)).mpr (by omega)
    omega

variable (P : Params)

theorem Params.le_NW : 10 ^ P.N ≤ 2 ^ P.NW := le_two_pow_ceilLog2 _

theorem Params.le_RW : 10 ^ P.LMAX ≤ 2 ^ P.RW := le_two_pow_ceilLog2 _

theorem Params.LMAX_lt_LW : P.LMAX < 2 ^ P.LW := le_two_pow_ceilLog2 (P.LMAX + 1)

/-- Some value on `na` is out of range: `10^N` is no power of two. -/
theorem Params.lt_NW : 10 ^ P.N < 2 ^ P.NW := by
  refine lt_of_le_of_ne P.le_NW (fun h => ?_)
  have h5 : 5 ∣ 2 ^ P.NW := by
    rw [← h]
    exact dvd_pow (by norm_num) (by have := P.one_le_N; omega)
  exact absurd (Nat.prime_five.dvd_of_dvd_pow h5) (by norm_num)

end Sys2Proof.Config
end

