-- ==== Sys2Proof/Laws/PerInstr.lean ====
section
/-! SUPPORT. What holds of every instruction, one lemma per constructor: the fields of its command word. -/

namespace Sys2Proof.Laws

/-- The word of an instruction has `RSV` = 00, the trace bit in bit 5, the encoding in bit 4 and the operation in bits 3:0
(30_encoding.md R39). -/
def WordShape.Statement (i : Instr) : Prop :=
  (encodeWord i).extractLsb' 6 2 = 0 ∧ (encodeWord i).getLsbD 5 = i.traceBit ∧ (encodeWord i).getLsbD 4 = i.enc.bit ∧
    (encodeWord i).extractLsb' 0 4 = i.op.code

theorem WordShape.encdB (t : Bool) : WordShape.Statement (.encdB t) := by
  cases t <;> exact ⟨rfl, rfl, rfl, rfl⟩

theorem WordShape.encdX (t : Bool) : WordShape.Statement (.encdX t) := by
  cases t <;> exact ⟨rfl, rfl, rfl, rfl⟩

theorem WordShape.decdB (t : Bool) : WordShape.Statement (.decdB t) := by
  cases t <;> exact ⟨rfl, rfl, rfl, rfl⟩

theorem WordShape.decdX (t : Bool) : WordShape.Statement (.decdX t) := by
  cases t <;> exact ⟨rfl, rfl, rfl, rfl⟩

theorem WordShape.encnB (t : Bool) : WordShape.Statement (.encnB t) := by
  cases t <;> exact ⟨rfl, rfl, rfl, rfl⟩

theorem WordShape.encnX (t : Bool) : WordShape.Statement (.encnX t) := by
  cases t <;> exact ⟨rfl, rfl, rfl, rfl⟩

theorem WordShape.decnB (t : Bool) : WordShape.Statement (.decnB t) := by
  cases t <;> exact ⟨rfl, rfl, rfl, rfl⟩

theorem WordShape.decnX (t : Bool) : WordShape.Statement (.decnX t) := by
  cases t <;> exact ⟨rfl, rfl, rfl, rfl⟩

theorem WordShape.padB (t : Bool) : WordShape.Statement (.padB t) := by
  cases t <;> exact ⟨rfl, rfl, rfl, rfl⟩

theorem WordShape.padX (t : Bool) : WordShape.Statement (.padX t) := by
  cases t <;> exact ⟨rfl, rfl, rfl, rfl⟩

theorem WordShape.algnB (t : Bool) : WordShape.Statement (.algnB t) := by
  cases t <;> exact ⟨rfl, rfl, rfl, rfl⟩

theorem WordShape.algnX (t : Bool) : WordShape.Statement (.algnX t) := by
  cases t <;> exact ⟨rfl, rfl, rfl, rfl⟩

theorem WordShape.addgB (t : Bool) : WordShape.Statement (.addgB t) := by
  cases t <;> exact ⟨rfl, rfl, rfl, rfl⟩

theorem WordShape.addgX (t : Bool) : WordShape.Statement (.addgX t) := by
  cases t <;> exact ⟨rfl, rfl, rfl, rfl⟩

theorem WordShape.cmplB (t : Bool) : WordShape.Statement (.cmplB t) := by
  cases t <;> exact ⟨rfl, rfl, rfl, rfl⟩

theorem WordShape.cmplX (t : Bool) : WordShape.Statement (.cmplX t) := by
  cases t <;> exact ⟨rfl, rfl, rfl, rfl⟩

theorem WordShape.addB (t : Bool) : WordShape.Statement (.addB t) := by
  cases t <;> exact ⟨rfl, rfl, rfl, rfl⟩

theorem WordShape.addX (t : Bool) : WordShape.Statement (.addX t) := by
  cases t <;> exact ⟨rfl, rfl, rfl, rfl⟩

theorem WordShape.subB (t : Bool) : WordShape.Statement (.subB t) := by
  cases t <;> exact ⟨rfl, rfl, rfl, rfl⟩

theorem WordShape.subX (t : Bool) : WordShape.Statement (.subX t) := by
  cases t <;> exact ⟨rfl, rfl, rfl, rfl⟩

end Sys2Proof.Laws
end

