-- ==== Sys2Proof/Laws/Sequences.lean ====
section
/-! SUPPORT. Sequences: their decimal value, their hexadecimal vector on a port, the loop of `decn`, and one position of an
adder pass. -/

namespace Sys2Proof.Machine

open Sys2Proof.Config Sys2Proof.Safety

variable {P : Params}

/-! ### The decimal value of a sequence -/

@[simp] theorem seqValue_nil (e : Encoding) : seqValue e [] = 0 := rfl

theorem seqValue_cons (e : Encoding) (g : Group) (E : List Group) :
    seqValue e (g :: E) = digitOf e g * 10 ^ E.length + seqValue e E := by
  simp [seqValue, Nat.ofDigits_append, Nat.ofDigits_singleton]
  ring

theorem seqValue_append (e : Encoding) (A B : List Group) :
    seqValue e (A ++ B) = seqValue e A * 10 ^ B.length + seqValue e B := by
  simp [seqValue, Nat.ofDigits_append]
  ring

theorem seqValue_lt (e : Encoding) (E : List Group) (h : AllValid e E) : seqValue e E < 10 ^ E.length := by
  induction E with
  | nil => simp
  | cons g E ih =>
    have h1 := digitOf_le e (h g List.mem_cons_self)
    have h2 := ih (fun x hx => h x (List.mem_cons_of_mem _ hx))
    rw [seqValue_cons, List.length_cons, pow_succ]
    nlinarith [Nat.mul_le_mul_right (10 ^ E.length) h1]

/-! ### A sequence on a port -/

@[simp] theorem groups_length (p : EncPort P) : p.groups.length = p.len.toNat := by simp [EncPort.groups]

theorem hexValue_append_singleton (E : List Group) (g : Group) : hexValue (E ++ [g]) = 16 * hexValue E + g.toNat := by
  simp [hexValue]

theorem hexValue_lt (E : List Group) : hexValue E < 16 ^ E.length := by
  induction E using List.reverseRecOn with
  | nil => simp [hexValue]
  | append_singleton E g ih =>
    rw [hexValue_append_singleton, List.length_append, List.length_singleton, pow_succ]
    have := g.isLt
    omega

theorem hexValue_digit (E : List Group) (k : Nat) (h : k < E.length) :
    hexValue E / 16 ^ (E.length - 1 - k) % 16 = (E.getD k 0).toNat := by
  induction E using List.reverseRecOn with
  | nil => simp at h
  | append_singleton E g ih =>
    rw [hexValue_append_singleton]
    by_cases hk : k < E.length
    · have hl : (E ++ [g]).length - 1 - k = (E.length - 1 - k) + 1 := by simp; omega
      rw [hl, pow_succ, mul_comm (16 ^ _) 16, ← Nat.div_div_eq_div_mul, Nat.mul_add_div (by norm_num),
        Nat.div_eq_of_lt g.isLt, Nat.add_zero, ih hk]
      simp [List.getD, List.getElem?_append_left hk]
    · obtain rfl : k = E.length := by simp at h; omega
      have := g.isLt
      simp [List.getD]
      omega

/-! ### The loop of `decn` -/

theorem decnFrom_of_valid (e : Encoding) (opnd : Bool) (E : List Group) :
    ∀ k v, AllValid e E → decnFrom e opnd k v E = .ok (v * 10 ^ E.length + seqValue e E) := by
  induction E with
  | nil => intro k v _; simp [decnFrom]
  | cons g E ih =>
    intro k v h
    rw [decnFrom, decDigit_of_valid e opnd k (h g List.mem_cons_self)]
    simp only [bind, Except.bind]
    rw [ih _ _ (fun x hx => h x (List.mem_cons_of_mem _ hx)), seqValue_cons, List.length_cons]
    congr 1
    ring

/-! ### One position of an adder pass -/

/-- Both digit rules on two valid groups: a valid group and a decimal carry. -/
theorem addDigit_of_valid : ∀ (e : Encoding) (a b : Group) (c : Bool), validGroup e a = true → validGroup e b = true →
    validGroup e (addDigit e a b c).fixed = true ∧
      digitOf e (addDigit e a b c).fixed + 10 * (addDigit e a b c).cout.toNat = digitOf e a + digitOf e b + c.toNat := by
  intro e
  cases e <;> set_option maxRecDepth 20000 in decide

/-- Both digit rules on any groups, in closed form. -/
theorem addDigit_closed : ∀ (e : Encoding) (a b : Group) (c : Bool),
    (addDigit e a b c).raw = a.toNat + b.toNat + c.toNat ∧
    (addDigit e a b c).fixed = closedFixed e (a.toNat + b.toNat + c.toNat) ∧
    (addDigit e a b c).cout = closedCarry e (a.toNat + b.toNat + c.toNat) ∧
    (addDigit e a b c).corr = closedCorr e (a.toNat + b.toNat + c.toNat) ∧
    (addDigit e a b c).bcarry = decide (a.toNat + b.toNat + c.toNat > 15) := by
  intro e
  cases e <;> set_option maxRecDepth 20000 in decide

@[simp] theorem addPass_nil (e : Encoding) (pass c0 : Bool) (pos : Nat) (B : List Group) :
    addPass P e pass c0 pos [] B = ⟨[], c0, []⟩ := rfl

theorem emitted_append (t : Bool) (x y : List (TraceRec P)) :
    emitted t (x ++ y) = emitted t x ++ emitted t y := by
  unfold emitted
  split <;> simp

end Sys2Proof.Machine
end

