-- ==== Sys2Proof/Laws/Phases.lean ====
section
/-! SUPPORT. The two views: `exec` as one transaction, the `start` edge, the sampled command word, and what a change of the
pins does to a phase step. -/

namespace Sys2Proof.Machine

open Sys2Proof.Config Sys2Proof.Safety

variable {P : Params}

/-! ### Instructions by operation, encoding and trace bit -/

theorem instr_eq_instrOf (i : Instr) : i = instrOf i.op i.enc i.traceBit := by cases i <;> rfl

@[simp] theorem instrOf_op (op : Op) (e : Encoding) (t : Bool) : (instrOf op e t).op = op := by cases op <;> cases e <;> rfl

@[simp] theorem instrOf_enc (op : Op) (e : Encoding) (t : Bool) : (instrOf op e t).enc = e := by cases op <;> cases e <;> rfl

@[simp] theorem instrOf_traceBit (op : Op) (e : Encoding) (t : Bool) : (instrOf op e t).traceBit = t := by
  cases op <;> cases e <;> rfl

/-! ### `exec` is one transaction -/

theorem exec_eq_transact (i : Instr) (s : Block P) :
    exec i ⟨P, s⟩ = .next ⟨P, s.transact (firstPhase i.op) (commandFn i)⟩ := by
  cases i <;> rfl

theorem exec_eq_next (i : Instr) (s : Block P) :
    exec i ⟨P, s⟩ = .next ⟨P, (s.accept (firstPhase i.op)).settle (commandFn i s.pins.ops)⟩ := by
  rw [exec_eq_transact]
  rfl

/-! ### The `start` edge -/

theorem startEdge_of_ok {s : Block P} {i : Instr} (h : decodeWord s.pins.cw = .ok i) :
    s.startEdge = s.accept (firstPhase i.op) := by
  simp [Block.startEdge, Block.fetch, decode, h]

theorem startEdge_of_error {s : Block P} {e : Reject} (h : decodeWord s.pins.cw = .error e) :
    s.startEdge = s.rejectCommand := by
  simp [Block.startEdge, Block.fetch, decode, h]

theorem edge_of_busy {s : Block P} (hr : s.pins.rst = false) (hb : s.busy = true) : edge s = phaseStep s := by
  simp [edge, hr, hb]

/-! ### What a step can do -/

theorem step_of_rst {s : Block P} (hr : s.pins.rst = true) : step ⟨P, s⟩ = .next ⟨P, s.resetEdge⟩ := by simp [step, hr]

theorem step_of_busy {s : Block P} (hr : s.pins.rst = false) (hb : s.busy = true) :
    step ⟨P, s⟩ = .next ⟨P, phaseStep s⟩ := by simp [step, hr, hb]

theorem step_of_command {s : Block P} {i : Instr} (hr : s.pins.rst = false) (hb : s.busy = false) (hs : s.pins.start = true)
    (h : decodeWord s.pins.cw = .ok i) :
    step ⟨P, s⟩ = .next ⟨P, (s.accept (firstPhase i.op)).settle (commandFn i s.pins.ops)⟩ := by
  simp [step, hr, hb, hs, Block.fetch, decode, h, exec_eq_next]

theorem step_of_reserved {s : Block P} {e : Reject} (hr : s.pins.rst = false) (hb : s.busy = false)
    (hs : s.pins.start = true) (h : decodeWord s.pins.cw = .error e) : step ⟨P, s⟩ = .next ⟨P, s.rejectCommand⟩ := by
  simp [step, hr, hb, hs, Block.fetch, decode, h]

theorem step_of_waiting {s : Block P} (hr : s.pins.rst = false) (hb : s.busy = false) (hs : s.pins.start = false) :
    step ⟨P, s⟩ = .next ⟨P, s⟩ := by simp [step, hr, hb, hs]

/-- The five things a step can do: reset, the next phase step, a whole command, IllegalCommand, or nothing. -/
theorem step_cases (s : Block P) :
    (s.pins.rst = true ∧ step ⟨P, s⟩ = .next ⟨P, s.resetEdge⟩) ∨
    (s.pins.rst = false ∧ s.busy = true ∧ step ⟨P, s⟩ = .next ⟨P, phaseStep s⟩) ∨
    (s.pins.rst = false ∧ s.busy = false ∧ s.pins.start = true ∧ ∃ i, decodeWord s.pins.cw = .ok i ∧
      step ⟨P, s⟩ = .next ⟨P, (s.accept (firstPhase i.op)).settle (commandFn i s.pins.ops)⟩) ∨
    (s.pins.rst = false ∧ s.busy = false ∧ s.pins.start = true ∧ (∃ e, decodeWord s.pins.cw = .error e) ∧
      step ⟨P, s⟩ = .next ⟨P, s.rejectCommand⟩) ∨
    (s.pins.rst = false ∧ s.busy = false ∧ s.pins.start = false ∧ step ⟨P, s⟩ = .next ⟨P, s⟩) := by
  cases hr : s.pins.rst
  · cases hb : s.busy
    · cases hs : s.pins.start
      · simp [step_of_waiting hr hb hs]
      · cases h : decodeWord s.pins.cw with
        | ok i => simp [step_of_command hr hb hs h]
        | error e => simp [step_of_reserved hr hb hs h]
    · simp [step_of_busy hr hb]
  · simp [step_of_rst hr]

/-! ### The sampled command word -/

/-- In a state with a command in flight, the fields of the sampled word are those of the command. -/
theorem fields_of_inFlight {s : Block P} {op : Op} {e : Encoding} {t : Bool} (h : InFlight s op e t) :
    s.cwEnc = e ∧ s.cwTrace = t ∧ s.cwIsSub = (op == .sub) := by
  unfold InFlight decodeWord at h
  simp only at h
  split at h
  · cases hc : Op.ofCode (splitWord s.cwQ).op with
    | none => rw [hc] at h; cases h
    | some op' =>
      rw [hc] at h
      have h := Except.ok.inj h
      have h1 := congrArg Instr.op h
      have h2 := congrArg Instr.enc h
      have h3 := congrArg Instr.traceBit h
      simp only [instrOf_op, instrOf_enc, instrOf_traceBit] at h1 h2 h3
      refine ⟨h2, h3, ?_⟩
      unfold Block.cwIsSub
      rw [hc, h1]
      rfl
  · cases h

/-! ### A change of the pins -/

theorem drive_settle (s : Block P) (p : Pins P) (x : Except FaultRec (Results P)) :
    (s.drive p).settle x = (s.settle x).drive p := by
  cases x <;> rfl

theorem drive_magnitudePass (s : Block P) (p : Pins P) (K one : List Group) :
    (s.drive p).magnitudePass K one = (s.magnitudePass K one).drive p := by
  unfold Block.magnitudePass
  by_cases hs : addsOne P.xs3RecompInc s.cwEnc = true
  · rw [if_pos hs, if_pos (by exact hs)]; rfl
  · rw [if_neg hs, if_neg (by exact hs)]; rfl

/-- The end of a transaction depends on the working registers and the outputs of the state it ends in not at all. -/
theorem magnitudePass_settle (s : Block P) (K one : List Group) (x : Except FaultRec (Results P)) :
    (s.magnitudePass K one).settle x = s.settle x := by
  unfold Block.magnitudePass
  split <;> cases x <;> rfl

end Sys2Proof.Machine
end

