-- ==== Sys2Proof/Tests/Slice0.lean ====
section
/-! SUPPORT. Tests with expected values from spec/95_test_vectors.md or worked out by hand from the rules, and, for each
statement with hypotheses, a state and operands that meet them. -/

namespace Sys2Proof.Tests

open Sys2Proof.Config Sys2Proof.Machine Sys2Proof.Safety

/-! ### Helpers -/

/-- A block with `TRACE` = 1, one with `XS3_RECOMP_INC` = 1, one with both; `N` = 4. -/
def traced : Params := { N := 4, xs3RecompInc := false, trace := true, one_le_N := by decide }
def incr : Params := { N := 4, xs3RecompInc := true, trace := false, one_le_N := by decide }
def both : Params := { N := 4, xs3RecompInc := true, trace := true, one_le_N := by decide }

/-- The smallest block, `N` = 1, and one with `N` = 8. -/
def smallest : Params := { N := 1, xs3RecompInc := false, trace := false, one_le_N := by decide }
def wide : Params := { N := 8, xs3RecompInc := false, trace := false, one_le_N := by decide }

/-- Operand ports at rest. -/
def ops0 {P : Params} : Operands P := Pins.idle.ops

/-- A sequence port. -/
def port {P : Params} (len grp : Nat) : EncPort P := ⟨BitVec.ofNat P.LW len, BitVec.ofNat (4 * P.LMAX) grp⟩

/-- A sequence port of a block with the default parameters. -/
def portD (len grp : Nat) : EncPort Params.default := port len grp

/-- A block just reset, with a command word and operands presented. -/
def present {P : Params} (w : CmdWord) (o : Operands P) : Block P :=
  Block.afterReset { rst := false, start := true, cw := w, ops := o } 0

/-- The state one step leads to. -/
def run (s : State) : State :=
  match step s with
  | .next t => t
  | _ => s

/-- One command on a block with the given parameters. -/
def cmdOn (P : Params) (w : CmdWord) (o : Operands P) : State := run ⟨P, present w o⟩

/-- One command on a block with the default parameters. -/
def cmd (w : CmdWord) (o : Operands Params.default) : State := cmdOn Params.default w o

/-- A sequence port as numbers: the length and the vector. -/
def portOf {P : Params} (p : EncPort P) : Nat × Nat := (p.len.toNat, p.grp.toNat)

/-- `ra` and `rb` as numbers. -/
def raOf (s : State) : Nat × Nat := portOf s.block.out.ra
def rbOf (s : State) : Nat × Nat := portOf s.block.out.rb

/-- The fault a state reports. -/
def faultOf (s : State) : Bool × BitVec 4 × Bool × Nat :=
  (s.block.errValid, s.block.err.code, s.block.err.opnd, s.block.err.idx.toNat)

/-- `ra`, `cout`, `mag`, `neg`, `match`: what ADD and SUB write. -/
def outputsOf {P : Params} (s : Block P) : (Nat × Nat) × Bool × Nat × Bool × Bool :=
  (portOf s.out.ra, s.out.cout, s.out.mag.toNat, s.out.neg, s.out.matchRef)
def pathOf (s : State) : (Nat × Nat) × Bool × Nat × Bool × Bool := outputsOf s.block

/-- The trace records as numbers, in the order of R78's fields, with its codes for `corr`. -/
def traceOf (s : State) : List (List Nat) :=
  s.block.out.trace.map (fun r =>
    [r.pass.toNat, r.pos.toNat, r.a.toNat, r.b.toNat, r.cin.toNat, r.raw.toNat, r.bcarry.toNat, (corrCode r.corr).toNat,
     r.fixed.toNat, r.cout.toNat])

/-! ### Well-formedness (R39, R40, R45) -/

theorem test_wf_accepts_legal_fields : CmdFields.wf ⟨0, true, .xs3, 0xA⟩ = true := by decide

theorem test_wf_refuses_reserved_bits :
    CmdFields.rsvOk ⟨0b01, false, .bcd, 0x9⟩ = false ∧ CmdFields.wf ⟨0b01, false, .bcd, 0x9⟩ = false := by decide

theorem test_wf_refuses_op_zero : CmdFields.opOk ⟨0, false, .bcd, 0x0⟩ = false ∧ CmdFields.wf ⟨0, false, .bcd, 0x0⟩ = false := by
  decide

theorem test_wf_refuses_op_eleven : CmdFields.opOk ⟨0, false, .xs3, 0xB⟩ = false ∧ CmdFields.wf ⟨0, false, .xs3, 0xB⟩ = false := by
  decide

/-! ### Decoding: words written out from R39 and R40, RSV T E OP -/

theorem test_decode_encdB : decode [0b00_0_0_0001] = .ok (.encdB false, []) := by decide
theorem test_decode_encdX : decode [0b00_1_1_0001] = .ok (.encdX true, []) := by decide
theorem test_decode_decdB : decode [0b00_0_0_0010] = .ok (.decdB false, []) := by decide
theorem test_decode_decdX : decode [0b00_0_1_0010] = .ok (.decdX false, []) := by decide
theorem test_decode_encnB : decode [0b00_1_0_0011] = .ok (.encnB true, []) := by decide
theorem test_decode_encnX : decode [0b00_0_1_0011] = .ok (.encnX false, []) := by decide
theorem test_decode_decnB : decode [0b00_0_0_0100] = .ok (.decnB false, []) := by decide
theorem test_decode_decnX : decode [0b00_1_1_0100] = .ok (.decnX true, []) := by decide
theorem test_decode_padB : decode [0b00_0_0_0101] = .ok (.padB false, []) := by decide
theorem test_decode_padX : decode [0b00_0_1_0101] = .ok (.padX false, []) := by decide
theorem test_decode_algnB : decode [0b00_1_0_0110] = .ok (.algnB true, []) := by decide
theorem test_decode_algnX : decode [0b00_0_1_0110] = .ok (.algnX false, []) := by decide
theorem test_decode_addgB : decode [0b00_0_0_0111] = .ok (.addgB false, []) := by decide
theorem test_decode_addgX : decode [0b00_1_1_0111] = .ok (.addgX true, []) := by decide
theorem test_decode_cmplB : decode [0b00_0_0_1000] = .ok (.cmplB false, []) := by decide
theorem test_decode_cmplX : decode [0b00_0_1_1000] = .ok (.cmplX false, []) := by decide
theorem test_decode_addB : decode [0b00_0_0_1001] = .ok (.addB false, []) := by decide
theorem test_decode_addX : decode [0b00_1_1_1001] = .ok (.addX true, []) := by decide
theorem test_decode_subB : decode [0b00_0_0_1010] = .ok (.subB false, []) := by decide
theorem test_decode_subX : decode [0b00_1_1_1010] = .ok (.subX true, []) := by decide

theorem test_decode_refuses_zero : decode [0b00_0_0_0000] = .error (.reservedOp 0) := by decide
theorem test_decode_refuses_op_eleven : decode [0b00_1_1_1011] = .error (.reservedOp 0xB) := by decide
theorem test_decode_refuses_reserved_bits : decode [0b10_0_0_1001] = .error (.reservedBits 0b10) := by decide
theorem test_decode_refuses_nothing : decode [] = .error .noWord := by decide
theorem test_decode_leaves_the_rest : decode [0x09, 0x00] = .ok (.addB false, [0x00]) := by decide

/-- R47: the word of `SUB.X.T` is 0x3A, of `ADD.B` 0x09. -/
theorem test_encode_subXT_addB : encode (.subX true) = [0x3A] ∧ encode (.addB false) = [0x09] := by decide

theorem test_decodeTableWord : decodeTableWord 8 0x1A = some (.subX false) ∧ decodeTableWord 8 0x0F = none := by decide

/-! ### One step of each instruction (95_test_vectors.md section 2) -/

theorem test_encdB_nine : (cmd 0x01 { ops0 with x4 := 9 }).block.out.rX4 = 0b1001 := by decide
theorem test_encdB_ten_faults : faultOf (cmd 0x01 { ops0 with x4 := 10 }) = (true, 0x2, false, 0) := by decide
theorem test_encdX_seven : (cmd 0x11 { ops0 with x4 := 7 }).block.out.rX4 = 0b1010 := by decide
theorem test_encdX_fifteen_faults : faultOf (cmd 0x11 { ops0 with x4 := 15 }) = (true, 0x2, false, 0) := by decide
theorem test_decdB_nine : (cmd 0x02 { ops0 with x4 := 0b1001 }).block.out.rX4 = 9 := by decide
theorem test_decdB_ten_faults : faultOf (cmd 0x02 { ops0 with x4 := 0b1010 }) = (true, 0x1, false, 0) := by decide
theorem test_decdX_twelve : (cmd 0x12 { ops0 with x4 := 0b1100 }).block.out.rX4 = 9 := by decide
theorem test_decdX_two_faults : faultOf (cmd 0x12 { ops0 with x4 := 0b0010 }) = (true, 0x1, false, 0) := by decide

theorem test_encnB_1234 : raOf (cmd 0x03 { ops0 with na := 1234 }) = (4, 0x1234) := by decide
theorem test_encnB_10000_faults : faultOf (cmd 0x03 { ops0 with na := 10000 }) = (true, 0x2, false, 0) := by decide
theorem test_encnX_100 : raOf (cmd 0x13 { ops0 with na := 100 }) = (3, 0x433) := by decide
theorem test_encnX_zero : raOf (cmd 0x13 { ops0 with na := 0 }) = (1, 0x3) := by decide
theorem test_decnB_ignores_bits_above : (cmd 0x04 { ops0 with ea := port 2 0xFFF12 }).block.out.mag.toNat = 12 := by decide
theorem test_decnB_names_the_group :
    faultOf (cmd 0x04 { ops0 with ea := port 3 0x1A3 }) = (true, 0x1, false, 1) := by decide
theorem test_decnX_99999 :
    (cmd 0x14 { ops0 with ea := port 5 0xCCCCC }).block.out.mag.toNat = 99999 ∧
    (cmd 0x14 { ops0 with ea := port 5 0xCCCCC }).block.out.neg = false := by decide
theorem test_decnX_length_wins : faultOf (cmd 0x14 { ops0 with ea := port 6 0 }) = (true, 0x5, false, 0) := by decide

theorem test_padB_lengthens_the_shorter :
    raOf (cmd 0x05 { ops0 with ea := port 1 0x7, eb := port 3 0x125 }) = (3, 0x007) ∧
    rbOf (cmd 0x05 { ops0 with ea := port 1 0x7, eb := port 3 0x125 }) = (3, 0x125) := by decide
theorem test_padB_second_length_faults :
    faultOf (cmd 0x05 { ops0 with ea := port 1 1, eb := port 6 0 }) = (true, 0x5, true, 0) := by decide
theorem test_padX_pads_with_0011 :
    rbOf (cmd 0x15 { ops0 with ea := port 4 0x4567, eb := port 1 0x8 }) = (4, 0x3338) := by decide
theorem test_padX_passes_malformed : rbOf (cmd 0x15 { ops0 with ea := port 1 0, eb := port 2 0xFF }) = (2, 0xFF) := by
  decide
theorem test_algnB_reserves_a_digit :
    raOf (cmd 0x06 { ops0 with ea := port 1 0x7, eb := port 3 0x125 }) = (4, 0x0007) := by decide
theorem test_algnB_names_the_longer :
    faultOf (cmd 0x06 { ops0 with ea := port 1 0x1, eb := port 5 0x12345 }) = (true, 0x5, true, 0) := by decide
theorem test_algnX_reserves_0011 :
    rbOf (cmd 0x16 { ops0 with ea := port 2 0x45, eb := port 2 0x67 }) = (3, 0x367) := by decide
theorem test_algnX_tie_names_the_first :
    faultOf (cmd 0x16 { ops0 with ea := port 5 0x33333, eb := port 5 0x33333 }) = (true, 0x5, false, 0) := by decide

/-- The forcing line of R70: 9 + 9 + 1 = 19, raw sum 19. -/
theorem test_addgB_forcing_line :
    raOf (cmd 0x07 { ops0 with ea := port 1 9, eb := port 1 9, c0 := true }) = (1, 9) ∧
    (cmd 0x07 { ops0 with ea := port 1 9, eb := port 1 9, c0 := true }).block.out.cout = true := by decide
theorem test_addgB_unequal_faults :
    faultOf (cmd 0x07 { ops0 with ea := port 2 0x12, eb := port 1 0x3 }) = (true, 0x5, true, 0) := by decide
theorem test_addgX_ripple :
    raOf (cmd 0x17 { ops0 with ea := port 2 0xCC, eb := port 2 0x34 }) = (2, 0x33) ∧
    (cmd 0x17 { ops0 with ea := port 2 0xCC, eb := port 2 0x34 }).block.out.cout = true := by decide
theorem test_addgX_malformed_wraps :
    raOf (cmd 0x17 { ops0 with ea := port 1 0xF, eb := port 1 0xF, c0 := true }) = (1, 0x2) := by decide
theorem test_cmplB_0125 : raOf (cmd 0x08 { ops0 with ea := port 4 0x0125 }) = (4, 0x9874) := by decide
theorem test_cmplB_names_the_lowest :
    faultOf (cmd 0x08 { ops0 with ea := port 3 0xF2F }) = (true, 0x1, false, 0) := by decide
theorem test_cmplX_malformed : raOf (cmd 0x18 { ops0 with ea := port 3 0x0F7 }) = (3, 0xF08) := by decide
theorem test_cmplX_zero_length_faults : faultOf (cmd 0x18 { ops0 with ea := port 0 0 }) = (true, 0x5, false, 0) := by decide

theorem test_addB_carries_through :
    pathOf (cmd 0x09 { ops0 with na := 9999, nb := 1 }) = ((5, 0x10000), false, 10000, false, true) := by decide
/-- The trace of `ADD.B.T 7, 5` (95_test_vectors.md section 1.1). -/
theorem test_addB_trace :
    traceOf (cmdOn traced 0x29 { ops0 with na := 7, nb := 5 }) =
      [[0, 1, 7, 5, 0, 12, 0, 1, 2, 1], [0, 0, 0, 0, 1, 1, 0, 0, 1, 0]] := by decide
theorem test_addX_9999 :
    pathOf (cmd 0x19 { ops0 with na := 9999, nb := 9999 }) = ((5, 0x4CCCB), false, 19998, false, true) := by decide
theorem test_addX_second_operand_faults :
    faultOf (cmd 0x19 { ops0 with na := 0, nb := 10000 }) = (true, 0x2, true, 0) := by decide
theorem test_subB_negative :
    pathOf (cmd 0x0A { ops0 with na := 5, nb := 7 }) = ((2, 0x98), false, 2, true, true) := by decide
/-- The trace of `SUB.B.T 5, 7` (95_test_vectors.md section 1.2): two passes. -/
theorem test_subB_trace :
    traceOf (cmdOn traced 0x2A { ops0 with na := 5, nb := 7 }) =
      [[0, 1, 5, 2, 1, 8, 0, 0, 8, 0], [0, 0, 0, 9, 0, 9, 0, 0, 9, 0],
       [1, 1, 1, 1, 0, 2, 0, 0, 2, 0], [1, 0, 0, 0, 0, 0, 0, 0, 0, 0]] := by decide
theorem test_subX_negative_by_default :
    pathOf (cmd 0x1A { ops0 with na := 5, nb := 7 }) = ((2, 0xCB), false, 1, true, false) := by decide
theorem test_subX_negative_adding_one :
    pathOf (cmdOn incr 0x1A { ops0 with na := 5, nb := 7 }) = ((2, 0xCB), false, 2, true, true) := by decide

/-! ### The protocol -/

theorem test_illegal_command_faults : faultOf (cmd 0x49 ops0) = (true, 0x4, false, 0) := by decide
theorem test_subB_positive_phase : (cmd 0x0A { ops0 with na := 9, nb := 9 }).block.ph = .donePositive := by decide
theorem test_status_bits : (cmd 0x1A { ops0 with na := 9, nb := 9 }).block.status = 0b01010100 := by decide
theorem test_flags_of_a_fault :
    (cmd 0x00 ops0).block.busy = false ∧ (cmd 0x00 ops0).block.done = true ∧ (cmd 0x00 ops0).block.errValid = true := by decide
theorem test_flags_while_busy :
    (edge (@present Params.default 0x09 ops0)).busy = true ∧ (edge (@present Params.default 0x09 ops0)).done = false ∧
    (edge (@present Params.default 0x09 ops0)).errValid = false := by decide
theorem test_start_enters_align : (edge (@present Params.default 0x0A ops0)).ph = .align := by decide
/-- `SUB.B 5, 7` takes six edges to DONE_NEGATIVE, and the sixth gives what the one step gives. -/
theorem test_phases_of_subB :
    outputsOf (edge^[6] (@present Params.default 0x0A { ops0 with na := 5, nb := 7 })) = ((2, 0x98), false, 2, true, true) := by
  decide
theorem test_withFetchWord_runs_it :
    raOf (run (State.reset.withFetchWord 8 0x13)) = (1, 0x3) ∧ (run (State.reset.withFetchWord 8 0x13)).block.ph = .done := by
  decide

/-! ### Other parameters (00_scope.md R4) -/

/-- The widths R4's table gives for the default `N`. -/
theorem test_default_widths :
    (Params.default.N, Params.default.LMAX, Params.default.NW, Params.default.RW, Params.default.LW) = (4, 5, 14, 17, 3) := by
  decide

/-- By hand: `10^1` needs 4 bits, `10^2` needs 7, and the lengths 0 to 2 need 2. -/
theorem test_smallest_widths : (smallest.LMAX, smallest.NW, smallest.RW, smallest.LW) = (2, 4, 7, 2) := by decide
theorem test_smallest_addB : pathOf (cmdOn smallest 0x09 { ops0 with na := 9, nb := 9 }) = ((2, 0x18), false, 18, false, true) := by
  decide
theorem test_smallest_out_of_range :
    faultOf (cmdOn smallest 0x03 { ops0 with na := 10 }) = (true, 0x2, false, 0) := by decide
theorem test_wide_subB :
    pathOf (cmdOn wide 0x0A { ops0 with na := 12345678, nb := 87654321 }) =
      ((9, 0x924691357), false, 75308643, true, true) := by
  set_option maxRecDepth 4000 in decide

/-! ### Witnesses: states and operands that meet the hypotheses of the statements -/

/-- A block that waits, with `SUB.B 5, 7` presented. -/
def waiting : Block Params.default := @present Params.default 0x0A { ops0 with na := 5, nb := 7 }

/-- A block in phase ALIGN, and one in FAULT with a command presented. -/
def inAlign : Block Params.default := edge waiting
def inFault : Block Params.default := (run ⟨Params.default, present 0x00 ops0⟩).block.drive { Pins.idle with start := true, cw := 0x01 }

theorem witness_DecodeOfEncodeIsTheInstr : Instr.wf (.subX true) = true := by decide

theorem witness_EncodeOfDecodeIsTheWord : decodeWord 0x3A = .ok (.subX true) := by decide

theorem witness_PortPackingIsRightAligned :
    (1 ≤ [(7 : Group)].length ∧ [(7 : Group)].length ≤ Params.default.LMAX) ∧
    (1 ≤ [(1 : Group), 2, 3, 4, 5].length ∧ [(1 : Group), 2, 3, 4, 5].length ≤ Params.default.LMAX) ∧
    0 < (portD 1 0x7).len.toNat ∧ 4 < (portD 5 0x12345).len.toNat := by decide

theorem witness_StepRunsTheDecodedInstr :
    waiting.pins.rst = false ∧ waiting.busy = false ∧ waiting.pins.start = true ∧
    decode waiting.fetch = .ok (.subB false, []) := by decide

theorem witness_ReservedWordRaisesIllegalCommand :
    ((@present Params.default 0x00 ops0).pins.rst = false ∧ (@present Params.default 0x00 ops0).busy = false ∧
      (@present Params.default 0x00 ops0).pins.start = true ∧ (0x00 : CmdWord).toNat % 16 = 0) ∧
    11 ≤ (0x0B : CmdWord).toNat % 16 ∧ 11 ≤ (0x0F : CmdWord).toNat % 16 ∧ (0x41 : CmdWord).toNat / 64 ≠ 0 ∧
    (0xCA : CmdWord).toNat / 64 ≠ 0 := by decide

theorem witness_InputsAreSampledAtStartOnly :
    (waiting.pins.rst = false ∧ waiting.busy = false ∧ waiting.pins.start = true ∧ (decodeWord waiting.pins.cw).isOk = true) ∧
    inAlign.busy = true ∧ inAlign.pins.rst = false ∧ (Pins.idle : Pins Params.default).rst = false := by decide

theorem witness_StartWhileBusyIsIgnored : inAlign.busy = true ∧ step ⟨_, inAlign⟩ = .next ⟨_, phaseStep inAlign⟩ := ⟨by decide, rfl⟩

/-- Two blocks, one in ALIGN and one waiting, with the same pins, parameters and counter. -/
theorem witness_ResetEdgeGivesTheResetState :
    (inAlign.drive { Pins.idle with rst := true }).pins.rst = true ∧
    (({ waiting with fresh := 2 } : Block _).drive { Pins.idle with rst := true }).pins =
      (inAlign.drive { Pins.idle with rst := true }).pins ∧
    (({ waiting with fresh := 2 } : Block _).drive { Pins.idle with rst := true }).fresh =
      (inAlign.drive { Pins.idle with rst := true }).fresh := by decide

theorem witness_BlockWaitsForStart :
    State.reset.block.pins.rst = false ∧ State.reset.block.busy = false ∧ State.reset.block.pins.start = false := by decide

theorem witness_StartLeavesTheFault :
    (inFault.ph = .fault ∧ inFault.pins.rst = false ∧ inFault.pins.start = true ∧ (decodeWord inFault.pins.cw).isOk = true) ∧
    exec (.subB false) ⟨_, waiting⟩ = .next (run ⟨_, waiting⟩) ∧ (run ⟨_, waiting⟩).block.ph ≠ .fault := ⟨by decide, rfl, by decide⟩

theorem witness_EncdEncodesADigit :
    (@present Params.default 0x01 { ops0 with x4 := 9 }).pins.ops.x4.toNat ≤ 9 ∧
    9 < (@present Params.default 0x01 { ops0 with x4 := 10 }).pins.ops.x4.toNat := by decide

theorem witness_DecdDecodesAGroup :
    validGroup .bcd (@present Params.default 0x02 { ops0 with x4 := 9 }).pins.ops.x4 = true ∧
    validGroup .bcd (@present Params.default 0x02 { ops0 with x4 := 10 }).pins.ops.x4 = false ∧
    validGroup .xs3 (@present Params.default 0x12 { ops0 with x4 := 3 }).pins.ops.x4 = true ∧
    validGroup .xs3 (@present Params.default 0x12 { ops0 with x4 := 12 }).pins.ops.x4 = true ∧
    validGroup .xs3 (@present Params.default 0x12 { ops0 with x4 := 2 }).pins.ops.x4 = false ∧
    validGroup .xs3 (@present Params.default 0x12 { ops0 with x4 := 13 }).pins.ops.x4 = false := by decide

theorem witness_DigitRoundTrip : 9 ≤ 9 ∧ validGroup .bcd 9 = true ∧ validGroup .xs3 12 = true := by decide

theorem witness_EncnGivesCanonicalDigits : 1 ≤ 4 ∧ 9999 < 10 ^ 4 ∧ 10 ^ 4 ≤ 10000 := by decide

theorem allValid_of_all {e : Encoding} {E : List Group} (h : E.all (validGroup e) = true) : AllValid e E := by
  simpa [AllValid] using h

theorem witness_DecnGivesTheDecimalValue :
    AllValid .bcd [0, 1, 9] ∧ AllValid .xs3 [3, 12] ∧ FirstMalformed .bcd [1, 10, 3] 1 ∧ FirstMalformed .xs3 [2, 3] 0 ∧
    FirstMalformed .xs3 [3, 12, 13] 2 :=
  ⟨allValid_of_all rfl, allValid_of_all rfl, by unfold FirstMalformed; decide, by unfold FirstMalformed; decide,
    by unfold FirstMalformed; decide⟩

theorem witness_NumberRoundTrip :
    1 ≤ 4 ∧ 9999 < 10 ^ 4 ∧ ([0, 9, 9, 9, 9] : List Group) ≠ [] ∧ AllValid .bcd [0, 9, 9, 9, 9] ∧
    seqValue .bcd [0, 9, 9, 9, 9] < 10 ^ 4 :=
  ⟨by decide, by decide, by decide, allValid_of_all rfl, by decide⟩

theorem witness_EncnEncodesAnInteger :
    (@present Params.default 0x03 { ops0 with na := 9999 }).pins.ops.na.toNat < 10 ^ Params.default.N ∧
    10 ^ Params.default.N ≤ (@present Params.default 0x03 { ops0 with na := 10000 }).pins.ops.na.toNat := by decide

theorem witness_DecnDecodesASequence :
    (LegalLen (portD 5 0x99999) ∧ AllValid .bcd (portD 5 0x99999).groups) ∧
    (LegalLen (portD 1 0x3) ∧ AllValid .xs3 (portD 1 0x3).groups) ∧ ¬ LegalLen (portD 0 0) ∧ ¬ LegalLen (portD 6 0) ∧
    (LegalLen (portD 3 0x12F) ∧ FirstMalformed .bcd (portD 3 0x12F).groups 2) ∧
    (LegalLen (portD 5 0) ∧ FirstMalformed .xs3 (portD 5 0).groups 0) := by
  refine ⟨⟨?_, allValid_of_all rfl⟩, ⟨?_, allValid_of_all rfl⟩, ?_, ?_, ⟨?_, ?_⟩, ⟨?_, ?_⟩⟩ <;>
    first | (unfold LegalLen; decide) | (unfold FirstMalformed; decide)

theorem witness_PadEqualisesLengths :
    (LegalLen (portD 1 0x4) ∧ LegalLen (portD 5 0x45678)) ∧ ¬ LegalLen (portD 0 0) ∧
    (LegalLen (portD 1 0x1) ∧ ¬ LegalLen (portD 6 0)) := by
  unfold LegalLen; decide

theorem witness_AlgnReservesOneDigit :
    (LegalLen (portD 4 0x1234) ∧ LegalLen (portD 1 0x5) ∧ max 4 1 + 1 ≤ Params.default.LMAX) ∧ ¬ LegalLen (portD 7 0) ∧
    (LegalLen (portD 5 0x1) ∧ ¬ LegalLen (portD 0 0)) ∧
    (LegalLen (portD 5 0x12345) ∧ LegalLen (portD 5 0x12345) ∧ Params.default.LMAX < max (portD 5 0x12345).groups.length 5 + 1) ∧
    (LegalLen (portD 1 0x1) ∧ LegalLen (portD 5 0x12345) ∧ (portD 1 0x1).groups.length < (portD 5 0x12345).groups.length) := by
  unfold LegalLen; decide

theorem witness_digit_rules : 31 = (15 : Group).toNat + (15 : Group).toNat + true.toNat := by decide

theorem witness_PassAddsDecimalNumbers :
    (validGroup .bcd 9 = true ∧ validGroup .xs3 12 = true ∧ 19 = digitOf .bcd 9 + digitOf .bcd 9 + true.toNat) ∧
    ([9, 9] : List Group).length = ([0, 1] : List Group).length ∧ AllValid .bcd [9, 9] ∧ AllValid .bcd [0, 1] :=
  ⟨by decide, by decide, allValid_of_all rfl, allValid_of_all rfl⟩

theorem witness_PassThreadsTheCarry : ([15, 0] : List Group).length = ([1, 2] : List Group).length := by decide

theorem witness_SerialPassAgrees : ([15, 0] : List Group).length = ([1, 2] : List Group).length ∧ ([15, 0] : List Group) ≠ [] := by
  decide

theorem witness_AddgRunsOnePass :
    (LegalLen (portD 5 0x0F) ∧ LegalLen (portD 5 0x01) ∧ (portD 5 0x0F).len = (portD 5 0x01).len) ∧ ¬ LegalLen (portD 6 0) ∧
    (LegalLen (portD 1 0x1) ∧ ¬ LegalLen (portD 6 0)) ∧
    (LegalLen (portD 2 0x12) ∧ LegalLen (portD 1 0x3) ∧ (portD 2 0x12).len ≠ (portD 1 0x3).len) := by
  unfold LegalLen; decide

theorem witness_ComplementIsAnInvolution :
    AllValid .bcd [0, 9] ∧ (Encoding.xs3 = .bcd → AllValid .bcd [15, 0]) ∧ FirstMalformed .bcd [9, 10] 1 :=
  ⟨allValid_of_all rfl, (fun h => nomatch h), by unfold FirstMalformed; decide⟩

theorem witness_ComplementIsNinesComplement :
    AllValid .xs3 [3, 12] ∧ ([4, 4] : List Group).length = ([3, 12] : List Group).length ∧ AllValid .xs3 [4, 4] :=
  ⟨allValid_of_all rfl, by decide, allValid_of_all rfl⟩

theorem witness_CmplComplementsASequence :
    (LegalLen (portD 5 0x99999) ∧ AllValid .bcd (portD 5 0x99999).groups) ∧ LegalLen (portD 3 0x0F7) ∧ ¬ LegalLen (portD 0 0) ∧
    (LegalLen (portD 3 0x1A3) ∧ FirstMalformed .bcd (portD 3 0x1A3).groups 1) := by
  refine ⟨⟨?_, allValid_of_all rfl⟩, ?_, ?_, ⟨?_, ?_⟩⟩ <;>
    first | (unfold LegalLen; decide) | (unfold FirstMalformed; decide)

theorem witness_AddPathIsExact : 9999 < 10 ^ Params.default.N ∧ 0 < 10 ^ Params.default.N ∧ 9 < 10 ^ smallest.N := by decide

/-- One pair of operands for each row of R104: equal operands, one apart, and the widest. -/
theorem witness_CorrectnessProperties :
    (9999 < 10 ^ Params.default.N ∧ 9999 ≤ 9999) ∧
    (0 < 9999 ∧ (Encoding.bcd = .bcd ∨ Params.default.xs3RecompInc = true)) ∧
    (9999 < 10 ^ incr.N ∧ 9998 < 9999 ∧ (Encoding.xs3 = .bcd ∨ incr.xs3RecompInc = true)) ∧
    (7 < 8 ∧ Encoding.xs3 = .xs3 ∧ Params.default.xs3RecompInc = false) := by decide

theorem witness_AddAddsTwoIntegers :
    ((@present Params.default 0x09 { ops0 with na := 9999, nb := 9999 }).pins.ops.na.toNat < 10 ^ Params.default.N ∧
      (@present Params.default 0x09 { ops0 with na := 9999, nb := 9999 }).pins.ops.nb.toNat < 10 ^ Params.default.N) ∧
    10 ^ Params.default.N ≤ (@present Params.default 0x09 { ops0 with na := 10000, nb := 10000 }).pins.ops.na.toNat ∧
    ((@present Params.default 0x09 { ops0 with na := 9999, nb := 10000 }).pins.ops.na.toNat < 10 ^ Params.default.N ∧
      10 ^ Params.default.N ≤ (@present Params.default 0x09 { ops0 with na := 9999, nb := 10000 }).pins.ops.nb.toNat) := by decide

theorem witness_SubPositivePath :
    9999 = (@present Params.default 0x0A { ops0 with na := 9999, nb := 9999 }).pins.ops.na.toNat ∧
    9999 = (@present Params.default 0x0A { ops0 with na := 9999, nb := 9999 }).pins.ops.nb.toNat ∧ 9999 < 10 ^ Params.default.N ∧
    9999 ≤ 9999 := by decide

theorem witness_SubNegativePathAddingOne :
    (9998 = (@present both 0x1A { ops0 with na := 9998, nb := 9999 }).pins.ops.na.toNat ∧
      9999 = (@present both 0x1A { ops0 with na := 9998, nb := 9999 }).pins.ops.nb.toNat ∧ 9999 < 10 ^ Params.default.N ∧
      9998 < 9999 ∧ both.xs3RecompInc = true) ∧
    (Encoding.bcd = .bcd ∨ Params.default.xs3RecompInc = true) := by
  decide

theorem witness_SubXNegativePathByDefault :
    7 = (@present Params.default 0x1A { ops0 with na := 7, nb := 8 }).pins.ops.na.toNat ∧
    8 = (@present Params.default 0x1A { ops0 with na := 7, nb := 8 }).pins.ops.nb.toNat ∧ 8 < 10 ^ Params.default.N ∧ 7 < 8 ∧
    Params.default.xs3RecompInc = false := by decide

theorem witness_SubOperandOutOfRange :
    10 ^ Params.default.N ≤ (@present Params.default 0x0A { ops0 with na := 10000, nb := 10000 }).pins.ops.na.toNat ∧
    ((@present Params.default 0x0A { ops0 with na := 9999, nb := 10000 }).pins.ops.na.toNat < 10 ^ Params.default.N ∧
      10 ^ Params.default.N ≤ (@present Params.default 0x0A { ops0 with na := 9999, nb := 10000 }).pins.ops.nb.toNat) := by decide

theorem witness_EqualOperandsGivePositiveZero :
    9999 = (@present Params.default 0x0A { ops0 with na := 9999, nb := 9999 }).pins.ops.na.toNat ∧
    (@present Params.default 0x0A { ops0 with na := 9999, nb := 9999 }).pins.ops.na =
      (@present Params.default 0x0A { ops0 with na := 9999, nb := 9999 }).pins.ops.nb ∧ 9999 < 10 ^ Params.default.N := by decide

/-- A negative zero occurs: `SUB.X 7, 8`. -/
theorem witness_NegativeZeroOnlyUnderExcess3 :
    (7 = (@present Params.default 0x1A { ops0 with na := 7, nb := 8 }).pins.ops.na.toNat ∧
      8 = (@present Params.default 0x1A { ops0 with na := 7, nb := 8 }).pins.ops.nb.toNat ∧ 7 < 10 ^ Params.default.N ∧ 8 < 10 ^ Params.default.N) ∧
    pathOf (cmd 0x1A { ops0 with na := 7, nb := 8 }) = ((2, 0xCC), false, 0, true, false) := by decide

theorem witness_AddIsItsComponentCommands :
    (@present Params.default 0x09 { ops0 with na := 9999, nb := 0 }).pins.ops.na.toNat < 10 ^ Params.default.N ∧
    (@present Params.default 0x09 { ops0 with na := 9999, nb := 0 }).pins.ops.nb.toNat < 10 ^ Params.default.N := by decide

/-- Both signs of ADDG's carry occur, and a port can hold the one-sequence. -/
theorem witness_SubIsItsComponentCommands :
    (waiting.pins.ops.na.toNat < 10 ^ Params.default.N ∧ waiting.pins.ops.nb.toNat < 10 ^ Params.default.N ∧ Params.default.xs3RecompInc = false) ∧
    PortHolds (portD 2 0x01) (operandSeq .bcd 2 1) ∧
    (cmd 0x07 { ops0 with ea := portD 2 0x05, eb := portD 2 0x92, c0 := true }).block.out.cout = false ∧
    (cmd 0x07 { ops0 with ea := portD 2 0x07, eb := portD 2 0x94, c0 := true }).block.out.cout = true :=
  ⟨by decide, by unfold PortHolds; decide, by decide, by decide⟩

theorem witness_TransactionReadsOnlyItsOperands :
    SameOperands .decn { ops0 with ea := portD 2 0xFFF12, x4 := 3 } { ops0 with ea := portD 2 0x12 } :=
  ⟨by decide, by decide⟩

theorem witness_TraceHasNoSemanticWeight :
    traced.N = Params.default.N ∧ traced.xs3RecompInc = Params.default.xs3RecompInc ∧
    SameOperands .sub (@present traced 0x2A ops0).pins.ops (@present Params.default 0x0A ops0).pins.ops :=
  ⟨by decide, by decide, by unfold SameOperands; decide⟩

theorem witness_TraceOnlyWhenAskedFor :
    (exec (.subB true) ⟨_, @present Params.default 0x2A ops0⟩ = .next ⟨Params.default, (cmd 0x2A ops0).block⟩ ∧
      Params.default.trace = false) ∧
    (exec (.subB false) ⟨_, waiting⟩ = .next (run ⟨_, waiting⟩) ∧ (Instr.subB false).traceBit = false) ∧
    (exec (.encdB true) ⟨_, @present traced 0x21 ops0⟩ = .next ⟨traced, (cmdOn traced 0x21 ops0).block⟩ ∧
      (Instr.encdB true).op ∉ [Op.addg, Op.add, Op.sub]) := ⟨⟨rfl, rfl⟩, ⟨rfl, rfl⟩, rfl, by decide⟩

/-! The invariant (NoReservedFaultCode, PhaseTransitionsFollowTheTables, EveryStepKeepsTheInvariant,
HostCannotBreakTheInvariant), in each phase of a subtraction and of an addition. -/

theorem witness_inv_reset_runs : Inv State.reset.block ∧ step State.reset = .next State.reset :=
  ⟨⟨⟨rfl, rfl, rfl⟩, rfl⟩, rfl⟩

theorem witness_inv_align : Inv inAlign ∧ inAlign.ph = .align ∧ inAlign.busy = true ∧ inAlign.pins.rst = false :=
  ⟨⟨⟨⟨.sub, .bcd, false, rfl, rfl⟩, rfl⟩, rfl⟩, rfl, rfl, rfl⟩

/-- An operand out of range in ALIGN. -/
theorem witness_inv_align_out_of_range :
    Inv (edge (@present Params.default 0x0A { ops0 with na := 9999, nb := 10000 })) ∧
    10 ^ Params.default.N ≤ (edge (@present Params.default 0x0A { ops0 with na := 9999, nb := 10000 })).opsQ.nb.toNat :=
  ⟨⟨⟨⟨.sub, .bcd, false, rfl, rfl⟩, rfl⟩, rfl⟩, by decide⟩

theorem witness_inv_complement : Inv (edge^[2] waiting) ∧ (edge^[2] waiting).ph = .complement :=
  ⟨⟨⟨⟨.bcd, false, rfl, rfl⟩, rfl⟩, rfl⟩, rfl⟩

theorem witness_inv_add_of_sub : Inv (edge^[3] waiting) ∧ (edge^[3] waiting).ph = .add ∧ (edge^[3] waiting).cwIsSub = true :=
  ⟨⟨⟨⟨.bcd, false, rfl, .inr ⟨rfl, rfl⟩⟩, rfl⟩, rfl⟩, rfl, rfl⟩

theorem witness_inv_add_of_add :
    Inv (edge^[2] (@present Params.default 0x09 { ops0 with na := 7, nb := 5 })) ∧
    (edge^[2] (@present Params.default 0x09 { ops0 with na := 7, nb := 5 })).ph = .add ∧
    (edge^[2] (@present Params.default 0x09 { ops0 with na := 7, nb := 5 })).cwIsSub = false :=
  ⟨⟨⟨⟨.bcd, false, rfl, .inl rfl⟩, rfl⟩, rfl⟩, rfl, rfl⟩

theorem witness_inv_interpret_negative : Inv (edge^[4] waiting) ∧ (edge^[4] waiting).ph = .interpret ∧ (edge^[4] waiting).work.cf = false :=
  ⟨⟨⟨.bcd, false, rfl, rfl, rfl, rfl, rfl, rfl⟩, rfl⟩, rfl, rfl⟩

theorem witness_inv_interpret_positive :
    Inv (edge^[4] (@present Params.default 0x0A { ops0 with na := 7, nb := 5 })) ∧
    (edge^[4] (@present Params.default 0x0A { ops0 with na := 7, nb := 5 })).ph = .interpret ∧
    (edge^[4] (@present Params.default 0x0A { ops0 with na := 7, nb := 5 })).work.cf = true :=
  ⟨⟨⟨.bcd, false, rfl, rfl, rfl, rfl, rfl, rfl⟩, rfl⟩, rfl, rfl⟩

theorem witness_inv_recomplement : Inv (edge^[5] waiting) ∧ (edge^[5] waiting).ph = .recomplement :=
  ⟨⟨⟨.bcd, false, rfl, rfl, ⟨rfl, rfl, rfl, rfl⟩, rfl⟩, rfl⟩, rfl⟩

theorem witness_inv_doneNegative : Inv (edge^[6] waiting) ∧ (edge^[6] waiting).ph = .doneNegative := ⟨⟨⟨rfl, rfl⟩, rfl⟩, rfl⟩

/-- The invariant with a fault reported, and a step that takes it. -/
theorem witness_inv_fault : Inv (cmd 0x04 { ops0 with ea := portD 3 0x12F }).block ∧
    (cmd 0x04 { ops0 with ea := portD 3 0x12F }).block.ph = .fault :=
  ⟨⟨trivial, by unfold ErrOk; decide⟩, by decide⟩

theorem witness_PhaseViewAgreesWithFunctionView :
    waiting.pins.rst = false ∧ waiting.busy = false ∧ waiting.pins.start = true := by decide

/-- A width that holds each range, at the default `N` and at `N` = 1. -/
theorem witness_WidthsFollowFromN :
    10 ^ Params.default.N - 1 < 2 ^ 14 ∧ 10 ^ Params.default.LMAX - 1 < 2 ^ 17 ∧ Params.default.LMAX < 2 ^ 3 ∧
    10 ^ smallest.N - 1 < 2 ^ 4 ∧ 10 ^ smallest.LMAX - 1 < 2 ^ 7 ∧ smallest.LMAX < 2 ^ 2 := by decide

end Sys2Proof.Tests
end

/-! PROOF. The scope of the model (00_scope.md): what a transaction depends on (R8), and the widths that follow from `N` (R4). -/

namespace Sys2Proof.Config

/-! ### The widths (00_scope.md R4) -/

/-- `ceilLog2 m` is the least width that holds the values 0 to `m - 1`. -/
theorem ceilLog2_least (m : Nat) : m - 1 < 2 ^ ceilLog2 m ∧ ∀ w, m - 1 < 2 ^ w → ceilLog2 m ≤ w := by
  have hholds := le_two_pow_ceilLog2 m
  have hpos := Nat.two_pow_pos (ceilLog2 m)
  exact ⟨by omega, fun w hw => ceilLog2_le (by omega)⟩

end Sys2Proof.Config

namespace Sys2Proof.Machine

open Sys2Proof.Config Sys2Proof.Safety

variable {P : Params}

/-! ### What a command reads and writes (30_encoding.md R43, R44) -/

/-- A computation that may raise succeeds exactly if both of its parts do. -/
theorem bind_eq_ok_iff {ε α β : Type} {x : Except ε α} {f : α → Except ε β} {b : β} :
    x >>= f = .ok b ↔ ∃ a, x = .ok a ∧ f a = .ok b := by
  cases x <;> simp [bind, Except.bind]

/-- A command's results, or its fault, depend only on the operands its format reads (R43). -/
theorem commandFn_congr {i : Instr} {a b : Operands P} (h : SameOperands i.op a b) : commandFn i a = commandFn i b := by
  unfold commandFn
  generalize i.op = op at h ⊢
  cases op with
  | encd => simp only [encdFn, show a.x4 = b.x4 from h]
  | decd => simp only [decdFn, show a.x4 = b.x4 from h]
  | encn => simp only [encnFn, show a.na.toNat = b.na.toNat from h]
  | decn =>
    obtain ⟨hlen, hgroups⟩ := h
    simp only [decnFn, hlen, hgroups]
  | pad =>
    obtain ⟨⟨hlenA, hgroupsA⟩, hlenB, hgroupsB⟩ := h
    simp only [padFn, hlenA, hgroupsA, hlenB, hgroupsB]
  | algn =>
    obtain ⟨⟨hlenA, hgroupsA⟩, hlenB, hgroupsB⟩ := h
    simp only [algnFn, hlenA, hgroupsA, hlenB, hgroupsB]
  | addg =>
    obtain ⟨⟨hlenA, hgroupsA⟩, ⟨hlenB, hgroupsB⟩, hseed⟩ := h
    simp only [addgFn, hlenA, hgroupsA, hlenB, hgroupsB, hseed]
  | cmpl =>
    obtain ⟨hlen, hgroups⟩ := h
    simp only [cmplFn, hlen, hgroups]
  | add =>
    obtain ⟨hna, hnb⟩ := h
    simp only [addFn, hna, hnb]
  | sub =>
    obtain ⟨hna, hnb⟩ := h
    simp only [subFn, hna, hnb]

/-- A command writes every output of its row in R44's table: what earlier transactions left, which the counter `k` stands
for, shows in none of them. -/
theorem sameOutputs_of_commandFn_eq_ok {i : Instr} {o : Operands P} {r : Results P} (h : commandFn i o = .ok r) (k k' : Nat) :
    SameOutputs i.op (r.outputs k) (r.outputs k') := by
  unfold commandFn at h
  generalize i.op = op at h ⊢
  cases op with
  | encd =>
    obtain ⟨g, -, ⟨⟩⟩ := bind_eq_ok_iff.mp h
    rfl
  | decd =>
    obtain ⟨d, -, ⟨⟩⟩ := bind_eq_ok_iff.mp h
    rfl
  | encn =>
    obtain ⟨E, -, ⟨⟩⟩ := bind_eq_ok_iff.mp h
    exact ⟨rfl, rfl⟩
  | decn =>
    obtain ⟨_, -, h⟩ := bind_eq_ok_iff.mp h
    obtain ⟨v, -, ⟨⟩⟩ := bind_eq_ok_iff.mp h
    exact ⟨rfl, rfl⟩
  | pad =>
    obtain ⟨_, -, ⟨⟩⟩ := bind_eq_ok_iff.mp h
    exact ⟨⟨rfl, rfl⟩, rfl, rfl⟩
  | algn =>
    obtain ⟨_, -, h⟩ := bind_eq_ok_iff.mp h
    obtain ⟨_, -, ⟨⟩⟩ := bind_eq_ok_iff.mp h
    exact ⟨⟨rfl, rfl⟩, rfl, rfl⟩
  | addg =>
    obtain ⟨_, -, h⟩ := bind_eq_ok_iff.mp h
    obtain ⟨_, -, ⟨⟩⟩ := bind_eq_ok_iff.mp h
    exact ⟨⟨rfl, rfl⟩, rfl⟩
  | cmpl =>
    obtain ⟨_, -, h⟩ := bind_eq_ok_iff.mp h
    obtain ⟨K, -, ⟨⟩⟩ := bind_eq_ok_iff.mp h
    exact ⟨rfl, rfl⟩
  | add =>
    obtain ⟨p, -, ⟨⟩⟩ := bind_eq_ok_iff.mp h
    exact ⟨⟨rfl, rfl⟩, rfl, rfl, rfl, rfl⟩
  | sub =>
    obtain ⟨p, -, ⟨⟩⟩ := bind_eq_ok_iff.mp h
    exact ⟨⟨rfl, rfl⟩, rfl, rfl, rfl, rfl⟩

/-- Whatever the two blocks held, one end of a command (its results or its fault) leaves them in the same phase with the
same fault registers, written outputs and trace. -/
theorem sameEnd_settle (i : Instr) (o : Operands P) (s s' : Block P) :
    SameEnd i.op (s.settle (commandFn i o)) (s'.settle (commandFn i o)) ∧
      (s.settle (commandFn i o)).out.trace = (s'.settle (commandFn i o)).out.trace := by
  cases hx : commandFn i o with
  | ok r => exact ⟨⟨rfl, ⟨rfl, rfl, rfl⟩, fun _ => sameOutputs_of_commandFn_eq_ok hx s.fresh s'.fresh⟩, rfl⟩
  | error f => exact ⟨⟨rfl, ⟨rfl, rfl, rfl⟩, fun hph => absurd rfl hph⟩, rfl⟩

end Sys2Proof.Machine

namespace Sys2Proof.Proofs

open Sys2Proof.Config Sys2Proof.Machine

/-- Settles O50: both blocks settle with one and the same result of the command's function, and the unspecified contents
that differ between them stand in no output the command writes. -/
theorem transactionReadsOnlyItsOperands : Obligations.TransactionReadsOnlyItsOperands := by
  intro P i s s' hops
  have hexec' : exec i ⟨P, s'⟩ = .next ⟨P, (s'.accept (firstPhase i.op)).settle (commandFn i s.pins.ops)⟩ := by
    rw [exec_eq_next, commandFn_congr hops]
  obtain ⟨hend, htrace⟩ := sameEnd_settle i s.pins.ops (s.accept (firstPhase i.op)) (s'.accept (firstPhase i.op))
  exact ⟨_, _, exec_eq_next i s, hexec', hend, htrace⟩

/-- Settles O58: each width is `ceilLog2` of the number of values it has to hold. -/
theorem widthsFollowFromN : Obligations.WidthsFollowFromN := by
  refine ⟨fun P => ⟨P.one_le_N, rfl, ceilLog2_least (10 ^ P.N), ceilLog2_least (10 ^ P.LMAX),
    ceilLog2_least (P.LMAX + 1)⟩, ?_⟩
  decide

end Sys2Proof.Proofs

/-! PROOF. The decimal arithmetic of the block: canonical digits, aligned operands, the nines complement, and the adder pass
as a function and position by position (41_number_codec.md to 45_add_sub.md). -/

namespace Sys2Proof.Machine

open Sys2Proof.Config Sys2Proof.Safety

variable {P : Params}

/-! ### Canonical digits (41_number_codec.md R54) -/

theorem canonicalDigits_le (n : Nat) : ∀ d ∈ canonicalDigits n, d ≤ 9 := by
  intro d hd
  unfold canonicalDigits at hd
  split at hd
  · simp_all
  · exact Nat.le_of_lt_succ (Nat.digits_lt_base (by norm_num) (List.mem_reverse.mp hd))

theorem ofDigits_canonicalDigits (n : Nat) : Nat.ofDigits 10 (canonicalDigits n).reverse = n := by
  unfold canonicalDigits
  split
  · simp_all
  · rw [List.reverse_reverse, Nat.ofDigits_digits]

theorem canonicalDigits_length (n : Nat) : (canonicalDigits n).length = max 1 (Nat.digits 10 n).length := by
  unfold canonicalDigits
  split
  · simp_all
  · have hpos := List.length_pos_iff.mpr (Nat.digits_ne_nil_iff_ne_zero (b := 10).mpr ‹n ≠ 0›)
    rw [List.length_reverse, max_eq_right hpos]

/-- The search for the least length finds the number of digits, unless its fuel ends first. -/
theorem leastLen_eq (n : Nat) : ∀ fuel L, (Nat.digits 10 n).length ≤ L + fuel →
    leastLen n fuel L = max L (Nat.digits 10 n).length
  | 0, L, h => (max_eq_left h).symm
  | fuel + 1, L, h => by
    have hfits := Nat.digits_length_le_iff (b := 10) (k := L) (by norm_num) n
    by_cases hlt : n < 10 ^ L
    · rw [leastLen, if_pos hlt, max_eq_left (hfits.mpr hlt)]
    · rw [← hfits] at hlt
      rw [leastLen, if_neg (hfits.not.mp hlt), leastLen_eq n fuel (L + 1) (by omega)]
      omega

/-- `encn` uses as many groups as the number has digits, which is the least length that holds it. -/
theorem encLen_eq {nmax n : Nat} (h : n < 10 ^ nmax) : encLen nmax n = (canonicalDigits n).length := by
  have hle := (Nat.digits_length_le_iff (b := 10) (by norm_num) n).mpr h
  unfold encLen
  split
  · simp_all [canonicalDigits]
  · rw [leastLen_eq n nmax 1 (by omega), canonicalDigits_length]

/-- The quotients and remainders of R54 are the base-10 digits. -/
theorem decimalDigits_canonical (n : Nat) : decimalDigits n (canonicalDigits n).length = canonicalDigits n := by
  unfold canonicalDigits
  split
  · simp_all [decimalDigits]
  · refine List.ext_getElem (by simp [decimalDigits]) (fun k hk hk' => ?_)
    rw [List.length_reverse] at hk'
    rw [List.getElem_reverse, ← List.getD_eq_getElem (Nat.digits 10 n) 0, Nat.getD_digits n _ (by norm_num)]
    simp [decimalDigits]

theorem encn_of_lt {nmax : Nat} (e : Encoding) (opnd : Bool) {n : Nat} (h : n < 10 ^ nmax) :
    encn nmax e opnd n = .ok ((canonicalDigits n).map (groupOf e)) := by
  rw [encn, if_neg (by omega), encLen_eq h, decimalDigits_canonical]
  exact mapRaise_of_ok 0 _ (fun _ d hd => encDigit_of_le e (canonicalDigits_le n d hd))

theorem encn_of_ge {nmax : Nat} (e : Encoding) (opnd : Bool) {n : Nat} (h : 10 ^ nmax ≤ n) :
    encn nmax e opnd n = .error ⟨.inputOutOfRange, opnd, 0⟩ := by
  rw [encn, if_pos h]

/-! ### The aligned operands (45_add_sub.md R93) -/

/-- Reserving a digit and padding to a length that holds it puts zero-digit groups before a sequence (R64). -/
theorem padTo_zeroGroup_cons (e : Encoding) {L : Nat} {A : List Group} (h : A.length ≤ L) :
    padTo e (L + 1) (zeroGroup e :: A) = List.replicate (L + 1 - A.length) (groupOf e 0) ++ A := by
  rw [padTo, zeroGroup_eq, List.length_cons, Nat.add_sub_add_right, Nat.succ_sub h, List.replicate_succ', List.append_assoc]
  rfl

theorem align1_eq (e : Encoding) (A B : List Group) :
    align1 e A B = (List.replicate (max A.length B.length + 1 - A.length) (groupOf e 0) ++ A,
      List.replicate (max A.length B.length + 1 - B.length) (groupOf e 0) ++ B) := by
  simp only [align1, pad, List.length_cons, Nat.succ_max_succ, padTo_zeroGroup_cons e (le_max_left A.length B.length),
    padTo_zeroGroup_cons e (le_max_right A.length B.length)]

theorem encodeAlign_of_lt {nmax : Nat} (e : Encoding) {n m : Nat} (hn : n < 10 ^ nmax) (hm : m < 10 ^ nmax) :
    encodeAlign nmax e n m = .ok (operandSeq e (alignedLen n m) n, operandSeq e (alignedLen n m) m) := by
  rw [encodeAlign, encn_of_lt e false hn, encn_of_lt e true hm]
  simp [bind, Except.bind, pure, Except.pure, align1_eq, operandSeq, alignedLen]

/-- The operands are aligned, or one of them is out of range. -/
theorem encodeAlign_cases (nmax : Nat) (e : Encoding) (n m : Nat) :
    (n < 10 ^ nmax ∧ m < 10 ^ nmax ∧
      encodeAlign nmax e n m = .ok (operandSeq e (alignedLen n m) n, operandSeq e (alignedLen n m) m)) ∨
    ∃ opnd, encodeAlign nmax e n m = .error ⟨.inputOutOfRange, opnd, 0⟩ := by
  by_cases hn : n < 10 ^ nmax
  · by_cases hm : m < 10 ^ nmax
    · exact .inl ⟨hn, hm, encodeAlign_of_lt e hn hm⟩
    · exact .inr ⟨true, by rw [encodeAlign, encn_of_lt e false hn, encn_of_ge e true (by omega)]; rfl⟩
  · exact .inr ⟨false, by rw [encodeAlign, encn_of_ge e false (by omega)]; rfl⟩

theorem allValid_append {e : Encoding} {A B : List Group} (hA : AllValid e A) (hB : AllValid e B) : AllValid e (A ++ B) :=
  List.forall_mem_append.mpr ⟨hA, hB⟩

theorem allValid_map_groupOf (e : Encoding) {ds : List Nat} (h : ∀ d ∈ ds, d ≤ 9) : AllValid e (ds.map (groupOf e)) := by
  intro g hg
  obtain ⟨d, hd, rfl⟩ := List.mem_map.mp hg
  exact validGroup_groupOf e (h d hd)

theorem allValid_zeros (e : Encoding) (z : Nat) : AllValid e (List.replicate z (groupOf e 0)) := by
  intro g hg
  rw [List.eq_of_mem_replicate hg]
  exact validGroup_groupOf e (Nat.zero_le 9)

theorem seqValue_zeros (e : Encoding) (z : Nat) : seqValue e (List.replicate z (groupOf e 0)) = 0 := by
  induction z with
  | zero => rfl
  | succ z ih => rw [List.replicate_succ, seqValue_cons, ih, digitOf_groupOf e (Nat.zero_le 9)]; simp

theorem seqValue_map_groupOf (e : Encoding) {ds : List Nat} (h : ∀ d ∈ ds, d ≤ 9) :
    seqValue e (ds.map (groupOf e)) = Nat.ofDigits 10 ds.reverse := by
  have hdigits : (ds.map (groupOf e)).map (digitOf e) = ds := by
    rw [List.map_map]
    exact (List.map_congr_left (fun d hd => digitOf_groupOf e (h d hd))).trans (List.map_id ds)
  rw [seqValue, List.map_reverse, hdigits]

theorem operandSeq_length {e : Encoding} {L n : Nat} (h : (canonicalDigits n).length ≤ L) :
    (operandSeq e L n).length = L := by
  simp only [operandSeq, List.length_append, List.length_replicate, List.length_map]
  omega

theorem allValid_operandSeq (e : Encoding) (L n : Nat) : AllValid e (operandSeq e L n) :=
  allValid_append (allValid_zeros e _) (allValid_map_groupOf e (canonicalDigits_le n))

theorem seqValue_operandSeq (e : Encoding) (L n : Nat) : seqValue e (operandSeq e L n) = n := by
  rw [operandSeq, seqValue_append, seqValue_zeros, seqValue_map_groupOf e (canonicalDigits_le n),
    ofDigits_canonicalDigits]
  simp

theorem oneSeq_eq_operandSeq (e : Encoding) (L : Nat) : oneSeq e L = .ok (operandSeq e L 1) := by
  simp [oneSeq, encDigit_of_le e (show 1 ≤ 9 by decide), operandSeq, canonicalDigits, zeroGroup_eq, bind, Except.bind,
    pure, Except.pure]

/-! ### The nines complement (44_complement.md R87) -/

theorem allValid_ninesOf (e : Encoding) (E : List Group) : AllValid e (ninesOf e E) := by
  intro g hg
  obtain ⟨a, -, rfl⟩ := List.mem_map.mp hg
  exact validGroup_groupOf e (by omega)

@[simp] theorem ninesOf_length (e : Encoding) (E : List Group) : (ninesOf e E).length = E.length := List.length_map _

theorem seqValue_add_ninesOf (e : Encoding) {E : List Group} (h : AllValid e E) :
    seqValue e E + seqValue e (ninesOf e E) + 1 = 10 ^ E.length := by
  induction E with
  | nil => rfl
  | cons g E ih =>
    have hd := digitOf_le e (h g List.mem_cons_self)
    have ih := ih (fun x hx => h x (List.mem_cons_of_mem _ hx))
    have hcons : ninesOf e (g :: E) = groupOf e (9 - digitOf e g) :: ninesOf e E := rfl
    rw [hcons, seqValue_cons, seqValue_cons, digitOf_groupOf e (by omega), ninesOf_length, List.length_cons, pow_succ]
    have hexp : digitOf e g * 10 ^ E.length + (9 - digitOf e g) * 10 ^ E.length = 9 * 10 ^ E.length := by
      rw [← Nat.add_mul, Nat.add_sub_cancel' hd]
    omega

/-! ### An adder pass (43_adder.md R68, R76) -/

/-- A pass over two valid sequences of one length is the addition of their values, its final carry the digit above. -/
theorem addPass_of_valid (e : Encoding) (pass c0 : Bool) :
    ∀ (pos : Nat) (A B : List Group), A.length = B.length → AllValid e A → AllValid e B →
      AllValid e (addPass P e pass c0 pos A B).seq ∧ (addPass P e pass c0 pos A B).seq.length = A.length ∧
      seqValue e (addPass P e pass c0 pos A B).seq + 10 ^ A.length * (addPass P e pass c0 pos A B).carry.toNat
        = seqValue e A + seqValue e B + c0.toNat
  | pos, [], [], _, _, _ => by simp [AllValid]
  | pos, a :: A, b :: B, hlen, hA, hB => by
    obtain ⟨hvalid, hlength, hvalue⟩ := addPass_of_valid e pass c0 (pos + 1) A B (Nat.succ.inj hlen)
      (fun x hx => hA x (List.mem_cons_of_mem _ hx)) (fun x hx => hB x (List.mem_cons_of_mem _ hx))
    obtain ⟨hfixed, hsum⟩ := addDigit_of_valid e a b (addPass P e pass c0 (pos + 1) A B).carry
      (hA a List.mem_cons_self) (hB b List.mem_cons_self)
    rw [addPass]
    refine ⟨List.forall_mem_cons.mpr ⟨hfixed, hvalid⟩, congrArg (· + 1) hlength, ?_⟩
    simp only [seqValue_cons, List.length_cons, pow_succ, hlength, ← Nat.succ.inj hlen]
    linear_combination hvalue + 10 ^ A.length * hsum

theorem addg_of_valid (e : Encoding) (pass c0 : Bool) {A B : List Group} (hlen : A.length = B.length)
    (hA : AllValid e A) (hB : AllValid e B) :
    AllValid e (addg P e pass A B c0).seq ∧ (addg P e pass A B c0).seq.length = A.length ∧
      seqValue e (addg P e pass A B c0).seq + 10 ^ A.length * (addg P e pass A B c0).carry.toNat
        = seqValue e A + seqValue e B + c0.toNat :=
  addPass_of_valid e pass c0 0 A B hlen hA hB

theorem decn_of_valid (e : Encoding) (opnd : Bool) {E : List Group} (h : AllValid e E) :
    decn e opnd E = .ok (seqValue e E) := by
  rw [decn, decnFrom_of_valid e opnd E 0 0 h]
  simp

/-! ### The pass position by position (43_adder.md R68) -/

/-- What the registers of a pass hold, as the result of a pass. -/
def PassRegs.passOut (r : PassRegs P) : PassOut P := { seq := r.seq, carry := r.cy, recs := r.recs }

/-- The loop below position `k` completes a pass whose positions from `k` on have been taken. -/
theorem passLoop_passOut {e : Encoding} {pass c0 : Bool} {A B : List Group} (hlen : A.length = B.length) :
    ∀ k ≤ A.length, ∀ r : PassRegs P, r.passOut = addPass P e pass c0 k (A.drop k) (B.drop k) →
      (passLoop e pass A B k r).passOut = addg P e pass A B c0
  | 0, _, r, hr => hr
  | i + 1, hi, r, hr => by
    refine passLoop_passOut hlen i (by omega) _ ?_
    rw [List.drop_eq_getElem_cons (show i < A.length by omega), List.drop_eq_getElem_cons (show i < B.length by omega),
      addPass, ← hr]
    simp [digitStep, PassRegs.passOut, show i < A.length by omega, show i < B.length by omega]

theorem runPass_passOut {e : Encoding} {pass c0 : Bool} {A B : List Group} (di : Fin P.LMAX) (hlen : A.length = B.length) :
    (runPass e pass A B c0 di).passOut = addg P e pass A B c0 :=
  passLoop_passOut hlen A.length le_rfl _ (by simp [PassRegs.passOut])

theorem runPass_eq_addg (e : Encoding) (pass c0 : Bool) {A B : List Group} (di : Fin P.LMAX) (hlen : A.length = B.length) :
    (runPass e pass A B c0 di).seq = (addg P e pass A B c0).seq ∧
      (runPass e pass A B c0 di).cy = (addg P e pass A B c0).carry ∧
      (runPass e pass A B c0 di).recs = (addg P e pass A B c0).recs := by
  rw [← runPass_passOut di hlen]
  exact ⟨rfl, rfl, rfl⟩

end Sys2Proof.Machine

/-! PROOF. How the commands end (60_exceptions.md R108, R116; 45_add_sub.md R92, R99): each with flags that fit its terminal
phase, or with a sound fault. -/

namespace Sys2Proof.Machine

open Sys2Proof.Config Sys2Proof.Safety

variable {P : Params}

/-! ### Sound ends of a command (60_exceptions.md R108, R116; 45_add_sub.md R92, R99)

A small program logic for computations that may raise: a postcondition on the value, and one fixed condition on every fault. -/

/-- A fault record as R108 and R116 allow it: a kind that is produced, an index only for InvalidDigitGroup and then below LMAX,
the second operand only for InputOutOfRange and LengthViolation. -/
def FaultRec.Sound (P : Params) (f : FaultRec) : Prop :=
  f.kind ≠ .malformedBinaryLiteral ∧ (f.kind ≠ .invalidDigitGroup → f.idx = 0) ∧ f.idx < P.LMAX ∧
    (f.opnd = true → f.kind = .inputOutOfRange ∨ f.kind = .lengthViolation)

/-- Results whose flags are what their terminal phase stands for (R92, R99). -/
def Results.Sound (r : Results P) : Prop :=
  match r.ph with
  | .done => True
  | .donePositive => r.neg = some false ∧ r.cout = some true ∧ r.matchRef = some true
  | .doneNegative => r.neg = some true ∧ r.cout = some false
  | .idle | .exec | .align | .complement | .add | .interpret | .recomplement | .fault => False

/-- `x` ends with a value that satisfies `Q`, or with a sound fault. -/
def EndsIn {α : Type} (P : Params) (Q : α → Prop) : Except FaultRec α → Prop
  | .ok a => Q a
  | .error f => f.Sound P

theorem EndsIn.bind {α β : Type} {Q : α → Prop} {R : β → Prop} {x : Except FaultRec α} {f : α → Except FaultRec β}
    (hx : EndsIn P Q x) (hf : ∀ a, Q a → EndsIn P R (f a)) : EndsIn P R (x >>= f) := by
  cases x with
  | ok a => exact hf a hx
  | error e => exact hx

/-! ### The faults the checks and the codecs raise -/

theorem sound_inputOutOfRange (P : Params) (opnd : Bool) : FaultRec.Sound P ⟨.inputOutOfRange, opnd, 0⟩ := by
  simp [FaultRec.Sound]

theorem sound_lengthFault (P : Params) (opnd : Bool) : (lengthFault opnd).Sound P := by
  simp [FaultRec.Sound, lengthFault]

theorem sound_illegalFault (P : Params) : illegalFault.Sound P := by
  simp [FaultRec.Sound, illegalFault]

theorem sound_invalidDigitGroup {idx : Nat} (h : idx < P.LMAX) : FaultRec.Sound P ⟨.invalidDigitGroup, false, idx⟩ := by
  simpa [FaultRec.Sound] using h

theorem checkLen_endsIn (opnd : Bool) (len : Nat) : EndsIn P (fun _ => len ≤ P.LMAX) (checkLen P.LMAX opnd len) := by
  by_cases h : 1 ≤ len ∧ len ≤ P.LMAX
  · rw [checkLen_of_legal opnd h]
    exact h.2
  · rw [checkLen_of_illegal opnd h]
    exact sound_lengthFault P opnd

theorem checkLens_endsIn (a b : Nat) : EndsIn P (fun _ => b ≤ P.LMAX) (checkLens P.LMAX a b) :=
  (checkLen_endsIn false a).bind fun _ _ => checkLen_endsIn true b

theorem checkEqualLen_endsIn (a b : Nat) : EndsIn P (fun _ => True) (checkEqualLen a b) := by
  unfold checkEqualLen
  split
  · trivial
  · exact sound_lengthFault P true

theorem checkRoom_endsIn (a b : Nat) : EndsIn P (fun _ => True) (checkRoom P.LMAX a b) := by
  unfold checkRoom
  split
  · exact sound_lengthFault P _
  · trivial

theorem encDigit_endsIn (e : Encoding) (d : Nat) : EndsIn P (fun _ => True) (encDigit e d) := by
  by_cases h : d ≤ 9
  · rw [encDigit_of_le e h]
    trivial
  · rw [encDigit_of_gt e (by omega)]
    exact sound_inputOutOfRange P false

theorem decDigit_endsIn (e : Encoding) {idx : Nat} (g : Group) (h : idx < P.LMAX) :
    EndsIn P (fun _ => True) (decDigit e false idx g) := by
  cases hg : validGroup e g with
  | true =>
    rw [decDigit_of_valid e false idx hg]
    trivial
  | false =>
    rw [decDigit_of_malformed e false idx hg]
    exact sound_invalidDigitGroup h

theorem cmplDigit_endsIn (e : Encoding) {idx : Nat} (g : Group) (h : idx < P.LMAX) :
    EndsIn P (fun _ => True) (cmplDigit e false idx g) := by
  cases e with
  | bcd => exact (decDigit_endsIn .bcd g h).bind fun d _ => encDigit_endsIn .bcd (9 - d)
  | xs3 => trivial

theorem mapRaise_endsIn {α β : Type} {f : Nat → α → Except FaultRec β} {bound : Nat}
    (hf : ∀ j x, j < bound → EndsIn P (fun _ => True) (f j x)) :
    ∀ (k : Nat) (xs : List α), k + xs.length ≤ bound → EndsIn P (fun _ => True) (mapRaise f k xs)
  | _, [], _ => trivial
  | k, x :: xs, h => by
    rw [List.length_cons] at h
    exact (hf k x (by omega)).bind fun _ _ =>
      (mapRaise_endsIn hf (k + 1) xs (by omega)).bind fun _ _ => trivial

theorem cmpl_endsIn (e : Encoding) {E : List Group} (h : E.length ≤ P.LMAX) :
    EndsIn P (fun _ => True) (cmpl e false E) :=
  mapRaise_endsIn (fun _ g hj => cmplDigit_endsIn e g hj) 0 E (by omega)

theorem decnFrom_endsIn (e : Encoding) :
    ∀ (k v : Nat) (E : List Group), k + E.length ≤ P.LMAX → EndsIn P (fun _ => True) (decnFrom e false k v E)
  | _, _, [], _ => trivial
  | k, v, g :: E, h => by
    rw [List.length_cons] at h
    exact (decDigit_endsIn e g (by omega)).bind fun d _ => decnFrom_endsIn e (k + 1) (10 * v + d) E (by omega)

theorem decn_endsIn (e : Encoding) {E : List Group} (h : E.length ≤ P.LMAX) : EndsIn P (fun _ => True) (decn e false E) :=
  decnFrom_endsIn e 0 0 E (by omega)

theorem encn_endsIn (nmax : Nat) (e : Encoding) (opnd : Bool) (n : Nat) : EndsIn P (fun _ => True) (encn nmax e opnd n) := by
  by_cases h : n < 10 ^ nmax
  · rw [encn_of_lt e opnd h]
    trivial
  · rw [encn_of_ge e opnd (by omega)]
    exact sound_inputOutOfRange P opnd

theorem eq_ninesOf_of_cmpl {e : Encoding} {E K : List Group} (h : AllValid e E) (hK : cmpl e false E = .ok K) :
    K = ninesOf e E :=
  (Except.ok.inj ((cmpl_of_valid e false h).symm.trans hK)).symm

theorem cmpl_endsIn_ninesOf {e : Encoding} {E : List Group} (h : AllValid e E) :
    EndsIn P (· = ninesOf e E) (cmpl e false E) := by
  rw [cmpl_of_valid e false h]
  rfl

theorem decn_endsIn_seqValue {e : Encoding} {E : List Group} (h : AllValid e E) :
    EndsIn P (· = seqValue e E) (decn e false E) := by
  rw [decn_of_valid e false h]
  rfl

/-! ### The aligned operands, and the subtraction -/

/-- `RA` and `RB`: two valid sequences of one length whose values are the operands (45_add_sub.md R93). -/
structure AlignedPair (e : Encoding) (n m : Nat) (A B : List Group) : Prop where
  length_eq : A.length = B.length
  one_le_length : 1 ≤ A.length
  valid_left : AllValid e A
  valid_right : AllValid e B
  value_left : seqValue e A = n
  value_right : seqValue e B = m

theorem alignedPair_operandSeq (e : Encoding) (n m : Nat) :
    AlignedPair e n m (operandSeq e (alignedLen n m) n) (operandSeq e (alignedLen n m) m) := by
  have hA : (operandSeq e (alignedLen n m) n).length = alignedLen n m :=
    operandSeq_length (Nat.le_succ_of_le (le_max_left _ _))
  have hB : (operandSeq e (alignedLen n m) m).length = alignedLen n m :=
    operandSeq_length (Nat.le_succ_of_le (le_max_right _ _))
  exact ⟨hA.trans hB.symm, hA.symm ▸ Nat.le_add_left 1 _, allValid_operandSeq e _ n, allValid_operandSeq e _ m,
    seqValue_operandSeq e _ n, seqValue_operandSeq e _ m⟩

theorem encodeAlign_endsIn (nmax : Nat) (e : Encoding) (n m : Nat) :
    EndsIn P (fun p => AlignedPair e n m p.1 p.2) (encodeAlign nmax e n m) := by
  obtain ⟨-, -, hok⟩ | ⟨opnd, herr⟩ := encodeAlign_cases nmax e n m
  · rw [hok]
    exact alignedPair_operandSeq e n m
  · rw [herr]
    exact sound_inputOutOfRange P opnd

theorem alignedPair_of_encodeAlign {nmax n m : Nat} {e : Encoding} {A B : List Group}
    (h : encodeAlign nmax e n m = .ok (A, B)) : AlignedPair e n m A B := by
  have hends := encodeAlign_endsIn (P := Params.default) nmax e n m
  rwa [h] at hends

/-- The sum of an aligned minuend and the nines complement of the subtrahend, with carry seed 1, is `n - m + 10^L`, its
final carry the digit above (45_add_sub.md R95, R96). -/
theorem firstPass_of_alignedPair {e : Encoding} {n m : Nat} {A B : List Group} (h : AlignedPair e n m A B) :
    AllValid e (addg P e false A (ninesOf e B) true).seq ∧ (addg P e false A (ninesOf e B) true).seq.length = A.length ∧
      seqValue e (addg P e false A (ninesOf e B) true).seq + m
          + 10 ^ A.length * (addg P e false A (ninesOf e B) true).carry.toNat = n + 10 ^ A.length := by
  obtain ⟨hlen, -, hA, hB, hn, hm⟩ := h
  obtain ⟨hvalid, hlength, hvalue⟩ :=
    addg_of_valid (P := P) e false true (by rw [ninesOf_length, hlen]) hA (allValid_ninesOf e B)
  have hnines := seqValue_add_ninesOf e hB
  rw [← hlen] at hnines
  refine ⟨hvalid, hlength, ?_⟩
  rw [Bool.toNat_true] at hvalue
  omega

/-- A final carry of 1 makes the value of the first pass the exact difference, so `match` is 1 on the positive path. -/
theorem matchSub_of_carry {e : Encoding} {n m : Nat} {A B : List Group} (h : AlignedPair e n m A B)
    (hc : (addg P e false A (ninesOf e B) true).carry = true) :
    matchSub n m false (seqValue e (addg P e false A (ninesOf e B) true).seq) = true := by
  obtain ⟨-, -, hvalue⟩ := firstPass_of_alignedPair (P := P) h
  rw [hc, Bool.toNat_true, Nat.mul_one] at hvalue
  simp only [matchSub, signedResult, beq_iff_eq]
  rw [if_neg (by decide)]
  omega

/-- The magnitude sequence `RM` of the negative path: the complement `K`, plus 1 where the encoding and the parameter say so
(45_add_sub.md R97, R98). -/
def magnitudeSeq (P : Params) (e : Encoding) (K one : List Group) : List Group :=
  if addsOne P.xs3RecompInc e then (addg P e true K one false).seq else K

theorem allValid_magnitudeSeq {e : Encoding} {K one : List Group} (hlen : K.length = one.length) (hK : AllValid e K)
    (hone : AllValid e one) : AllValid e (magnitudeSeq P e K one) := by
  unfold magnitudeSeq
  split
  · exact (addg_of_valid e true false hlen hK hone).1
  · exact hK

/-- The complement of a sequence and the one-sequence beside it have one length. -/
theorem ninesOf_length_eq_one (e : Encoding) {R : List Group} (h : 1 ≤ R.length) :
    (ninesOf e R).length = (operandSeq e R.length 1).length := by
  rw [ninesOf_length, operandSeq_length (show (canonicalDigits 1).length ≤ R.length from h)]

/-- In the function view the recomplement of a valid sequence delivers the magnitude sequence. -/
theorem recomplement_of_valid {e : Encoding} {R : List Group} (hR : AllValid e R) :
    ∃ recs, recomplement P e R = .ok (magnitudeSeq P e (ninesOf e R) (operandSeq e R.length 1), recs) := by
  rw [recomplement, cmpl_of_valid e false hR, oneSeq_eq_operandSeq, magnitudeSeq]
  cases addsOne P.xs3RecompInc e with
  | true => exact ⟨_, rfl⟩
  | false => exact ⟨_, rfl⟩

theorem recomplement_endsIn {e : Encoding} {R : List Group} (hR : AllValid e R) (hpos : 1 ≤ R.length) :
    EndsIn P (fun p => AllValid e p.1) (recomplement P e R) := by
  obtain ⟨recs, hok⟩ := recomplement_of_valid (P := P) hR
  rw [hok]
  exact allValid_magnitudeSeq (ninesOf_length_eq_one e hpos) (allValid_ninesOf e R) (allValid_operandSeq e _ 1)

/-! ### Every command ends soundly -/

theorem addPath_endsIn (e : Encoding) (n m : Nat) : EndsIn P (fun _ => True) (addPath P e n m) := by
  refine (encodeAlign_endsIn P.N e n m).bind ?_
  rintro ⟨A, B⟩ hpair
  obtain ⟨hvalid, -⟩ := addg_of_valid (P := P) e false false hpair.length_eq hpair.valid_left hpair.valid_right
  exact (decn_endsIn_seqValue hvalid).bind fun _ _ => trivial

/-- The end of SUB: the final carry is the complement of the sign, and with carry 1 the magnitude is exact (R96, R99). -/
theorem subPath_endsIn (e : Encoding) (n m : Nat) :
    EndsIn P (fun p => p.neg = !p.cf ∧ (p.cf = true → p.matchRef = true)) (subPath P e n m) := by
  refine (encodeAlign_endsIn P.N e n m).bind ?_
  rintro ⟨A, B⟩ hpair
  obtain ⟨hvalid, hlength, -⟩ := firstPass_of_alignedPair (P := P) hpair
  have hmatch := matchSub_of_carry (P := P) hpair
  refine (cmpl_endsIn_ninesOf hpair.valid_right).bind ?_
  rintro _ rfl
  dsimp only
  split
  · next hcarry =>
    refine (decn_endsIn_seqValue hvalid).bind ?_
    rintro _ rfl
    exact ⟨rfl, fun _ => hmatch hcarry⟩
  · refine (recomplement_endsIn hvalid (hlength ▸ hpair.one_le_length)).bind ?_
    rintro ⟨RM, recs⟩ hRM
    exact (decn_endsIn_seqValue hRM).bind fun _ _ => ⟨rfl, fun h => absurd h Bool.false_ne_true⟩

/-- The results of SUB, by the sign of their phase. -/
theorem pathOut_results_sound {p : PathOut P} {trace : List (TraceRec P)} (hsign : p.neg = !p.cf)
    (hmatch : p.cf = true → p.matchRef = true) : (p.results (if p.cf then .donePositive else .doneNegative) trace).Sound := by
  cases hcf : p.cf with
  | true => simp [Results.Sound, PathOut.results, hsign, hcf, hmatch hcf]
  | false => simp [Results.Sound, PathOut.results, hsign, hcf]

/-- Every command ends with flags that fit its terminal phase, or with a sound fault. -/
theorem commandFn_endsIn (i : Instr) (o : Operands P) : EndsIn P Results.Sound (commandFn i o) := by
  unfold commandFn
  cases i.op with
  | encd => exact (encDigit_endsIn i.enc _).bind fun _ _ => trivial
  | decd => exact (decDigit_endsIn i.enc _ (Nat.succ_pos P.N)).bind fun _ _ => trivial
  | encn => exact (encn_endsIn P.N i.enc false _).bind fun _ _ => trivial
  | decn =>
    refine (checkLen_endsIn false _).bind fun _ hlen => ?_
    exact (decn_endsIn i.enc (by rwa [groups_length])).bind fun _ _ => trivial
  | pad => exact (checkLens_endsIn _ _).bind fun _ _ => trivial
  | algn => exact (checkLens_endsIn _ _).bind fun _ _ => (checkRoom_endsIn _ _).bind fun _ _ => trivial
  | addg => exact (checkLens_endsIn _ _).bind fun _ _ => (checkEqualLen_endsIn _ _).bind fun _ _ => trivial
  | cmpl =>
    refine (checkLen_endsIn false _).bind fun _ hlen => ?_
    exact (cmpl_endsIn i.enc (by rwa [groups_length])).bind fun _ _ => trivial
  | add => exact (addPath_endsIn i.enc _ _).bind fun _ _ => trivial
  | sub => exact (subPath_endsIn i.enc _ _).bind fun p ⟨hsign, hmatch⟩ => pathOut_results_sound hsign hmatch

end Sys2Proof.Machine

/-! PROOF. The phase view (10_state.md R15 to R21): what each phase does, that it reads no pin, and that it keeps the
invariant. -/

namespace Sys2Proof.Machine

open Sys2Proof.Config Sys2Proof.Safety

variable {P : Params}

/-! ### The actions of the phases, one equation per branch (45_add_sub.md R93 to R99, R106) -/

theorem execPhase_of_ok {s : Block P} {i : Instr} (h : decodeWord s.cwQ = .ok i) :
    execPhase s = s.settle (commandFn i s.opsQ) := by simp [execPhase, h]

theorem execPhase_of_error {s : Block P} {e : Reject} (h : decodeWord s.cwQ = .error e) :
    execPhase s = s.takeFault illegalFault := by simp [execPhase, h]

theorem alignPhase_of_ok {s : Block P} {A B : List Group}
    (h : encodeAlign P.N s.cwEnc s.opsQ.na.toNat s.opsQ.nb.toNat = .ok (A, B)) :
    alignPhase s = { s with work := { s.work with ra := A, rb := B }, ph := if s.cwIsSub then .complement else .add } := by
  simp [alignPhase, h]

theorem alignPhase_of_error {s : Block P} {f : FaultRec}
    (h : encodeAlign P.N s.cwEnc s.opsQ.na.toNat s.opsQ.nb.toNat = .error f) : alignPhase s = s.takeFault f := by
  simp [alignPhase, h]

theorem complementPhase_of_ok {s : Block P} {C : List Group} (h : cmpl s.cwEnc false s.work.rb = .ok C) :
    complementPhase s = { s with work := { s.work with rc := C }, ph := .add } := by simp [complementPhase, h]

theorem complementPhase_of_error {s : Block P} {f : FaultRec} (h : cmpl s.cwEnc false s.work.rb = .error f) :
    complementPhase s = s.takeFault f := by simp [complementPhase, h]

theorem addPhase_of_sub {s : Block P} (h : s.cwIsSub = true) :
    addPhase s =
      { s.firstPass (runPass s.cwEnc false s.work.ra s.work.rc true s.work.di) with ph := .interpret } := by
  simp [addPhase, h]

theorem addPhase_of_add {s t : Block P} (h : s.cwIsSub = false)
    (ht : s.firstPass (runPass s.cwEnc false s.work.ra s.work.rb false s.work.di) = t) :
    addPhase s = t.settle (addResults t) := by
  simp [addPhase, h, ht]

theorem interpretPhase_of_carry {s : Block P} (h : s.work.cf = true) :
    interpretPhase s = s.settle (subResults s false s.work.rr) := by simp [interpretPhase, h]

theorem interpretPhase_of_no_carry {s : Block P} (h : s.work.cf = false) :
    interpretPhase s = { s with ph := .recomplement } := by simp [interpretPhase, h]

theorem recomplementPhase_of_ok {s t : Block P} {K one : List Group} (hK : cmpl s.cwEnc false s.work.rr = .ok K)
    (hone : oneSeq s.cwEnc s.work.rr.length = .ok one) (ht : s.magnitudePass K one = t) :
    recomplementPhase s = t.settle (subResults t true t.work.rm) := by
  simp [recomplementPhase, hK, hone, ht]

theorem recomplementPhase_of_error {s : Block P} {f : FaultRec} (hK : cmpl s.cwEnc false s.work.rr = .error f) :
    recomplementPhase s = s.takeFault f := by simp [recomplementPhase, hK]

@[simp] theorem Block.firstPass_cwEnc (s : Block P) (r : PassRegs P) : (s.firstPass r).cwEnc = s.cwEnc := rfl

@[simp] theorem Block.magnitudePass_cwEnc (s : Block P) (K one : List Group) : (s.magnitudePass K one).cwEnc = s.cwEnc := by
  unfold Block.magnitudePass
  split <;> rfl

@[simp] theorem Block.magnitudePass_cf (s : Block P) (K one : List Group) : (s.magnitudePass K one).work.cf = s.work.cf := by
  unfold Block.magnitudePass
  split <;> rfl

/-- In the phase view `RM` is the magnitude sequence: the serial second pass is the pass as a function (10_state.md R17). -/
theorem Block.magnitudePass_rm (s : Block P) {K one : List Group} (hlen : K.length = one.length) :
    (s.magnitudePass K one).work.rm = magnitudeSeq P s.cwEnc K one := by
  unfold Block.magnitudePass magnitudeSeq
  split
  · exact (runPass_eq_addg s.cwEnc true false s.work.di hlen).1
  · rfl

/-! ### The edge -/

theorem edge_of_rst {s : Block P} (hr : s.pins.rst = true) : edge s = s.resetEdge := by simp [edge, hr]

theorem edge_of_start {s : Block P} (hr : s.pins.rst = false) (hb : s.busy = false) (hs : s.pins.start = true) :
    edge s = s.startEdge := by simp [edge, hr, hb, hs]

theorem edge_of_waiting {s : Block P} (hr : s.pins.rst = false) (hb : s.busy = false) (hs : s.pins.start = false) :
    edge s = s := by simp [edge, hr, hb, hs]

theorem firstPhase_busy (op : Op) : (firstPhase op).busy = true := by cases op <;> rfl

theorem firstPhase_cases (op : Op) : firstPhase op = .exec ∨ firstPhase op = .align := by cases op <;> decide

theorem op_of_firstPhase_align {op : Op} (h : firstPhase op = .align) : op = .add ∨ op = .sub := by
  revert h
  cases op <;> decide

/-- The five things an edge can do, in the words of `step_cases`. -/
theorem edge_cases (s : Block P) :
    (s.pins.rst = true ∧ edge s = s.resetEdge) ∨
    (s.pins.rst = false ∧ s.busy = true ∧ edge s = phaseStep s) ∨
    (s.pins.rst = false ∧ s.busy = false ∧ s.pins.start = true ∧ ∃ i, decodeWord s.pins.cw = .ok i ∧
      edge s = s.accept (firstPhase i.op)) ∨
    (s.pins.rst = false ∧ s.busy = false ∧ s.pins.start = true ∧ (∃ e, decodeWord s.pins.cw = .error e) ∧
      edge s = s.rejectCommand) ∨
    (s.pins.rst = false ∧ s.busy = false ∧ s.pins.start = false ∧ edge s = s) := by
  cases hr : s.pins.rst
  · cases hb : s.busy
    · cases hs : s.pins.start
      · simp [edge_of_waiting hr hb hs]
      · cases h : decodeWord s.pins.cw with
        | ok i => simp [edge_of_start hr hb hs, startEdge_of_ok h]
        | error e => simp [edge_of_start hr hb hs, startEdge_of_error h]
    · simp [edge_of_busy hr hb]
  · simp [edge_of_rst hr]

/-! ### The status vector (10_state.md R21) -/

theorem status_bits (s : Block P) :
    s.status.getLsbD 7 = s.busy ∧ s.status.getLsbD 6 = s.done ∧ s.status.getLsbD 5 = s.errValid ∧
      s.status.getLsbD 4 = s.out.matchRef ∧ s.status.getLsbD 3 = s.out.neg ∧ s.status.getLsbD 2 = s.out.cout ∧
      s.status.getLsbD 1 = false ∧ s.status.getLsbD 0 = false := by
  unfold Block.status
  generalize s.busy = b, s.done = d, s.errValid = v, s.out.matchRef = m, s.out.neg = n, s.out.cout = c
  revert b d v m n c
  decide

theorem status_of_idle {s : Block P} (hph : s.ph = .idle) (hmatch : s.out.matchRef = false) (hneg : s.out.neg = false)
    (hcout : s.out.cout = false) : s.status = 0 := by
  simp only [Block.status, Block.busy, Block.done, Block.errValid, hph, hmatch, hneg, hcout]
  rfl

theorem Phase.busy_iff (p : Phase) :
    p.busy = true ↔ p ∈ [Phase.exec, .align, .complement, .add, .interpret, .recomplement] := by
  cases p <;> decide

theorem Phase.terminal_iff (p : Phase) :
    p.terminal = true ↔ p ∈ [Phase.done, .donePositive, .doneNegative, .fault] := by
  cases p <;> decide

/-! ### A change of the pins (70_reset_and_hazards.md R130) -/

theorem drive_takeFault (s : Block P) (p : Pins P) (f : FaultRec) : (s.drive p).takeFault f = (s.takeFault f).drive p := rfl

theorem drive_firstPass (s : Block P) (p : Pins P) (r : PassRegs P) :
    (s.drive p).firstPass r = (s.firstPass r).drive p := rfl

theorem execPhase_drive (s : Block P) (p : Pins P) : execPhase (s.drive p) = (execPhase s).drive p := by
  cases h : decodeWord s.cwQ with
  | ok i => rw [execPhase_of_ok h, execPhase_of_ok (s := s.drive p) h, drive_settle, Block.drive_opsQ]
  | error e => rw [execPhase_of_error h, execPhase_of_error (s := s.drive p) h, drive_takeFault]

theorem alignPhase_drive (s : Block P) (p : Pins P) : alignPhase (s.drive p) = (alignPhase s).drive p := by
  cases h : encodeAlign P.N s.cwEnc s.opsQ.na.toNat s.opsQ.nb.toNat with
  | ok AB =>
    rw [alignPhase_of_ok h, alignPhase_of_ok (s := s.drive p) h]
    rfl
  | error f => rw [alignPhase_of_error h, alignPhase_of_error (s := s.drive p) h, drive_takeFault]

theorem complementPhase_drive (s : Block P) (p : Pins P) : complementPhase (s.drive p) = (complementPhase s).drive p := by
  cases h : cmpl s.cwEnc false s.work.rb with
  | ok C =>
    rw [complementPhase_of_ok h, complementPhase_of_ok (s := s.drive p) h]
    rfl
  | error f => rw [complementPhase_of_error h, complementPhase_of_error (s := s.drive p) h, drive_takeFault]

theorem addPhase_drive (s : Block P) (p : Pins P) : addPhase (s.drive p) = (addPhase s).drive p := by
  cases h : s.cwIsSub with
  | true =>
    rw [addPhase_of_sub h, addPhase_of_sub (s := s.drive p) h]
    rfl
  | false =>
    rw [addPhase_of_add h rfl, addPhase_of_add (s := s.drive p) h (drive_firstPass s p _)]
    exact drive_settle (s.firstPass _) p _

theorem interpretPhase_drive (s : Block P) (p : Pins P) : interpretPhase (s.drive p) = (interpretPhase s).drive p := by
  cases h : s.work.cf with
  | true =>
    rw [interpretPhase_of_carry h, interpretPhase_of_carry (s := s.drive p) h]
    exact drive_settle s p _
  | false =>
    rw [interpretPhase_of_no_carry h, interpretPhase_of_no_carry (s := s.drive p) h]
    rfl

theorem recomplementPhase_drive (s : Block P) (p : Pins P) :
    recomplementPhase (s.drive p) = (recomplementPhase s).drive p := by
  cases hK : cmpl s.cwEnc false s.work.rr with
  | error f => rw [recomplementPhase_of_error hK, recomplementPhase_of_error (s := s.drive p) hK, drive_takeFault]
  | ok K =>
    have hone := oneSeq_eq_operandSeq s.cwEnc s.work.rr.length
    rw [recomplementPhase_of_ok hK hone rfl,
      recomplementPhase_of_ok (s := s.drive p) hK hone (drive_magnitudePass s p K _)]
    exact drive_settle (s.magnitudePass K _) p _

/-- A phase step reads no pin. -/
theorem phaseStep_drive (s : Block P) (p : Pins P) : phaseStep (s.drive p) = (phaseStep s).drive p := by
  unfold phaseStep
  rw [Block.drive_ph]
  cases s.ph with
  | exec => exact execPhase_drive s p
  | align => exact alignPhase_drive s p
  | complement => exact complementPhase_drive s p
  | add => exact addPhase_drive s p
  | interpret => exact interpretPhase_drive s p
  | recomplement => exact recomplementPhase_drive s p
  | idle | donePositive | doneNegative | done | fault => rfl

/-! ### How the invariant is established -/

theorem errOk_iff_of_ne_fault {s : Block P} (h : s.ph ≠ .fault) : ErrOk s ↔ s.err = ErrRegs.zero := by
  rw [ErrOk, if_neg h]
  rfl

theorem inv_of_err_zero {s : Block P} (h : s.ph ≠ .fault) (herr : s.err = ErrRegs.zero) (hok : PhaseOk s) : Inv s :=
  ⟨hok, (errOk_iff_of_ne_fault h).mpr herr⟩

theorem inv_of_busy {s : Block P} (h : s.busy = true) (herr : s.err = ErrRegs.zero) (hok : PhaseOk s) : Inv s :=
  inv_of_err_zero (fun hph => by simp [Block.busy, hph, Phase.busy] at h) herr hok

theorem inv_drive {s : Block P} (p : Pins P) (h : Inv s) : Inv (s.drive p) := h

theorem inv_afterReset (p : Pins P) (k : Nat) : Inv (Block.afterReset p k) :=
  inv_of_err_zero (by simp [Block.afterReset]) rfl ⟨rfl, rfl, rfl⟩

theorem FaultKind.code_mem {k : FaultKind} (h : k ≠ .malformedBinaryLiteral) :
    k.code ∈ [(0x1 : BitVec 4), 0x2, 0x4, 0x5] := by
  revert h
  cases k <;> decide

theorem FaultKind.ne_invalidDigitGroup_of_code {k : FaultKind} (h : k.code ≠ 0x1) : k ≠ .invalidDigitGroup :=
  fun hk => h (congrArg FaultKind.code hk)

theorem inv_takeFault (s : Block P) {f : FaultRec} (h : f.Sound P) : Inv (s.takeFault f) := by
  obtain ⟨hkind, hidx, hlt, hopnd⟩ := h
  have hnat : (f.regs : ErrRegs P).idx.toNat = f.idx := Nat.mod_eq_of_lt (hlt.trans P.LMAX_lt_LW)
  refine ⟨trivial, ?_⟩
  rw [ErrOk, if_pos (Block.takeFault_ph s f), Block.takeFault_err, hnat]
  refine ⟨FaultKind.code_mem hkind, fun hcode => ?_, hlt, fun ho => ?_⟩
  · exact BitVec.eq_of_toNat_eq (hnat.trans (hidx (FaultKind.ne_invalidDigitGroup_of_code hcode)))
  · obtain hk | hk := hopnd ho <;> simp [FaultRec.regs, hk, FaultKind.code]

theorem Results.Sound.ph_ne_fault {r : Results P} (h : r.Sound) : r.ph ≠ .fault := by
  intro hph
  simp only [Results.Sound, hph] at h

theorem inv_conclude (s : Block P) {r : Results P} (h : r.Sound) : Inv (s.conclude r) := by
  refine inv_of_err_zero h.ph_ne_fault rfl ?_
  cases hph : r.ph <;> simp only [Results.Sound, hph] at h
  case done => simp [PhaseOk, hph]
  case donePositive =>
    obtain ⟨hneg, hcout, hmatch⟩ := h
    simp [PhaseOk, hph, Results.outputs, hneg, hcout, hmatch]
  case doneNegative =>
    obtain ⟨hneg, hcout⟩ := h
    simp [PhaseOk, hph, Results.outputs, hneg, hcout]

theorem inv_settle (s : Block P) {x : Except FaultRec (Results P)} (h : EndsIn P Results.Sound x) : Inv (s.settle x) := by
  cases x with
  | ok r => exact inv_conclude s h
  | error f => exact inv_takeFault s h

theorem inv_rejectCommand (s : Block P) : Inv s.rejectCommand := inv_takeFault _ (sound_illegalFault P)

theorem inv_accept {s : Block P} {i : Instr} (h : decodeWord s.pins.cw = .ok i) : Inv (s.accept (firstPhase i.op)) := by
  have hword : decodeWord s.pins.cw = .ok (instrOf i.op i.enc i.traceBit) := by rw [← instr_eq_instrOf, h]
  refine inv_of_busy (firstPhase_busy i.op) rfl ?_
  obtain hph | hph := firstPhase_cases i.op
  all_goals
    simp only [PhaseOk, Block.accept_ph, hph]
    exact ⟨⟨_, _, _, hword, hph⟩, rfl⟩

/-! ### Every phase step keeps the invariant -/

theorem err_of_inv {s : Block P} (h : Inv s) (hph : s.ph ≠ .fault) : s.err = ErrRegs.zero := by
  obtain ⟨-, herr⟩ := h
  exact (errOk_iff_of_ne_fault hph).mp herr

theorem inv_execPhase {s : Block P} (h : Inv s) (hph : s.ph = .exec) : Inv (execPhase s) := by
  obtain ⟨hok, -⟩ := h
  simp only [PhaseOk, hph] at hok
  obtain ⟨⟨op, e, t, hflight, -⟩, -⟩ := hok
  rw [execPhase_of_ok hflight]
  exact inv_settle s (commandFn_endsIn _ _)

theorem inv_alignPhase {s : Block P} (h : Inv s) (hph : s.ph = .align) : Inv (alignPhase s) := by
  have herr := err_of_inv h (by simp [hph])
  obtain ⟨hok, -⟩ := h
  simp only [PhaseOk, hph] at hok
  obtain ⟨⟨op, e, t, hflight, hfirst⟩, htrace⟩ := hok
  obtain ⟨rfl, -, hsub⟩ := fields_of_inFlight hflight
  have hends := encodeAlign_endsIn (P := P) P.N s.cwEnc s.opsQ.na.toNat s.opsQ.nb.toNat
  cases hal : encodeAlign P.N s.cwEnc s.opsQ.na.toNat s.opsQ.nb.toNat with
  | error f =>
    rw [hal] at hends
    rw [alignPhase_of_error hal]
    exact inv_takeFault s hends
  | ok AB =>
    rw [alignPhase_of_ok hal, hsub]
    obtain rfl | rfl := op_of_firstPhase_align hfirst
    · exact inv_of_busy rfl herr ⟨⟨_, t, hal, .inl hflight⟩, htrace⟩
    · exact inv_of_busy rfl herr ⟨⟨_, t, hflight, hal⟩, htrace⟩

theorem inv_complementPhase {s : Block P} (h : Inv s) (hph : s.ph = .complement) : Inv (complementPhase s) := by
  have herr := err_of_inv h (by simp [hph])
  obtain ⟨hok, -⟩ := h
  simp only [PhaseOk, hph] at hok
  obtain ⟨⟨e, t, hflight, haligned⟩, htrace⟩ := hok
  obtain ⟨rfl, -, -⟩ := fields_of_inFlight hflight
  have hC := cmpl_of_valid s.cwEnc false (alignedPair_of_encodeAlign haligned).valid_right
  rw [complementPhase_of_ok hC]
  exact inv_of_busy rfl herr ⟨⟨_, t, haligned, .inr ⟨hflight, hC⟩⟩, htrace⟩

theorem addResults_endsIn {s : Block P} (h : AllValid s.cwEnc s.work.rr) : EndsIn P Results.Sound (addResults s) :=
  (decn_endsIn_seqValue h).bind fun _ _ => trivial

theorem inv_addPhase {s : Block P} (h : Inv s) (hph : s.ph = .add) : Inv (addPhase s) := by
  have herr := err_of_inv h (by simp [hph])
  obtain ⟨hok, -⟩ := h
  simp only [PhaseOk, hph] at hok
  obtain ⟨⟨e, t, haligned, hcommand⟩, htrace⟩ := hok
  have hpair := alignedPair_of_encodeAlign haligned
  obtain hflight | ⟨hflight, hC⟩ := hcommand
  · obtain ⟨rfl, -, hsub⟩ := fields_of_inFlight hflight
    obtain ⟨hseq, -, -⟩ := runPass_eq_addg s.cwEnc false false s.work.di hpair.length_eq
    obtain ⟨hvalid, -⟩ := addg_of_valid (P := P) s.cwEnc false false hpair.length_eq hpair.valid_left hpair.valid_right
    rw [addPhase_of_add hsub rfl]
    refine inv_settle _ (addResults_endsIn ?_)
    rw [Block.firstPass_cwEnc, Block.firstPass_work]
    exact hseq ▸ hvalid
  · obtain ⟨rfl, rfl, hsub⟩ := fields_of_inFlight hflight
    have hlen : s.work.ra.length = s.work.rc.length := by
      rw [eq_ninesOf_of_cmpl hpair.valid_right hC, ninesOf_length, hpair.length_eq]
    obtain ⟨hseq, hcy, hrecs⟩ := runPass_eq_addg s.cwEnc false true s.work.di hlen
    have htrace' : s.out.trace ++ emitted s.cwTrace (runPass s.cwEnc false s.work.ra s.work.rc true s.work.di).recs
        = emitted s.cwTrace (addg P s.cwEnc false s.work.ra s.work.rc true).recs := by
      rw [htrace, hrecs, List.nil_append]
    rw [addPhase_of_sub hsub]
    exact inv_of_busy rfl herr ⟨_, _, hflight, haligned, hC, hseq, hcy, htrace'⟩

/-- After the first pass of SUB, `RR` is a valid sequence, and with carry 1 it stands for the exact difference. -/
theorem rr_of_firstPassDone {s : Block P} {e : Encoding} {t : Bool} (haligned : Aligned s e) (h : FirstPassDone s e t) :
    AllValid e s.work.rr ∧ 1 ≤ s.work.rr.length ∧
      (s.work.cf = true → matchSub s.opsQ.na.toNat s.opsQ.nb.toNat false (seqValue e s.work.rr) = true) := by
  obtain ⟨hC, hrr, hcf, -⟩ := h
  have hpair := alignedPair_of_encodeAlign haligned
  obtain ⟨hvalid, hlength, -⟩ := firstPass_of_alignedPair (P := P) hpair
  have hmatch := matchSub_of_carry (P := P) hpair
  rw [eq_ninesOf_of_cmpl hpair.valid_right hC] at hrr hcf
  rw [hrr, hcf]
  exact ⟨hvalid, hlength ▸ hpair.one_le_length, hmatch⟩

theorem subResults_positive_endsIn {s : Block P} (hvalid : AllValid s.cwEnc s.work.rr) (hcf : s.work.cf = true)
    (hmatch : matchSub s.opsQ.na.toNat s.opsQ.nb.toNat false (seqValue s.cwEnc s.work.rr) = true) :
    EndsIn P Results.Sound (subResults s false s.work.rr) := by
  refine (decn_endsIn_seqValue hvalid).bind ?_
  rintro _ rfl
  exact ⟨rfl, congrArg some hcf, congrArg some hmatch⟩

theorem subResults_negative_endsIn {s : Block P} {E : List Group} (hvalid : AllValid s.cwEnc E) (hcf : s.work.cf = false) :
    EndsIn P Results.Sound (subResults s true E) :=
  (decn_endsIn_seqValue hvalid).bind fun _ _ => ⟨rfl, congrArg some hcf⟩

theorem inv_interpretPhase {s : Block P} (h : Inv s) (hph : s.ph = .interpret) : Inv (interpretPhase s) := by
  have herr := err_of_inv h (by simp [hph])
  obtain ⟨hok, -⟩ := h
  simp only [PhaseOk, hph] at hok
  obtain ⟨e, t, hflight, haligned, hfirst⟩ := hok
  cases hcf : s.work.cf with
  | true =>
    obtain ⟨rfl, -, -⟩ := fields_of_inFlight hflight
    obtain ⟨hvalid, -, hmatch⟩ := rr_of_firstPassDone haligned hfirst
    rw [interpretPhase_of_carry hcf]
    exact inv_settle s (subResults_positive_endsIn hvalid hcf (hmatch hcf))
  | false =>
    rw [interpretPhase_of_no_carry hcf]
    exact inv_of_busy rfl herr ⟨e, t, hflight, haligned, hfirst, hcf⟩

theorem inv_recomplementPhase {s : Block P} (h : Inv s) (hph : s.ph = .recomplement) : Inv (recomplementPhase s) := by
  obtain ⟨hok, -⟩ := h
  simp only [PhaseOk, hph] at hok
  obtain ⟨e, t, hflight, haligned, hfirst, hcf⟩ := hok
  obtain ⟨rfl, -, -⟩ := fields_of_inFlight hflight
  obtain ⟨hvalid, hpos, -⟩ := rr_of_firstPassDone haligned hfirst
  have hone := ninesOf_length_eq_one s.cwEnc hpos
  rw [recomplementPhase_of_ok (cmpl_of_valid _ false hvalid) (oneSeq_eq_operandSeq _ _) rfl]
  refine inv_settle _ (subResults_negative_endsIn ?_ ?_)
  · rw [Block.magnitudePass_cwEnc, Block.magnitudePass_rm s hone]
    exact allValid_magnitudeSeq hone (allValid_ninesOf _ _) (allValid_operandSeq _ _ 1)
  · rw [Block.magnitudePass_cf, hcf]

/-- Every phase step keeps the invariant: each phase finds its registers as R17's table says and writes its own. -/
theorem inv_phaseStep {s : Block P} (h : Inv s) : Inv (phaseStep s) := by
  unfold phaseStep
  cases hph : s.ph with
  | exec => exact inv_execPhase h hph
  | align => exact inv_alignPhase h hph
  | complement => exact inv_complementPhase h hph
  | add => exact inv_addPhase h hph
  | interpret => exact inv_interpretPhase h hph
  | recomplement => exact inv_recomplementPhase h hph
  | idle | donePositive | doneNegative | done | fault => exact h

/-! ### Both views keep the invariant -/

theorem inv_edge {s : Block P} (h : Inv s) : Inv (edge s) := by
  obtain ⟨-, he⟩ | ⟨-, -, he⟩ | ⟨-, -, -, i, hi, he⟩ | ⟨-, -, -, -, he⟩ | ⟨-, -, -, he⟩ := edge_cases s <;> rw [he]
  · exact inv_afterReset s.pins s.fresh
  · exact inv_phaseStep h
  · exact inv_accept hi
  · exact inv_rejectCommand s
  · exact h

theorem inv_step {s : Block P} (h : Inv s) : ∃ u : Block P, step ⟨P, s⟩ = .next ⟨P, u⟩ ∧ Inv u := by
  obtain ⟨-, hs⟩ | ⟨-, -, hs⟩ | ⟨-, -, -, i, -, hs⟩ | ⟨-, -, -, -, hs⟩ | ⟨-, -, -, hs⟩ := step_cases s
  · exact ⟨_, hs, inv_afterReset s.pins s.fresh⟩
  · exact ⟨_, hs, inv_phaseStep h⟩
  · exact ⟨_, hs, inv_settle _ (commandFn_endsIn i _)⟩
  · exact ⟨_, hs, inv_rejectCommand s⟩
  · exact ⟨_, hs, h⟩

end Sys2Proof.Machine

/-! PROOF. The state of the block (10_state.md R15 to R24): the statements. -/

namespace Sys2Proof.Proofs

open Sys2Proof.Config Sys2Proof.Machine

/-- Settles O55: a reset, an accepted `start` and every end of a transaction establish the invariant, and each phase step keeps
it; DONE_POSITIVE has `match` = 1 because a final carry of 1 makes the first pass the exact difference. -/
theorem everyStepKeepsTheInvariant : Obligations.EveryStepKeepsTheInvariant := by
  rintro ⟨P, s⟩ h
  obtain ⟨u, hstep, hu⟩ := inv_step h
  refine ⟨fun t ht => ?_, inv_edge h⟩
  obtain rfl := Host.Outcome.next.inj (hstep.symm.trans ht)
  exact ⟨rfl, hu⟩

/-- Settles O9: `Block.accept` samples the pins, and no phase step reads one. -/
theorem inputsAreSampledAtStartOnly : Obligations.InputsAreSampledAtStartOnly := by
  refine fun P => ⟨fun s hr hb hs hok => ?_, fun s p hb hr hp => ?_⟩
  · cases hi : decodeWord s.pins.cw with
    | ok i =>
      rw [edge_of_start hr hb hs, startEdge_of_ok hi]
      exact ⟨firstPhase_busy i.op, rfl, rfl⟩
    | error e =>
      rw [hi] at hok
      cases hok
  · rw [edge_of_busy hr hb, edge_of_busy (s := s.drive p) hp hb, phaseStep_drive]

/-- Settles O11: both views take the reset edge, which depends on the pins and the counter alone. -/
theorem resetEdgeGivesTheResetState : Obligations.ResetEdgeGivesTheResetState := by
  refine fun P s hr => ⟨⟨s.resetEdge, step_of_rst hr, edge_of_rst hr, rfl, rfl, rfl, rfl, rfl, rfl, rfl, rfl,
    status_of_idle rfl rfl rfl rfl, rfl⟩, fun s' hpins hfresh => ?_⟩
  rw [edge_of_rst hr, edge_of_rst (hpins ▸ hr), Block.resetEdge, Block.resetEdge, hpins, hfresh]

/-- Settles O12: the values of `Block.afterReset`. -/
theorem resetStateHasTheStatedValues : Obligations.ResetStateHasTheStatedValues :=
  ⟨fun _ => ⟨rfl, rfl, rfl, rfl, rfl, rfl, rfl, rfl, status_of_idle rfl rfl rfl rfl⟩, rfl, rfl, rfl, rfl⟩

/-- Settles O54: the invariant holds after a reset, whatever the pins are. -/
theorem invariantHoldsAtReset : Obligations.InvariantHoldsAtReset :=
  ⟨fun _ => inv_afterReset Pins.idle 0, inv_afterReset Pins.idle 0⟩

/-- Settles O56: the invariant speaks of no pin. -/
theorem hostCannotBreakTheInvariant : Obligations.HostCannotBreakTheInvariant :=
  fun _ _ p h => inv_drive p h

/-- Settles O59: in each of the five things a step can do, the next state keeps the parameters. -/
theorem stepsKeepTheParameters : Obligations.StepsKeepTheParameters := by
  intro P s
  obtain ⟨-, hs⟩ | ⟨-, -, hs⟩ | ⟨-, -, -, i, -, hs⟩ | ⟨-, -, -, -, hs⟩ | ⟨-, -, -, hs⟩ := step_cases s
  all_goals exact ⟨_, hs⟩

/-- Settles O15: each bit is one output, and `busy` and `done` are the phases that R15 lists. -/
theorem statusBits : Obligations.StatusBits := by
  intro P s
  obtain ⟨h7, h6, h5, h4, h3, h2, h1, h0⟩ := status_bits s
  rw [h7, h6, h5]
  exact ⟨Phase.busy_iff s.ph, Phase.terminal_iff s.ph, beq_iff_eq, h4, h3, h2, h1, h0⟩

end Sys2Proof.Proofs

/-! PROOF. A sequence on a port (20_memory.md R28): what an output port holds, and what an input port presents. -/

namespace Sys2Proof.Machine

open Sys2Proof.Config Sys2Proof.Safety

variable {P : Params}

/-! ### Reading a port -/

theorem EncPort.groups_getD (p : EncPort P) {k : Nat} (h : k < p.len.toNat) : p.groups.getD k 0 = p.group k := by
  simp [EncPort.groups, h]

/-- A port presents the sequence it holds: each group is read from the place it was put in. -/
theorem groups_eq_of_portHolds {p : EncPort P} {E : List Group} (h : PortHolds p E) : p.groups = E := by
  obtain ⟨hlen, hplace, -⟩ := h
  refine List.ext_getElem (by rw [groups_length, hlen]) fun k hk hkE => ?_
  rw [groups_length] at hk
  calc p.groups[k]
      = p.groups.getD k 0 := (List.getD_eq_getElem _ _ _).symm
    _ = p.grp.extractLsb' (4 * (E.length - 1 - k)) 4 := by rw [p.groups_getD hk, EncPort.group, hlen]
    _ = E[k] := by rw [hplace k hkE, List.getD_eq_getElem _ _ hkE]

/-! ### Packing a sequence -/

/-- `LW` bits hold every length up to `LMAX`. -/
theorem packSeq_len_toNat {E : List Group} (h : E.length ≤ P.LMAX) : (packSeq E : EncPort P).len.toNat = E.length := by
  simpa [packSeq] using Nat.mod_eq_of_lt (h.trans_lt P.LMAX_lt_LW)

/-- `4·LMAX` bits hold the numeral of every sequence of up to `LMAX` groups. -/
theorem packSeq_grp_toNat {E : List Group} (h : E.length ≤ P.LMAX) : (packSeq E : EncPort P).grp.toNat = hexValue E := by
  have hfits : hexValue E < 2 ^ (4 * P.LMAX) :=
    calc hexValue E < 16 ^ E.length := hexValue_lt E
      _ ≤ 16 ^ P.LMAX := Nat.pow_le_pow_right (by norm_num) h
      _ = 2 ^ (4 * P.LMAX) := by rw [pow_mul]; norm_num
  simpa [packSeq] using Nat.mod_eq_of_lt hfits

/-- The four bits from `4·i` on are the hexadecimal digit of weight `16 ^ i`. -/
theorem toNat_extractLsb'_four {w : Nat} (v : BitVec w) (i : Nat) :
    (v.extractLsb' (4 * i) 4).toNat = v.toNat / 16 ^ i % 16 := by
  rw [BitVec.extractLsb'_toNat, Nat.shiftRight_eq_div_pow, pow_mul]
  norm_num

/-- The group of index `k` is the hexadecimal digit of weight `16 ^ (L - 1 - k)`, and a numeral of `L` digits is below
`16 ^ L`. -/
theorem portHolds_packSeq {E : List Group} (h : E.length ≤ P.LMAX) : PortHolds (packSeq E : EncPort P) E := by
  refine ⟨packSeq_len_toNat h, fun k hk => BitVec.eq_of_toNat_eq ?_, ?_⟩
  · rw [toNat_extractLsb'_four, packSeq_grp_toNat h, hexValue_digit E k hk]
  · rw [packSeq_grp_toNat h]
    exact hexValue_lt E

end Sys2Proof.Machine

namespace Sys2Proof.Proofs

open Sys2Proof.Config Sys2Proof.Machine

/-- Settles O6: the packed port holds the sequence, so it presents it again; the input clause is how a port is read. -/
theorem portPackingIsRightAligned : Obligations.PortPackingIsRightAligned :=
  fun _ => ⟨fun _ _ hmax => ⟨portHolds_packSeq hmax, groups_eq_of_portHolds (portHolds_packSeq hmax)⟩,
    fun p => ⟨groups_length p, fun _ hk => p.groups_getD hk⟩⟩

end Sys2Proof.Proofs

/-! PROOF. The command word (30_encoding.md R39 to R46): its fields, the words that select an instruction, and sequences of
words. -/

namespace Sys2Proof

open Sys2Proof.Machine Sys2Proof.Safety

/-! ### The fields of a command word (R39) -/

@[simp] theorem Encoding.ofBit_bit (e : Encoding) : Encoding.ofBit e.bit = e := by cases e <;> rfl

@[simp] theorem Encoding.bit_ofBit (b : Bool) : (Encoding.ofBit b).bit = b := by cases b <;> rfl

theorem joinWord_splitWord (w : CmdWord) : joinWord (splitWord w) = w := by
  refine BitVec.eq_of_getLsbD_eq fun i hi => ?_
  simp only [joinWord, splitWord, Encoding.bit_ofBit, BitVec.getLsbD_append, BitVec.getLsbD_extractLsb']
  interval_cases i <;> simp

theorem getLsbD_joinWord (f : CmdFields) (i : Nat) :
    (joinWord f).getLsbD i = if i < 4 then f.op.getLsbD i else if i < 5 then (BitVec.ofBool f.e.bit).getLsbD (i - 4)
      else if i < 6 then (BitVec.ofBool f.t).getLsbD (i - 5) else f.rsv.getLsbD (i - 6) := by
  have he : i - 4 < 1 ↔ i < 5 := by omega
  have ht : i - 5 < 1 ↔ i < 6 := by omega
  simp only [joinWord, BitVec.getLsbD_append]
  simp only [Nat.sub_sub, Nat.reduceAdd, he, ht]

theorem splitWord_joinWord (f : CmdFields) : splitWord (joinWord f) = f := by
  have hrsv : (joinWord f).extractLsb' 6 2 = f.rsv := by
    refine BitVec.eq_of_getLsbD_eq fun i hi => ?_
    interval_cases i <;> simp [getLsbD_joinWord, -BitVec.getLsbD_eq_getElem]
  have hop : (joinWord f).extractLsb' 0 4 = f.op := by
    refine BitVec.eq_of_getLsbD_eq fun i hi => ?_
    interval_cases i <;> simp [getLsbD_joinWord, -BitVec.getLsbD_eq_getElem]
  have ht : (joinWord f).getLsbD 5 = f.t := by simp [getLsbD_joinWord, -BitVec.getLsbD_eq_getElem]
  have he : (joinWord f).getLsbD 4 = f.e.bit := by simp [getLsbD_joinWord, -BitVec.getLsbD_eq_getElem]
  rw [splitWord, hrsv, ht, he, hop, Encoding.ofBit_bit]

theorem splitWord_eq_iff {w : CmdWord} {f : CmdFields} : splitWord w = f ↔ w = joinWord f :=
  ⟨fun h => h ▸ (joinWord_splitWord w).symm, fun h => h ▸ splitWord_joinWord f⟩

theorem splitWord_rsv_toNat (w : CmdWord) : (splitWord w).rsv.toNat = w.toNat / 64 := by
  rw [splitWord, BitVec.extractLsb'_toNat, Nat.shiftRight_eq_div_pow]
  omega

theorem splitWord_op_toNat (w : CmdWord) : (splitWord w).op.toNat = w.toNat % 16 := by
  rw [splitWord, BitVec.extractLsb'_toNat, Nat.shiftRight_zero]

/-! ### The decoder and the encoder (R40, R45) -/

theorem Op.ofCode_eq_some_iff : ∀ {c : BitVec 4} {op : Op}, Op.ofCode c = some op ↔ c = op.code := by
  intro c op
  cases op <;> revert c <;> decide

/-- An `OP` field is legal exactly if some operation has it. -/
theorem CmdFields.opOk_iff {f : CmdFields} : f.opOk = true ↔ ∃ op : Op, f.op = op.code := by
  simp_rw [← Op.ofCode_eq_some_iff, ← Option.isSome_iff_exists, CmdFields.opOk]
  generalize f.op = c
  revert c
  decide

theorem Instr.fields_instrOf (op : Op) (e : Encoding) (t : Bool) :
    (instrOf op e t).fields = { rsv := 0, t := t, e := e, op := op.code } := by
  simp [Instr.fields]

theorem Instr.fields_wf (i : Instr) : i.fields.wf = true :=
  Bool.and_eq_true_iff.mpr ⟨rfl, CmdFields.opOk_iff.mpr ⟨i.op, rfl⟩⟩

/-- The decoder reads the fields of an instruction, and nothing else, as that instruction. -/
theorem decodeWord_eq_ok_iff_fields {w : CmdWord} {i : Instr} : decodeWord w = .ok i ↔ splitWord w = i.fields := by
  constructor
  · intro h
    unfold decodeWord at h
    dsimp only at h
    split at h
    next hrsv =>
      split at h
      next op hop =>
        obtain rfl := Except.ok.inj h
        rw [Instr.fields_instrOf, ← Op.ofCode_eq_some_iff.mp hop, ← beq_iff_eq.mp hrsv]
      next => cases h
    next => cases h
  · intro h
    have hop : Op.ofCode i.op.code = some i.op := Op.ofCode_eq_some_iff.mpr rfl
    simp only [decodeWord, h, Instr.fields, CmdFields.rsvOk, hop, beq_self_eq_true, if_true, ← instr_eq_instrOf]

/-- Every instruction has one word, and no other word decodes to it. -/
theorem decodeWord_eq_ok_iff {w : CmdWord} {i : Instr} : decodeWord w = .ok i ↔ w = encodeWord i :=
  decodeWord_eq_ok_iff_fields.trans splitWord_eq_iff

/-- A word selects an instruction exactly if its fields are legal (R45). -/
theorem exists_decodeWord_eq_ok_iff {w : CmdWord} : (∃ i, decodeWord w = .ok i) ↔ (splitWord w).wf = true := by
  simp only [decodeWord_eq_ok_iff_fields]
  constructor
  · rintro ⟨i, hi⟩
    exact hi ▸ i.fields_wf
  · intro h
    obtain ⟨hrsv, hopOk⟩ := Bool.and_eq_true_iff.mp h
    obtain ⟨op, hop⟩ := CmdFields.opOk_iff.mp hopOk
    refine ⟨instrOf op (splitWord w).e (splitWord w).t, ?_⟩
    rw [Instr.fields_instrOf, ← hop, ← beq_iff_eq.mp hrsv]

theorem splitWord_wf_iff {w : CmdWord} :
    (splitWord w).wf = true ↔ w.toNat / 64 = 0 ∧ 1 ≤ w.toNat % 16 ∧ w.toNat % 16 ≤ 10 := by
  rw [← splitWord_rsv_toNat, ← splitWord_op_toNat]
  simp [CmdFields.wf, CmdFields.rsvOk, CmdFields.opOk, ← BitVec.toNat_inj]

theorem exists_of_decodeWord_isOk {w : CmdWord} (h : (decodeWord w).isOk = true) : ∃ i, decodeWord w = .ok i := by
  cases hw : decodeWord w with
  | ok i => exact ⟨i, rfl⟩
  | error e =>
    rw [hw] at h
    cases h

/-- None of the 192 words from 64 on is legal: their `RSV` is not 00 (R45). -/
theorem countP_isOk_of_reservedBits :
    (((List.range 192).map (64 + ·)).map (BitVec.ofNat 8)).countP (fun w => (decodeWord w).isOk) = 0 := by
  simp only [List.countP_eq_zero, List.mem_map, List.mem_range]
  rintro _ ⟨_, ⟨k, hk, rfl⟩, rfl⟩ hok
  obtain ⟨hrsv, -⟩ := splitWord_wf_iff.mp (exists_decodeWord_eq_ok_iff.mp (exists_of_decodeWord_isOk hok))
  rw [BitVec.toNat_ofNat] at hrsv
  omega

/-! ### Sequences of words (R46) -/

theorem decode_cons_eq_ok_iff {w : CmdWord} {ws rest : List CmdWord} {i : Instr} :
    decode (w :: ws) = .ok (i, rest) ↔ w = encodeWord i ∧ ws = rest := by
  rw [← decodeWord_eq_ok_iff, decode]
  cases decodeWord w <;> simp

theorem decodeAll_cons_eq_ok_iff {w : CmdWord} {ws : List CmdWord} {is : List Instr} :
    decodeAll (w :: ws) = .ok is ↔ ∃ i js, w = encodeWord i ∧ decodeAll ws = .ok js ∧ is = i :: js := by
  simp only [decodeAll, bind_eq_ok_iff, Prod.exists, decode_cons_eq_ok_iff, pure, Except.pure, Except.ok.injEq,
    @eq_comm _ (_ :: _) is]
  constructor
  · rintro ⟨i, _, ⟨hw, -⟩, js, hjs, his⟩
    exact ⟨i, js, hw, hjs, his⟩
  · rintro ⟨i, js, hw, hjs, his⟩
    exact ⟨i, [], ⟨hw, rfl⟩, js, hjs, his⟩

/-- Words presented one by one decode to a sequence of instructions exactly if they are its words. -/
theorem decodeAll_eq_ok_iff {ws : List CmdWord} : ∀ {is : List Instr}, decodeAll ws = .ok is ↔ ws = is.flatMap encode := by
  induction ws with
  | nil =>
    intro is
    cases is with
    | nil => simp [decodeAll]
    | cons i is => simp [decodeAll, encode]
  | cons w ws ih =>
    intro is
    rw [decodeAll_cons_eq_ok_iff]
    cases is with
    | nil => simp
    | cons i is => simp [encode, ih]

end Sys2Proof

namespace Sys2Proof.Proofs

/-- Settles O3: induction on the words, each of which decodes alone to the one instruction whose word it is. -/
theorem wordSequencesRoundTrip : Obligations.WordSequencesRoundTrip :=
  fun _ _ => decodeAll_eq_ok_iff.trans (and_iff_right fun _ _ => rfl).symm

/-- Settles O1: the first word is the instruction's, and the decoder leaves the others. -/
theorem decodeOfEncodeIsTheInstr : Obligations.DecodeOfEncodeIsTheInstr :=
  fun _ _ _ => decode_cons_eq_ok_iff.mpr ⟨rfl, rfl⟩

/-- Settles O2: no other word than its own decodes to an instruction. -/
theorem encodeOfDecodeIsTheWord : Obligations.EncodeOfDecodeIsTheWord :=
  fun _ _ h => (decodeWord_eq_ok_iff.mp h).symm

/-- Settles O4: a word is legal by its fields, which are quotient and remainder of its number; the 40 are among the 64 words
with `RSV` = 00, as R45 counts them. -/
theorem legalWordsAreForty : Obligations.LegalWordsAreForty := by
  refine ⟨fun _ => exists_decodeWord_eq_ok_iff.trans splitWord_wf_iff, ?_⟩
  rw [show (256 : Nat) = 64 + 192 from rfl, List.range_add, List.map_append, List.countP_append, countP_isOk_of_reservedBits]
  decide

/-- Settles O5: the decoder evaluated on the twelve words. -/
theorem writtenWordsDecode : Obligations.WrittenWordsDecode := by
  refine ⟨?_, ?_, ?_, ?_, ?_, ?_, ?_, ?_, ?_, ?_, ?_, ?_⟩
  all_goals rfl

end Sys2Proof.Proofs

/-! PROOF. What the command word asks for (30_encoding.md R42, R48): the trace only with `T`, and ADD and SUB as sequences of the
other commands. -/

namespace Sys2Proof.Machine

open Sys2Proof.Config Sys2Proof.Safety

variable {P : Params}

/-! ### The trace (30_encoding.md R42, 43_adder.md R78) -/

@[simp] theorem emitted_nil (t : Bool) : emitted t ([] : List (TraceRec P)) = [] := ite_self []

theorem emitted_of_not_tracing {t : Bool} (recs : List (TraceRec P)) (h : P.trace = false ∨ t = false) :
    emitted t recs = [] := by
  rw [emitted, tracing, Bool.and_eq_false_iff.mpr h]
  rfl

/-- The trace of a command is the records of its adder passes, under its trace bit; only ADDG, ADD and SUB run a pass. -/
theorem trace_of_commandFn_eq_ok {i : Instr} {o : Operands P} {r : Results P} (h : commandFn i o = .ok r) :
    ∃ recs, r.trace = emitted i.traceBit recs ∧ (i.op ∉ [Op.addg, Op.add, Op.sub] → recs = []) := by
  unfold commandFn at h
  generalize i.op = op at h ⊢
  generalize i.traceBit = t at h ⊢
  cases op with
  | encd | decd | encn | pad =>
    obtain ⟨_, -, ⟨⟩⟩ := bind_eq_ok_iff.mp h
    exact ⟨[], (emitted_nil t).symm, fun _ => rfl⟩
  | decn | algn | cmpl =>
    obtain ⟨_, -, h⟩ := bind_eq_ok_iff.mp h
    obtain ⟨_, -, ⟨⟩⟩ := bind_eq_ok_iff.mp h
    exact ⟨[], (emitted_nil t).symm, fun _ => rfl⟩
  | addg =>
    obtain ⟨_, -, h⟩ := bind_eq_ok_iff.mp h
    obtain ⟨_, -, ⟨⟩⟩ := bind_eq_ok_iff.mp h
    exact ⟨_, rfl, fun hop => absurd (by decide) hop⟩
  | add | sub =>
    obtain ⟨_, -, ⟨⟩⟩ := bind_eq_ok_iff.mp h
    exact ⟨_, rfl, fun hop => absurd (by decide) hop⟩

/-! ### Lengths that fit (00_scope.md R4) -/

theorem encoded_length {n : Nat} (e : Encoding) (h : n < 10 ^ P.N) :
    1 ≤ ((canonicalDigits n).map (groupOf e)).length ∧ ((canonicalDigits n).map (groupOf e)).length ≤ P.N := by
  rw [List.length_map, canonicalDigits_length]
  exact ⟨le_max_left _ _, max_le P.one_le_N ((Nat.digits_length_le_iff (by norm_num) n).mpr h)⟩

theorem alignedLen_eq (e : Encoding) (n m : Nat) :
    alignedLen n m =
      max ((canonicalDigits n).map (groupOf e)).length ((canonicalDigits m).map (groupOf e)).length + 1 := by
  simp only [List.length_map, alignedLen]

/-- The reserved digit fits, since `LMAX` is `N + 1`. -/
theorem alignedLen_legal {n m : Nat} (hn : n < 10 ^ P.N) (hm : m < 10 ^ P.N) :
    1 ≤ alignedLen n m ∧ alignedLen n m ≤ P.LMAX := by
  rw [alignedLen_eq .bcd]
  exact ⟨Nat.le_add_left 1 _, Nat.succ_le_succ (max_le (encoded_length .bcd hn).2 (encoded_length .bcd hm).2)⟩

/-! ### A sequence carried from an output port to an input port (20_memory.md R28) -/

theorem groups_packSeq {E : List Group} (h : E.length ≤ P.LMAX) : (packSeq E : EncPort P).groups = E :=
  groups_eq_of_portHolds (portHolds_packSeq h)

theorem groups_of_eq_packSeq {p : EncPort P} {E : List Group} (h : p = packSeq E) (hE : E.length ≤ P.LMAX) : p.groups = E :=
  h ▸ groups_packSeq hE

theorem len_toNat_of_groups {p : EncPort P} {E : List Group} (h : p.groups = E) : p.len.toNat = E.length := by
  rw [← h, groups_length]

/-! ### What a command does on operands that fit

One lemma per command: it ends in DONE, and each output is what R44 says. -/

theorem exec_of_commandFn_ok {i : Instr} {s : Block P} {r : Results P} (h : commandFn i s.pins.ops = .ok r) :
    exec i ⟨P, s⟩ = .next ⟨P, (s.accept (firstPhase i.op)).conclude r⟩ := by
  rw [exec_eq_next, h, Block.settle_ok]

theorem exec_encn_of_lt (e : Encoding) (t : Bool) {s : Block P} {n : Nat} (hna : s.pins.ops.na.toNat = n)
    (hn : n < 10 ^ P.N) :
    ∃ u, exec (instrOf .encn e t) ⟨P, s⟩ = .next ⟨P, u⟩ ∧ u.ph = .done ∧
      u.out.ra = packSeq ((canonicalDigits n).map (groupOf e)) := by
  have hfn : commandFn (instrOf .encn e t) s.pins.ops =
      .ok { ra := some (packSeq ((canonicalDigits n).map (groupOf e))) } := by
    simp [commandFn, encnFn, hna, encn_of_lt e false hn, bind, Except.bind, pure, Except.pure]
  exact ⟨_, exec_of_commandFn_ok hfn, rfl, rfl⟩

theorem exec_decn_of_valid {e : Encoding} (t : Bool) {s : Block P} {E : List Group} (hE : s.pins.ops.ea.groups = E)
    (hlen : 1 ≤ E.length ∧ E.length ≤ P.LMAX) (hvalid : AllValid e E) :
    ∃ u, exec (instrOf .decn e t) ⟨P, s⟩ = .next ⟨P, u⟩ ∧ u.ph = .done ∧
      u.out.mag = BitVec.ofNat P.RW (seqValue e E) ∧ u.out.neg = false := by
  have hfn : commandFn (instrOf .decn e t) s.pins.ops =
      .ok { mag := some (BitVec.ofNat P.RW (seqValue e E)), neg := some false } := by
    simp [commandFn, decnFn, len_toNat_of_groups hE, checkLen_of_legal false hlen, hE, decn_of_valid e false hvalid, bind,
      Except.bind, pure, Except.pure]
  exact ⟨_, exec_of_commandFn_ok hfn, rfl, rfl, rfl⟩

theorem exec_algn_of_room (e : Encoding) (t : Bool) {s : Block P} {A B : List Group} (hA : s.pins.ops.ea.groups = A)
    (hB : s.pins.ops.eb.groups = B) (hposA : 1 ≤ A.length) (hposB : 1 ≤ B.length)
    (hroom : max A.length B.length + 1 ≤ P.LMAX) :
    ∃ u, exec (instrOf .algn e t) ⟨P, s⟩ = .next ⟨P, u⟩ ∧ u.ph = .done ∧
      u.out.ra = packSeq (align1 e A B).1 ∧ u.out.rb = packSeq (align1 e A B).2 := by
  have hlens := checkLens_of_legal (lmax := P.LMAX) ⟨hposA, by omega⟩ ⟨hposB, by omega⟩
  have hfn : commandFn (instrOf .algn e t) s.pins.ops =
      .ok { ra := some (packSeq (align1 e A B).1), rb := some (packSeq (align1 e A B).2) } := by
    simp [commandFn, algnFn, len_toNat_of_groups hA, len_toNat_of_groups hB, hlens, checkRoom, not_lt.mpr hroom, hA, hB, bind,
      Except.bind, pure, Except.pure]
  exact ⟨_, exec_of_commandFn_ok hfn, rfl, rfl, rfl⟩

theorem exec_addg_of_lengths (e : Encoding) (t : Bool) {s : Block P} {A B : List Group} {c : Bool}
    (hA : s.pins.ops.ea.groups = A) (hB : s.pins.ops.eb.groups = B) (hc : s.pins.ops.c0 = c)
    (hlen : 1 ≤ A.length ∧ A.length ≤ P.LMAX) (heq : A.length = B.length) :
    ∃ u, exec (instrOf .addg e t) ⟨P, s⟩ = .next ⟨P, u⟩ ∧ u.ph = .done ∧ u.out.ra = packSeq (addg P e false A B c).seq ∧
      u.out.cout = (addg P e false A B c).carry ∧ u.out.trace = emitted t (addg P e false A B c).recs := by
  have hfn : commandFn (instrOf .addg e t) s.pins.ops =
      .ok { ra := some (packSeq (addg P e false A B c).seq), cout := some (addg P e false A B c).carry
            trace := emitted t (addg P e false A B c).recs } := by
    simp [commandFn, addgFn, len_toNat_of_groups hA, len_toNat_of_groups hB, ← heq, checkLens_of_legal hlen hlen,
      checkEqualLen, hA, hB, hc, bind, Except.bind, pure, Except.pure]
  exact ⟨_, exec_of_commandFn_ok hfn, rfl, rfl, rfl, rfl⟩

theorem exec_cmpl_of_valid {e : Encoding} (t : Bool) {s : Block P} {E : List Group} (hE : s.pins.ops.ea.groups = E)
    (hlen : 1 ≤ E.length ∧ E.length ≤ P.LMAX) (hvalid : AllValid e E) :
    ∃ u, exec (instrOf .cmpl e t) ⟨P, s⟩ = .next ⟨P, u⟩ ∧ u.ph = .done ∧ u.out.ra = packSeq (ninesOf e E) := by
  have hfn : commandFn (instrOf .cmpl e t) s.pins.ops = .ok { ra := some (packSeq (ninesOf e E)) } := by
    simp [commandFn, cmplFn, len_toNat_of_groups hE, checkLen_of_legal false hlen, hE, cmpl_of_valid e false hvalid, bind,
      Except.bind, pure, Except.pure]
  exact ⟨_, exec_of_commandFn_ok hfn, rfl, rfl⟩

/-! ### ADD and SUB in terms of one adder pass (45_add_sub.md R88, R93 to R99) -/

/-- The one pass of ADD: over the aligned operands, with carry seed 0 (R88). -/
def sumPass (P : Params) (e : Encoding) (n m : Nat) : PassOut P :=
  addg P e false (operandSeq e (alignedLen n m) n) (operandSeq e (alignedLen n m) m) false

/-- The first pass of SUB: over the aligned minuend and the complement of the subtrahend, with carry seed 1 (R93 to R95). -/
def differencePass (P : Params) (e : Encoding) (n m : Nat) : PassOut P :=
  addg P e false (operandSeq e (alignedLen n m) n) (ninesOf e (operandSeq e (alignedLen n m) m)) true

theorem addg_eq_differencePass (P : Params) (e : Encoding) (n m : Nat) :
    addg P e false (operandSeq e (alignedLen n m) n) (ninesOf e (operandSeq e (alignedLen n m) m)) true =
      differencePass P e n m := rfl

/-- The sequence SUB reads its magnitude from: the result of the first pass, or what the negative path recovers from it
(R96 to R98). -/
def differenceSeq (P : Params) (e : Encoding) (n m : Nat) : List Group :=
  if (differencePass P e n m).carry then (differencePass P e n m).seq
  else magnitudeSeq P e (ninesOf e (differencePass P e n m).seq) (operandSeq e (differencePass P e n m).seq.length 1)

theorem differenceSeq_of_carry {e : Encoding} {n m : Nat} (h : (differencePass P e n m).carry = true) :
    differenceSeq P e n m = (differencePass P e n m).seq := if_pos h

theorem differenceSeq_of_no_carry {e : Encoding} {n m : Nat} (h : (differencePass P e n m).carry = false) :
    differenceSeq P e n m = magnitudeSeq P e (ninesOf e (differencePass P e n m).seq)
      (operandSeq e (differencePass P e n m).seq.length 1) := if_neg (by simp [h])

theorem operandSeq_length_left (e : Encoding) (n m : Nat) : (operandSeq e (alignedLen n m) n).length = alignedLen n m :=
  operandSeq_length (Nat.le_succ_of_le (le_max_left _ _))

theorem operandSeq_length_right (e : Encoding) (n m : Nat) : (operandSeq e (alignedLen n m) m).length = alignedLen n m :=
  operandSeq_length (Nat.le_succ_of_le (le_max_right _ _))

theorem align1_map_groupOf (e : Encoding) (n m : Nat) :
    align1 e ((canonicalDigits n).map (groupOf e)) ((canonicalDigits m).map (groupOf e)) =
      (operandSeq e (alignedLen n m) n, operandSeq e (alignedLen n m) m) := by
  simp [align1_eq, operandSeq, alignedLen]

theorem sumPass_allValid_length (e : Encoding) (n m : Nat) :
    AllValid e (sumPass P e n m).seq ∧ (sumPass P e n m).seq.length = alignedLen n m := by
  obtain ⟨hlen, -, hA, hB, -, -⟩ := alignedPair_operandSeq e n m
  obtain ⟨hvalid, hlength, -⟩ := addg_of_valid (P := P) e false false hlen hA hB
  exact ⟨hvalid, hlength.trans (operandSeq_length_left e n m)⟩

theorem differencePass_allValid_length (e : Encoding) (n m : Nat) :
    AllValid e (differencePass P e n m).seq ∧ (differencePass P e n m).seq.length = alignedLen n m := by
  obtain ⟨hvalid, hlength, -⟩ := firstPass_of_alignedPair (P := P) (alignedPair_operandSeq e n m)
  exact ⟨hvalid, hlength.trans (operandSeq_length_left e n m)⟩

theorem allValid_differenceSeq (e : Encoding) (n m : Nat) : AllValid e (differenceSeq P e n m) := by
  obtain ⟨hvalid, hlength⟩ := differencePass_allValid_length (P := P) e n m
  unfold differenceSeq
  split
  · exact hvalid
  · exact allValid_magnitudeSeq (ninesOf_length_eq_one e (hlength ▸ Nat.le_add_left 1 _)) (allValid_ninesOf e _)
      (allValid_operandSeq e _ 1)

theorem addPath_of_lt (e : Encoding) {n m : Nat} (hn : n < 10 ^ P.N) (hm : m < 10 ^ P.N) :
    ∃ p, addPath P e n m = .ok p ∧ p.rr = (sumPass P e n m).seq ∧ p.cf = (sumPass P e n m).carry ∧
      p.mag = seqValue e (sumPass P e n m).seq ∧ p.neg = false ∧ p.recs = (sumPass P e n m).recs := by
  have hmag := decn_of_valid e false (sumPass_allValid_length (P := P) e n m).1
  unfold sumPass at hmag ⊢
  simp only [addPath, encodeAlign_of_lt e hn hm, hmag, bind, Except.bind, pure, Except.pure]
  exact ⟨_, rfl, rfl, rfl, rfl, rfl, rfl⟩

theorem subPath_of_lt (e : Encoding) {n m : Nat} (hn : n < 10 ^ P.N) (hm : m < 10 ^ P.N) :
    ∃ p, subPath P e n m = .ok p ∧ p.rr = (differencePass P e n m).seq ∧ p.cf = (differencePass P e n m).carry ∧
      p.mag = seqValue e (differenceSeq P e n m) ∧ p.neg = !(differencePass P e n m).carry := by
  obtain ⟨hvalid, hlength⟩ := differencePass_allValid_length (P := P) e n m
  obtain ⟨recs, hrecomplement⟩ := recomplement_of_valid (P := P) hvalid
  have hmag := decn_of_valid e false (allValid_differenceSeq (P := P) e n m)
  unfold differenceSeq at hmag ⊢
  simp only [subPath, encodeAlign_of_lt e hn hm, cmpl_of_valid e false (allValid_operandSeq e _ m), bind, Except.bind, pure,
    Except.pure, addg_eq_differencePass]
  by_cases hcarry : (differencePass P e n m).carry = true
  · simp only [if_pos hcarry] at hmag ⊢
    simp only [hmag, hcarry]
    exact ⟨_, rfl, rfl, rfl, rfl, rfl⟩
  · simp only [if_neg hcarry, hrecomplement] at hmag ⊢
    simp only [hmag, Bool.eq_false_iff.mpr hcarry]
    exact ⟨_, rfl, rfl, rfl, rfl, rfl⟩

theorem exec_add_of_lt (e : Encoding) (t : Bool) {s : Block P} {n m : Nat} (hna : s.pins.ops.na.toNat = n)
    (hnb : s.pins.ops.nb.toNat = m) (hn : n < 10 ^ P.N) (hm : m < 10 ^ P.N) :
    ∃ u, exec (instrOf .add e t) ⟨P, s⟩ = .next ⟨P, u⟩ ∧ u.ph = .done ∧ u.out.ra = packSeq (sumPass P e n m).seq ∧
      u.out.cout = (sumPass P e n m).carry ∧ u.out.mag = BitVec.ofNat P.RW (seqValue e (sumPass P e n m).seq) ∧
      u.out.neg = false ∧ u.out.trace = emitted t (sumPass P e n m).recs := by
  obtain ⟨p, hp, hrr, hcf, hmag, hneg, hrecs⟩ := addPath_of_lt (P := P) e hn hm
  have hfn : commandFn (instrOf .add e t) s.pins.ops = .ok (p.results .done (emitted t p.recs)) := by
    simp [commandFn, addFn, hna, hnb, hp, bind, Except.bind, pure, Except.pure]
  rw [← hmag, ← hrr, ← hcf, ← hneg, ← hrecs]
  exact ⟨_, exec_of_commandFn_ok hfn, rfl, rfl, rfl, rfl, rfl, rfl⟩

theorem exec_sub_of_lt (e : Encoding) (t : Bool) {s : Block P} {n m : Nat} (hna : s.pins.ops.na.toNat = n)
    (hnb : s.pins.ops.nb.toNat = m) (hn : n < 10 ^ P.N) (hm : m < 10 ^ P.N) :
    ∃ u, exec (instrOf .sub e t) ⟨P, s⟩ = .next ⟨P, u⟩ ∧ u.out.ra = packSeq (differencePass P e n m).seq ∧
      u.out.cout = (differencePass P e n m).carry ∧ u.out.mag = BitVec.ofNat P.RW (seqValue e (differenceSeq P e n m)) ∧
      u.out.neg = !(differencePass P e n m).carry := by
  obtain ⟨p, hp, hrr, hcf, hmag, hneg⟩ := subPath_of_lt (P := P) e hn hm
  have hfn : commandFn (instrOf .sub e t) s.pins.ops =
      .ok (p.results (if p.cf then .donePositive else .doneNegative) (emitted t p.recs)) := by
    simp [commandFn, subFn, hna, hnb, hp, bind, Except.bind, pure, Except.pure]
  rw [← hrr, ← hneg, ← hcf, ← hmag]
  exact ⟨_, exec_of_commandFn_ok hfn, rfl, rfl, rfl, rfl⟩

/-! ### The commands that a host runs for ADD and SUB (30_encoding.md R48) -/

/-- ENCN, ENCN and ALGN leave the two operands aligned, as ADD and SUB align them. -/
theorem exec_encn_encn_algn (e : Encoding) (t : Bool) (s : Block P) (hn : s.pins.ops.na.toNat < 10 ^ P.N)
    (hm : s.pins.ops.nb.toNat < 10 ^ P.N) :
    ∃ t1 t2 t3 : Block P, exec (instrOf .encn e t) ⟨P, s⟩ = .next ⟨P, t1⟩ ∧
      exec (instrOf .encn e t) ⟨P, t1.drive { s.pins with ops := { s.pins.ops with na := s.pins.ops.nb } }⟩ =
        .next ⟨P, t2⟩ ∧
      exec (instrOf .algn e t)
          ⟨P, t2.drive { s.pins with ops := { s.pins.ops with ea := t1.out.ra, eb := t2.out.ra } }⟩ = .next ⟨P, t3⟩ ∧
      t1.ph = .done ∧ t2.ph = .done ∧ t3.ph = .done ∧
      t3.out.ra.groups = operandSeq e (alignedLen s.pins.ops.na.toNat s.pins.ops.nb.toNat) s.pins.ops.na.toNat ∧
      t3.out.rb.groups = operandSeq e (alignedLen s.pins.ops.na.toNat s.pins.ops.nb.toNat) s.pins.ops.nb.toNat := by
  generalize hna : s.pins.ops.na.toNat = n at hn ⊢
  generalize hnb : s.pins.ops.nb.toNat = m at hm ⊢
  obtain ⟨hposA, hfitA⟩ := encoded_length e hn
  obtain ⟨hposB, hfitB⟩ := encoded_length e hm
  obtain ⟨-, hfit⟩ := alignedLen_legal hn hm
  obtain ⟨t1, h1, hph1, hra1⟩ := exec_encn_of_lt e t hna hn
  obtain ⟨t2, h2, hph2, hra2⟩ := exec_encn_of_lt e t
    (s := t1.drive { s.pins with ops := { s.pins.ops with na := s.pins.ops.nb } }) hnb hm
  obtain ⟨t3, h3, hph3, hra3, hrb3⟩ := exec_algn_of_room e t
    (s := t2.drive { s.pins with ops := { s.pins.ops with ea := t1.out.ra, eb := t2.out.ra } })
    (groups_of_eq_packSeq hra1 (Nat.le_succ_of_le hfitA)) (groups_of_eq_packSeq hra2 (Nat.le_succ_of_le hfitB)) hposA hposB
    (alignedLen_eq e n m ▸ hfit)
  rw [align1_map_groupOf] at hra3 hrb3
  exact ⟨t1, t2, t3, h1, h2, h3, hph1, hph2, hph3,
    groups_of_eq_packSeq hra3 ((operandSeq_length_left e n m).trans_le hfit),
    groups_of_eq_packSeq hrb3 ((operandSeq_length_right e n m).trans_le hfit)⟩

/-- CMPL of the aligned subtrahend and ADDG with seed 1 run the first pass of SUB. -/
theorem exec_cmpl_addg {e : Encoding} (t : Bool) (v : Block P) (p : Pins P) {x y : EncPort P} {n m : Nat}
    (hn : n < 10 ^ P.N) (hm : m < 10 ^ P.N) (hx : x.groups = operandSeq e (alignedLen n m) n)
    (hy : y.groups = operandSeq e (alignedLen n m) m) :
    ∃ t1 t2 : Block P,
      exec (instrOf .cmpl e t) ⟨P, v.drive { p with ops := { p.ops with ea := y } }⟩ = .next ⟨P, t1⟩ ∧
      exec (instrOf .addg e t) ⟨P, t1.drive { p with ops := { p.ops with ea := x, eb := t1.out.ra, c0 := true } }⟩ =
        .next ⟨P, t2⟩ ∧
      t1.ph = .done ∧ t2.ph = .done ∧ t2.out.ra = packSeq (differencePass P e n m).seq ∧
      t2.out.cout = (differencePass P e n m).carry := by
  have hlenA := operandSeq_length_left e n m
  have hlenB := operandSeq_length_right e n m
  have hlegal := alignedLen_legal hn hm
  obtain ⟨t1, h1, hph1, hra1⟩ := exec_cmpl_of_valid t (s := v.drive { p with ops := { p.ops with ea := y } }) hy
    (by rwa [hlenB]) (allValid_operandSeq e _ m)
  have hC := groups_of_eq_packSeq hra1 (((ninesOf_length e _).trans hlenB).trans_le hlegal.2)
  obtain ⟨t2, h2, hph2, hra2, hcout2, -⟩ := exec_addg_of_lengths e t (c := true)
    (s := t1.drive { p with ops := { p.ops with ea := x, eb := t1.out.ra, c0 := true } })
    hx hC rfl (by rwa [hlenA]) (by rw [ninesOf_length, hlenA, hlenB])
  rw [addg_eq_differencePass] at hra2 hcout2
  exact ⟨t1, t2, h1, h2, hph1, hph2, hra2, hcout2⟩

/-- ADDG on two valid sequences leaves a sequence that DECN decodes. -/
theorem exec_addg_decn {e : Encoding} (t : Bool) (v : Block P) (p : Pins P) {x y : EncPort P} {A B : List Group} (c : Bool)
    (hx : x.groups = A) (hy : y.groups = B) (hlegal : 1 ≤ A.length ∧ A.length ≤ P.LMAX) (hlen : A.length = B.length)
    (hA : AllValid e A) (hB : AllValid e B) :
    ∃ t1 t2 : Block P,
      exec (instrOf .addg e t) ⟨P, v.drive { p with ops := { p.ops with ea := x, eb := y, c0 := c } }⟩ = .next ⟨P, t1⟩ ∧
      exec (instrOf .decn e t) ⟨P, t1.drive { p with ops := { p.ops with ea := t1.out.ra } }⟩ = .next ⟨P, t2⟩ ∧
      t1.ph = .done ∧ t2.ph = .done ∧ t1.out.ra = packSeq (addg P e false A B c).seq ∧
      t1.out.cout = (addg P e false A B c).carry ∧ t1.out.trace = emitted t (addg P e false A B c).recs ∧
      t2.out.mag = BitVec.ofNat P.RW (seqValue e (addg P e false A B c).seq) ∧ t2.out.neg = false := by
  obtain ⟨hR, hlenR, -⟩ := addg_of_valid (P := P) e false c hlen hA hB
  obtain ⟨t1, h1, hph1, hra, hcout, htrace⟩ := exec_addg_of_lengths e t (c := c)
    (s := v.drive { p with ops := { p.ops with ea := x, eb := y, c0 := c } }) hx hy rfl hlegal hlen
  rw [← hlenR] at hlegal
  obtain ⟨t2, h2, hph2, hmag, hneg⟩ := exec_decn_of_valid t
    (s := t1.drive { p with ops := { p.ops with ea := t1.out.ra } }) (groups_of_eq_packSeq hra hlegal.2) hlegal hR
  exact ⟨t1, t2, h1, h2, hph1, hph2, hra, hcout, htrace, hmag, hneg⟩

/-- Which pass of its command a pass is, and where its positions begin, show in its trace records only. -/
theorem addPass_seq_carry_congr (e : Encoding) (c0 pass pass' : Bool) :
    ∀ (pos pos' : Nat) (A B : List Group),
      (addPass P e pass c0 pos A B).seq = (addPass P e pass' c0 pos' A B).seq ∧
        (addPass P e pass c0 pos A B).carry = (addPass P e pass' c0 pos' A B).carry
  | _, _, [], _ => ⟨rfl, rfl⟩
  | _, _, _ :: _, [] => ⟨rfl, rfl⟩
  | pos, pos', a :: A, b :: B => by
    obtain ⟨hseq, hcarry⟩ := addPass_seq_carry_congr e c0 pass pass' (pos + 1) (pos' + 1) A B
    simp only [addPass, hseq, hcarry, and_self]

theorem magnitudeSeq_of_addsOne {e : Encoding} (h : e = .bcd ∨ P.xs3RecompInc = true) (K one : List Group) :
    magnitudeSeq P e K one = (addg P e false K one false).seq := by
  have hadds : addsOne P.xs3RecompInc e = true := by
    obtain rfl | hinc := h
    · rfl
    · cases e with
      | bcd => rfl
      | xs3 => exact hinc
  rw [magnitudeSeq, if_pos hadds]
  exact (addPass_seq_carry_congr e false true false 0 0 K one).1

theorem magnitudeSeq_of_not_addsOne (hinc : P.xs3RecompInc = false) (K one : List Group) :
    magnitudeSeq P .xs3 K one = K :=
  if_neg (by simp [addsOne, hinc])

end Sys2Proof.Machine

namespace Sys2Proof.Proofs

open Sys2Proof.Config Sys2Proof.Machine

/-- Settles O52: a fault discards the trace, and the results carry the records of the command's passes under its trace bit. -/
theorem traceOnlyWhenAskedFor : Obligations.TraceOnlyWhenAskedFor := by
  intro P i s t hexec hquiet
  obtain rfl := next_block_inj ((exec_eq_transact i s).symm.trans hexec)
  obtain ⟨r, hr, hend⟩ | ⟨f, -, hend⟩ := s.transact_cases (firstPhase i.op) (commandFn i)
  · obtain ⟨recs, htrace, hpass⟩ := trace_of_commandFn_eq_ok hr
    rw [hend, Block.conclude_out, Results.outputs_trace, htrace]
    obtain hP | ht | hop := hquiet
    · exact emitted_of_not_tracing recs (.inl hP)
    · exact emitted_of_not_tracing recs (.inr ht)
    · rw [hpass hop, emitted_nil]
  · rw [hend]
    rfl

/-- Settles O46: the host's ENCN, ENCN and ALGN align the operands as ADD does, ADDG runs ADD's pass, and DECN decodes it. -/
theorem addIsItsComponentCommands : Obligations.AddIsItsComponentCommands := by
  rintro P e t s _ rfl hn hm
  obtain ⟨t1, t2, t3, h1, h2, h3, hph1, hph2, hph3, hA, hB⟩ := exec_encn_encn_algn e t s hn hm
  generalize hna : s.pins.ops.na.toNat = n at hn hA hB
  generalize hnb : s.pins.ops.nb.toNat = m at hm hA hB
  obtain ⟨u, hu, hphu, hra, hcout, hmag, hneg, htrace⟩ := exec_add_of_lt e t hna hnb hn hm
  have hlenA := operandSeq_length_left e n m
  obtain ⟨t4, t5, h4, h5, hph4, hph5, hra4, hcout4, htrace4, hmag5, hneg5⟩ := exec_addg_decn t t3 s.pins false hA hB
    (by rw [hlenA]; exact alignedLen_legal hn hm) (hlenA.trans (operandSeq_length_right e n m).symm)
    (allValid_operandSeq e _ n) (allValid_operandSeq e _ m)
  exact ⟨t1, t2, t3, t4, t5, u, h1, h2, h3, h4, h5, hu, by simp [hph1, hph2, hph3, hph4, hph5, hphu], hra.trans hra4.symm,
    hcout.trans hcout4.symm, hmag.trans hmag5.symm, hneg.trans hneg5.symm, htrace.trans htrace4.symm⟩

/-- Settles O47: the host's CMPL and ADDG with seed 1 run SUB's first pass on the aligned operands, and the carry selects the
sequence that DECN decodes: that result, its complement, or the complement plus one. -/
theorem subIsItsComponentCommands : Obligations.SubIsItsComponentCommands := by
  rintro P e t s _ rfl hn hm
  obtain ⟨t1, t2, t3, h1, h2, h3, hph1, hph2, hph3, hA, hB⟩ := exec_encn_encn_algn e t s hn hm
  generalize hna : s.pins.ops.na.toNat = n at hn hA hB
  generalize hnb : s.pins.ops.nb.toNat = m at hm hA hB
  obtain ⟨u, hu, hra, hcout, hmag, hneg⟩ := exec_sub_of_lt e t hna hnb hn hm
  obtain ⟨hvalid, hlen⟩ := differencePass_allValid_length (P := P) e n m
  obtain ⟨t4, t5, h4, h5, hph4, hph5, hra5, hcout5⟩ := exec_cmpl_addg t t3 s.pins hn hm hA hB
  have hlegal := alignedLen_legal hn hm
  rw [← hlen] at hlegal
  have hR := groups_of_eq_packSeq hra5 hlegal.2
  refine ⟨t1, t2, t3, t4, t5, u, h1, h2, h3, h4, h5, hu, by simp [hph1, hph2, hph3, hph4, hph5], hra.trans hra5.symm,
    hcout.trans hcout5.symm, by rw [hneg, hcout5], fun hc => ?_, fun hc => ?_⟩
  · obtain ⟨t6, h6, hph6, hmag6, -⟩ := exec_decn_of_valid t
      (s := t5.drive { s.pins with ops := { s.pins.ops with ea := t5.out.ra } }) hR hlegal hvalid
    exact ⟨t6, h6, hph6, by rw [hmag, hmag6, differenceSeq_of_carry (hcout5.symm.trans hc)]⟩
  · rw [differenceSeq_of_no_carry (hcout5.symm.trans hc)] at hmag
    have hK := allValid_ninesOf e (differencePass P e n m).seq
    have hlenK := ninesOf_length e (differencePass P e n m).seq
    rw [← hlenK] at hlegal
    obtain ⟨t6, h6, hph6, hra6⟩ := exec_cmpl_of_valid t
      (s := t5.drive { s.pins with ops := { s.pins.ops with ea := t5.out.ra } }) hR (by rwa [← hlenK]) hvalid
    have hgroups6 := groups_of_eq_packSeq hra6 hlegal.2
    refine ⟨t6, h6, hph6, ?_, fun hadds one hone => ?_⟩
    · rintro ⟨rfl, hinc⟩
      obtain ⟨t7, h7, hph7, hmag7, -⟩ := exec_decn_of_valid t
        (s := t6.drive { s.pins with ops := { s.pins.ops with ea := t6.out.ra } }) hgroups6 hlegal hK
      exact ⟨t7, h7, hph7, by rw [hmag, hmag7, magnitudeSeq_of_not_addsOne hinc]⟩
    · rw [len_toNat_of_groups hR] at hone
      have hlenOne := ninesOf_length_eq_one e (hlenK ▸ hlegal.1)
      obtain ⟨t7, t8, h7, h8, hph7, hph8, -, -, -, hmag8, -⟩ := exec_addg_decn t t6 s.pins false hgroups6
        (groups_eq_of_portHolds hone) hlegal hlenOne hK (allValid_operandSeq e _ 1)
      exact ⟨t7, t8, h7, h8, hph7, hph8, by rw [hmag, hmag8, magnitudeSeq_of_addsOne hadds]⟩

end Sys2Proof.Proofs

/-! PROOF. The digit codec (40_digit_codec.md R49 to R53): ENCD and DECD, and how their transactions end. -/

namespace Sys2Proof

open Sys2Proof.Safety

/-! ### The match word of an instruction (30_encoding.md R40, R42) -/

/-- The mask 0xDF clears the trace bit and nothing else. -/
theorem joinWord_and_mask (f : CmdFields) : joinWord f &&& 0xDF = joinWord { f with t := false } := by
  refine BitVec.eq_of_getLsbD_eq fun i hi => ?_
  rw [BitVec.getLsbD_and, getLsbD_joinWord, getLsbD_joinWord]
  interval_cases i <;> simp

/-- The match word of an opcode table row is its word with trace bit 0. -/
theorem hasMatch_instrOf (op : Op) (e : Encoding) (t : Bool) :
    HasMatch (instrOf op e t) (joinWord { rsv := 0, t := false, e := e, op := op.code }) := by
  rw [HasMatch, encodeWord, Instr.fields_instrOf, joinWord_and_mask]

end Sys2Proof

namespace Sys2Proof.Machine

open Sys2Proof.Config Sys2Proof.Safety

variable {P : Params}

/-! ### A transaction with its frame (30_encoding.md R44, 60_exceptions.md R115 to R117) -/

theorem ended_conclude (s : Block P) (p : Phase) (r : Results P) : Ended s ((s.accept p).conclude r) r.ph :=
  ⟨rfl, rfl, rfl⟩

/-- The index of a fault fits `err_idx` when it is the place of a group. -/
theorem faulted_takeFault (s : Block P) (p : Phase) {f : FaultRec} (h : f.idx < P.LMAX) :
    Faulted s ((s.accept p).takeFault f) f.kind.code f.opnd f.idx :=
  ⟨rfl, rfl, rfl, rfl, rfl, rfl, (BitVec.toNat_ofNat _ _).trans (Nat.mod_eq_of_lt (h.trans P.LMAX_lt_LW)), rfl⟩

theorem exec_faulted_of_commandFn_error {i : Instr} {s : Block P} {f : FaultRec} (h : commandFn i s.pins.ops = .error f)
    (hidx : f.idx < P.LMAX) : ∃ u, exec i ⟨P, s⟩ = .next ⟨P, u⟩ ∧ Faulted s u f.kind.code f.opnd f.idx :=
  ⟨_, by rw [exec_eq_next, h, Block.settle_error], faulted_takeFault s _ hidx⟩

/-! ### What ENCD and DECD compute (R49 to R52) -/

theorem commandFn_encd (e : Encoding) (t : Bool) (o : Operands P) : commandFn (instrOf .encd e t) o = encdFn e o := by
  simp [commandFn]

theorem commandFn_decd (e : Encoding) (t : Bool) (o : Operands P) : commandFn (instrOf .decd e t) o = decdFn e o := by
  simp [commandFn]

theorem encdFn_of_le (e : Encoding) {o : Operands P} (h : o.x4.toNat ≤ 9) :
    encdFn e o = .ok { rX4 := some (groupOf e o.x4.toNat) } := by
  rw [encdFn, encDigit_of_le e h]
  rfl

theorem encdFn_of_gt (e : Encoding) {o : Operands P} (h : 9 < o.x4.toNat) :
    encdFn e o = .error ⟨.inputOutOfRange, false, 0⟩ := by
  rw [encdFn, encDigit_of_gt e h]
  rfl

theorem decdFn_of_valid {e : Encoding} {o : Operands P} (h : validGroup e o.x4 = true) :
    decdFn e o = .ok { rX4 := some (grp4 (digitOf e o.x4)) } := by
  rw [decdFn, decDigit_of_valid e false 0 h]
  rfl

theorem decdFn_of_malformed {e : Encoding} {o : Operands P} (h : validGroup e o.x4 = false) :
    decdFn e o = .error ⟨.invalidDigitGroup, false, 0⟩ := by
  rw [decdFn, decDigit_of_malformed e false 0 h]
  rfl

/-- A digit fits a group, so its 4-bit numeral drops nothing. -/
theorem grp4_digitOf_toNat {e : Encoding} {g : Group} (h : validGroup e g = true) :
    (grp4 (digitOf e g)).toNat = digitOf e g :=
  (BitVec.toNat_ofNat _ _).trans (Nat.mod_eq_of_lt ((digitOf_le e h).trans_lt (by norm_num)))

end Sys2Proof.Machine

namespace Sys2Proof.Proofs

open Sys2Proof.Machine Sys2Proof.Safety

/-- Settles O17: `enc_digit` answers the group of a digit up to 9 and raises InputOutOfRange above; the transaction ends with
that result or that fault. -/
theorem encdEncodesADigit : Obligations.EncdEncodesADigit := by
  refine ⟨fun t => ⟨hasMatch_instrOf .encd .bcd t, hasMatch_instrOf .encd .xs3 t⟩,
    fun P e t s => ⟨fun hle => ?_, fun hgt => ?_⟩⟩
  · have hfn := (commandFn_encd e t s.pins.ops).trans (encdFn_of_le e hle)
    exact ⟨_, exec_of_commandFn_ok hfn, ended_conclude s _ _, rfl, rfl⟩
  · have hfn := (commandFn_encd e t s.pins.ops).trans (encdFn_of_gt e hgt)
    exact exec_faulted_of_commandFn_error hfn P.N.succ_pos

/-- Settles O18: `dec_digit` answers the digit of a valid group, which fits `r_x4`, and raises InvalidDigitGroup for any
other. -/
theorem decdDecodesAGroup : Obligations.DecdDecodesAGroup := by
  refine ⟨fun t => ⟨hasMatch_instrOf .decd .bcd t, hasMatch_instrOf .decd .xs3 t⟩,
    fun P e t s => ⟨fun hvalid => ?_, fun hmalformed => ?_⟩⟩
  · have hfn := (commandFn_decd e t s.pins.ops).trans (decdFn_of_valid hvalid)
    exact ⟨_, exec_of_commandFn_ok hfn, ended_conclude s _ _, grp4_digitOf_toNat hvalid, rfl⟩
  · have hfn := (commandFn_decd e t s.pins.ops).trans (decdFn_of_malformed hmalformed)
    exact exec_faulted_of_commandFn_error hfn P.N.succ_pos

/-- Settles O19: on digits and valid groups the codec is `groupOf` and `digitOf`, which invert each other. -/
theorem digitRoundTrip : Obligations.DigitRoundTrip := by
  refine fun e opnd idx => ⟨fun d hd => ?_, fun g hg => ?_⟩
  · have hvalid := validGroup_groupOf e hd
    refine ⟨groupOf e d, encDigit_of_le e hd, hvalid, ?_⟩
    rw [decDigit_of_valid e opnd idx hvalid, digitOf_groupOf e hd]
  · have hle := digitOf_le e hg
    refine ⟨digitOf e g, decDigit_of_valid e opnd idx hg, hle, ?_⟩
    rw [encDigit_of_le e hle, groupOf_digitOf e g hg]

end Sys2Proof.Proofs

/-! PROOF. The number codec (41_number_codec.md R54 to R60): ENCN and DECN, and the canonical digits they exchange. -/

namespace Sys2Proof.Machine

open Sys2Proof.Config Sys2Proof.Safety

variable {P : Params}

/-! ### Digits and their groups (30_encoding.md R35 to R38) -/

theorem groupOf_eq_groupOf_zero_iff (e : Encoding) {d : Nat} (h : d ≤ 9) : groupOf e d = groupOf e 0 ↔ d = 0 := by
  refine ⟨fun hgroup => ?_, fun hd => hd ▸ rfl⟩
  rw [← digitOf_groupOf e h, hgroup, digitOf_groupOf e (Nat.zero_le 9)]

theorem digitOf_eq_zero_iff {e : Encoding} {g : Group} (h : validGroup e g = true) : digitOf e g = 0 ↔ g = groupOf e 0 := by
  rw [← groupOf_eq_groupOf_zero_iff e (digitOf_le e h), groupOf_digitOf e g h]

theorem map_groupOf_digitOf {e : Encoding} {E : List Group} (h : AllValid e E) : (E.map (digitOf e)).map (groupOf e) = E := by
  rw [List.map_map]
  exact (List.map_congr_left fun g hg => groupOf_digitOf e g (h g hg)).trans (List.map_id E)

/-! ### The leading digit (R54) -/

theorem canonicalDigits_of_ne_zero {n : Nat} (h : n ≠ 0) : canonicalDigits n = (Nat.digits 10 n).reverse := if_neg h

theorem eq_zero_of_canonicalDigits_head? {n : Nat} (h : (canonicalDigits n).head? = some 0) : n = 0 := by
  by_contra hn
  have hne := (Nat.digits_ne_nil_iff_ne_zero (b := 10)).mpr hn
  rw [canonicalDigits_of_ne_zero hn, List.head?_reverse, List.getLast?_eq_some_getLast hne, Option.some_inj] at h
  exact Nat.getLast_digit_ne_zero 10 hn h

theorem eq_zero_of_encoded_head? {e : Encoding} {n : Nat}
    (h : ((canonicalDigits n).map (groupOf e)).head? = some (groupOf e 0)) : n = 0 := by
  rw [List.head?_map, Option.map_eq_some_iff] at h
  obtain ⟨d, hd, hgroup⟩ := h
  obtain rfl := (groupOf_eq_groupOf_zero_iff e (canonicalDigits_le n d (List.mem_of_mem_head? hd))).mp hgroup
  exact eq_zero_of_canonicalDigits_head? hd

/-! ### Leading zeros (R57, R60) -/

theorem seqValue_zeros_append (e : Encoding) (z : Nat) (E : List Group) :
    seqValue e (List.replicate z (groupOf e 0) ++ E) = seqValue e E := by
  rw [seqValue_append, seqValue_zeros, Nat.zero_mul, Nat.zero_add]

/-- A sequence that begins with a digit other than 0 is the canonical one of its value. -/
theorem canonicalDigits_seqValue_cons {e : Encoding} {g : Group} {E : List Group} (h : AllValid e (g :: E))
    (hg : g ≠ groupOf e 0) : canonicalDigits (seqValue e (g :: E)) = (g :: E).map (digitOf e) := by
  have hdigit : digitOf e g ≠ 0 := (digitOf_eq_zero_iff (h g List.mem_cons_self)).not.mpr hg
  have hvalue : seqValue e (g :: E) ≠ 0 := by
    rw [seqValue_cons]
    exact Nat.ne_of_gt (Nat.add_pos_left (Nat.mul_pos (Nat.pos_of_ne_zero hdigit) (Nat.pow_pos (by norm_num))) _)
  rw [canonicalDigits_of_ne_zero hvalue, seqValue, List.map_reverse, Nat.digits_ofDigits 10 (by norm_num),
    List.reverse_reverse]
  · intro d hd
    obtain ⟨x, hx, rfl⟩ := List.mem_map.mp (List.mem_reverse.mp hd)
    exact Nat.lt_succ_of_le (digitOf_le e (h x hx))
  · intro _
    rwa [List.getLast_reverse]

theorem encoded_seqValue_cons {e : Encoding} {g : Group} {E : List Group} (h : AllValid e (g :: E)) (hg : g ≠ groupOf e 0) :
    (canonicalDigits (seqValue e (g :: E))).map (groupOf e) = g :: E := by
  rw [canonicalDigits_seqValue_cons h hg, map_groupOf_digitOf h]

/-- Encoding the value of a sequence drops its leading zero-digit groups, one after the other. -/
theorem encoded_seqValue {e : Encoding} :
    ∀ {E : List Group}, E ≠ [] → AllValid e E → (canonicalDigits (seqValue e E)).map (groupOf e) = withoutLeadingZeros e E
  | [], hne, _ => absurd rfl hne
  | [g], _, h => by
    by_cases hg : g = groupOf e 0
    · have hvalue : seqValue e [g] = 0 := hg ▸ seqValue_zeros e 1
      rw [hvalue, hg]
      rfl
    · exact encoded_seqValue_cons h hg
  | g :: g' :: E, _, h => by
    by_cases hg : g = groupOf e 0
    · have hvalue : seqValue e (g :: g' :: E) = seqValue e (g' :: E) := hg ▸ seqValue_zeros_append e 1 (g' :: E)
      rw [hvalue, withoutLeadingZeros, if_pos hg]
      exact encoded_seqValue (List.cons_ne_nil _ _) fun x hx => h x (List.mem_cons_of_mem _ hx)
    · rw [withoutLeadingZeros, if_neg hg]
      exact encoded_seqValue_cons h hg

/-! ### The lowest malformed group (R57) -/

theorem firstMalformed_cons_succ {e : Encoding} {g : Group} {E : List Group} {k : Nat}
    (h : FirstMalformed e (g :: E) (k + 1)) : validGroup e g = true ∧ FirstMalformed e E k := by
  obtain ⟨hlt, hbad, hgood⟩ := h
  exact ⟨hgood 0 k.succ_pos, Nat.lt_of_succ_lt_succ hlt, hbad, fun j hj => hgood (j + 1) (Nat.succ_lt_succ hj)⟩

/-- The loop passes the valid groups before the first malformed one and stops there. -/
theorem decnFrom_of_firstMalformed (e : Encoding) (opnd : Bool) :
    ∀ (E : List Group) (j k v : Nat), FirstMalformed e E j →
      decnFrom e opnd k v E = .error ⟨.invalidDigitGroup, opnd, k + j⟩
  | [], j, _, _, ⟨hlt, _⟩ => absurd hlt j.not_lt_zero
  | g :: E, 0, k, v, ⟨_, hbad, _⟩ => by
    rw [decnFrom, decDigit_of_malformed e opnd k (g := g) hbad]
    rfl
  | g :: E, j + 1, k, v, h => by
    obtain ⟨hg, hE⟩ := firstMalformed_cons_succ h
    rw [decnFrom, decDigit_of_valid e opnd k hg, Nat.add_comm j 1, ← Nat.add_assoc]
    exact decnFrom_of_firstMalformed e opnd E j (k + 1) _ hE

theorem decn_of_firstMalformed {e : Encoding} (opnd : Bool) {E : List Group} {k : Nat} (h : FirstMalformed e E k) :
    decn e opnd E = .error ⟨.invalidDigitGroup, opnd, k⟩ := by
  rw [decn, decnFrom_of_firstMalformed e opnd E k 0 0 h, Nat.zero_add]

/-! ### What ENCN and DECN compute (R55, R56, R58, R59) -/

theorem commandFn_encn (e : Encoding) (t : Bool) (o : Operands P) : commandFn (instrOf .encn e t) o = encnFn e o := by
  simp [commandFn]

theorem commandFn_decn (e : Encoding) (t : Bool) (o : Operands P) : commandFn (instrOf .decn e t) o = decnFn e o := by
  simp [commandFn]

theorem encnFn_of_lt (e : Encoding) {o : Operands P} (h : o.na.toNat < 10 ^ P.N) :
    encnFn e o = .ok { ra := some (packSeq ((canonicalDigits o.na.toNat).map (groupOf e))) } := by
  rw [encnFn, encn_of_lt e false h]
  rfl

theorem encnFn_of_ge (e : Encoding) {o : Operands P} (h : 10 ^ P.N ≤ o.na.toNat) :
    encnFn e o = .error ⟨.inputOutOfRange, false, 0⟩ := by
  rw [encnFn, encn_of_ge e false h]
  rfl

/-- With a legal length DECN is `decn`, its value on `mag` with sign 0. -/
theorem decnFn_of_legalLen (e : Encoding) {o : Operands P} (h : LegalLen o.ea) :
    decnFn e o = (decn e false o.ea.groups).map fun v => { mag := some (BitVec.ofNat P.RW v), neg := some false } := by
  rw [decnFn, checkLen_of_legal false h]
  rfl

theorem decnFn_of_illegalLen (e : Encoding) {o : Operands P} (h : ¬ LegalLen o.ea) :
    decnFn e o = .error (lengthFault false) := by
  rw [decnFn, checkLen_of_illegal false h]
  rfl

theorem decnFn_of_valid {e : Encoding} {o : Operands P} (hlen : LegalLen o.ea) (hvalid : AllValid e o.ea.groups) :
    decnFn e o = .ok { mag := some (BitVec.ofNat P.RW (seqValue e o.ea.groups)), neg := some false } := by
  rw [decnFn_of_legalLen e hlen, decn_of_valid e false hvalid]
  rfl

theorem decnFn_of_firstMalformed {e : Encoding} {o : Operands P} {k : Nat} (hlen : LegalLen o.ea)
    (hfirst : FirstMalformed e o.ea.groups k) : decnFn e o = .error ⟨.invalidDigitGroup, false, k⟩ := by
  rw [decnFn_of_legalLen e hlen, decn_of_firstMalformed false hfirst]
  rfl

/-- `mag` holds the value of every valid sequence of up to LMAX groups. -/
theorem ofNat_seqValue_toNat {e : Encoding} {E : List Group} (hlen : E.length ≤ P.LMAX) (hvalid : AllValid e E) :
    (BitVec.ofNat P.RW (seqValue e E)).toNat = seqValue e E := by
  have hfits : seqValue e E < 2 ^ P.RW :=
    calc seqValue e E < 10 ^ E.length := seqValue_lt e E hvalid
      _ ≤ 10 ^ P.LMAX := Nat.pow_le_pow_right (by norm_num) hlen
      _ ≤ 2 ^ P.RW := P.le_RW
  exact (BitVec.toNat_ofNat _ _).trans (Nat.mod_eq_of_lt hfits)

end Sys2Proof.Machine

namespace Sys2Proof.Proofs

open Sys2Proof.Machine Sys2Proof.Safety

/-- Settles O20: `encn` answers the canonical digits as groups; they are at most `nmax`, and only 0 has a leading digit 0. -/
theorem encnGivesCanonicalDigits : Obligations.EncnGivesCanonicalDigits := by
  refine fun nmax e opnd n hmax => ⟨fun hlt => ?_, encn_of_ge e opnd⟩
  obtain ⟨hpos, hle⟩ := encoded_length (P := { Config.Params.default with N := nmax, one_le_N := hmax }) e hlt
  exact ⟨_, encn_of_lt e opnd hlt, rfl, hpos, hle, allValid_map_groupOf e (canonicalDigits_le n), eq_zero_of_encoded_head?⟩

/-- Settles O21: the loop of `decn` runs through a valid sequence and stops at the first malformed group of any other. -/
theorem decnGivesTheDecimalValue : Obligations.DecnGivesTheDecimalValue := by
  refine fun e opnd E => ⟨fun hvalid => ⟨decn_of_valid e opnd hvalid, seqValue_lt e E hvalid, fun z => ?_⟩,
    fun k => decn_of_firstMalformed opnd⟩
  rw [decn_of_valid e opnd (allValid_append (allValid_zeros e z) hvalid), seqValue_zeros_append]

/-- Settles O22: the canonical groups of `n` have value `n`, and those of a sequence's value are the sequence without its
leading zero-digit groups. -/
theorem numberRoundTrip : Obligations.NumberRoundTrip := by
  refine fun nmax e opnd _ => ⟨fun n hn => ⟨_, encn_of_lt e opnd hn, ?_⟩,
    fun E hne hvalid hlt => ⟨_, decn_of_valid e opnd hvalid, ?_⟩⟩
  · rw [decn_of_valid e opnd (allValid_map_groupOf e (canonicalDigits_le n)), seqValue_map_groupOf e (canonicalDigits_le n),
      ofDigits_canonicalDigits]
  · rw [encn_of_lt e opnd hlt, encoded_seqValue hne hvalid]

/-- Settles O23: the canonical groups of an operand below `10^N` fit `ra`, and any other operand is out of range. -/
theorem encnEncodesAnInteger : Obligations.EncnEncodesAnInteger := by
  refine ⟨fun t => ⟨hasMatch_instrOf .encn .bcd t, hasMatch_instrOf .encn .xs3 t⟩,
    fun P e t s => ⟨fun hlt => ?_, fun hge => ?_⟩⟩
  · have hfn := (commandFn_encn e t s.pins.ops).trans (encnFn_of_lt e hlt)
    have hfits := Nat.le_succ_of_le (encoded_length e hlt).2
    exact ⟨_, exec_of_commandFn_ok hfn, ended_conclude s _ _, portHolds_packSeq hfits, rfl⟩
  · have hfn := (commandFn_encn e t s.pins.ops).trans (encnFn_of_ge e hge)
    exact exec_faulted_of_commandFn_error hfn P.N.succ_pos

/-- Settles O24: the length check comes first; after it the value fits `mag`, and the index of a malformed group fits
`err_idx`. -/
theorem decnDecodesASequence : Obligations.DecnDecodesASequence := by
  refine ⟨fun t => ⟨hasMatch_instrOf .decn .bcd t, hasMatch_instrOf .decn .xs3 t⟩,
    fun P e t s => ⟨fun hlen hvalid => ?_, fun hillegal => ?_, fun k hlen hfirst => ?_⟩⟩
  · have hfn := (commandFn_decn e t s.pins.ops).trans (decnFn_of_valid hlen hvalid)
    have hfits := (groups_length s.pins.ops.ea).trans_le hlen.2
    exact ⟨_, exec_of_commandFn_ok hfn, ended_conclude s _ _, ofNat_seqValue_toNat hfits hvalid, rfl, rfl⟩
  · have hfn := (commandFn_decn e t s.pins.ops).trans (decnFn_of_illegalLen e hillegal)
    exact exec_faulted_of_commandFn_error hfn P.N.succ_pos
  · have hfn := (commandFn_decn e t s.pins.ops).trans (decnFn_of_firstMalformed hlen hfirst)
    have hidx : k < P.LMAX := hfirst.1.trans_le ((groups_length s.pins.ops.ea).trans_le hlen.2)
    exact exec_faulted_of_commandFn_error hfn hidx

end Sys2Proof.Proofs

/-! PROOF. The aligner (42_aligner.md R61 to R67): PAD and ALGN, and how their transactions end. -/

namespace Sys2Proof.Machine

open Sys2Proof.Config Sys2Proof.Safety

variable {P : Params}

/-! ### A sequence behind zero-digit groups (R61, R64) -/

theorem pad_eq (e : Encoding) (A B : List Group) :
    pad e A B = (List.replicate (max A.length B.length - A.length) (groupOf e 0) ++ A,
      List.replicate (max A.length B.length - B.length) (groupOf e 0) ++ B) := by
  rw [pad, padTo, padTo, zeroGroup_eq]

/-- Padding with zero-digit groups is `List.leftpad`, and a sequence that is not too long comes out with length `L`. -/
theorem zeros_append_length (e : Encoding) {L : Nat} {A : List Group} (h : A.length ≤ L) :
    (List.replicate (L - A.length) (groupOf e 0) ++ A).length = L :=
  List.length_leftpad.trans (max_eq_left h)

theorem zeros_append_head? (e : Encoding) {L : Nat} {A : List Group} (h : A.length < L) :
    (List.replicate (L - A.length) (groupOf e 0) ++ A).head? = some (groupOf e 0) := by
  obtain ⟨z, hz⟩ := Nat.exists_eq_succ_of_ne_zero (Nat.sub_ne_zero_of_lt h)
  rw [hz]
  rfl

theorem portHolds_zeros_append (e : Encoding) {L : Nat} {A : List Group} (hA : A.length ≤ L) (hL : L ≤ P.LMAX) :
    PortHolds (packSeq (List.replicate (L - A.length) (groupOf e 0) ++ A) : EncPort P)
      (List.replicate (L - A.length) (groupOf e 0) ++ A) :=
  portHolds_packSeq ((zeros_append_length e hA).trans_le hL)

/-- The longer of two operands of legal lengths has at most LMAX groups (R62). -/
theorem max_groups_length_le {a b : EncPort P} (ha : LegalLen a) (hb : LegalLen b) :
    max a.groups.length b.groups.length ≤ P.LMAX := by
  rw [groups_length, groups_length]
  exact max_le ha.2 hb.2

/-! ### The length checks of a command with two sequences (60_exceptions.md R114, R118) -/

/-- A command that raises what the checks of its two lengths raise names the first illegal length. -/
theorem exec_faulted_of_checkLens {i : Instr} {s : Block P}
    (h : ∀ f, checkLens P.LMAX s.pins.ops.ea.len.toNat s.pins.ops.eb.len.toNat = .error f →
      commandFn i s.pins.ops = .error f) :
    (¬ LegalLen s.pins.ops.ea → ∃ u, exec i ⟨P, s⟩ = .next ⟨P, u⟩ ∧ Faulted s u 0x5 false 0) ∧
    (LegalLen s.pins.ops.ea → ¬ LegalLen s.pins.ops.eb →
      ∃ u, exec i ⟨P, s⟩ = .next ⟨P, u⟩ ∧ Faulted s u 0x5 true 0) :=
  ⟨fun ha => exec_faulted_of_commandFn_error (h _ (checkLens_of_first ha)) P.N.succ_pos,
    fun ha hb => exec_faulted_of_commandFn_error (h _ (checkLens_of_second ha hb)) P.N.succ_pos⟩

theorem checkRoom_of_room {lmax a b : Nat} (h : max a b + 1 ≤ lmax) : checkRoom lmax a b = .ok () :=
  if_neg (not_lt.mpr h)

theorem checkRoom_of_no_room {lmax a b : Nat} (h : lmax < max a b + 1) :
    checkRoom lmax a b = .error (lengthFault (decide (a < b))) :=
  if_pos h

/-! ### What PAD and ALGN compute (R62, R63, R65, R66) -/

theorem commandFn_pad (e : Encoding) (t : Bool) (o : Operands P) : commandFn (instrOf .pad e t) o = padFn e o := by
  simp [commandFn]

theorem commandFn_algn (e : Encoding) (t : Bool) (o : Operands P) : commandFn (instrOf .algn e t) o = algnFn e o := by
  simp [commandFn]

theorem padFn_of_legalLen (e : Encoding) {o : Operands P} (ha : LegalLen o.ea) (hb : LegalLen o.eb) :
    padFn e o = .ok { ra := some (packSeq (pad e o.ea.groups o.eb.groups).1)
                      rb := some (packSeq (pad e o.ea.groups o.eb.groups).2) } := by
  rw [padFn, checkLens_of_legal ha hb]
  rfl

theorem padFn_of_checkLens_error (e : Encoding) {o : Operands P} {f : FaultRec}
    (h : checkLens P.LMAX o.ea.len.toNat o.eb.len.toNat = .error f) : padFn e o = .error f := by
  rw [padFn, h]
  rfl

/-- With legal lengths ALGN checks the room for the reserved digit and then aligns. -/
theorem algnFn_of_legalLen (e : Encoding) {o : Operands P} (ha : LegalLen o.ea) (hb : LegalLen o.eb) :
    algnFn e o = (checkRoom P.LMAX o.ea.groups.length o.eb.groups.length).map fun _ =>
      { ra := some (packSeq (align1 e o.ea.groups o.eb.groups).1)
        rb := some (packSeq (align1 e o.ea.groups o.eb.groups).2) } := by
  rw [algnFn, checkLens_of_legal ha hb, groups_length, groups_length]
  rfl

theorem algnFn_of_room (e : Encoding) {o : Operands P} (ha : LegalLen o.ea) (hb : LegalLen o.eb)
    (hroom : max o.ea.groups.length o.eb.groups.length + 1 ≤ P.LMAX) :
    algnFn e o = .ok { ra := some (packSeq (align1 e o.ea.groups o.eb.groups).1)
                       rb := some (packSeq (align1 e o.ea.groups o.eb.groups).2) } := by
  rw [algnFn_of_legalLen e ha hb, checkRoom_of_room hroom]
  rfl

theorem algnFn_of_no_room (e : Encoding) {o : Operands P} (ha : LegalLen o.ea) (hb : LegalLen o.eb)
    (hroom : P.LMAX < max o.ea.groups.length o.eb.groups.length + 1) :
    algnFn e o = .error (lengthFault (decide (o.ea.groups.length < o.eb.groups.length))) := by
  rw [algnFn_of_legalLen e ha hb, checkRoom_of_no_room hroom]
  rfl

theorem algnFn_of_checkLens_error (e : Encoding) {o : Operands P} {f : FaultRec}
    (h : checkLens P.LMAX o.ea.len.toNat o.eb.len.toNat = .error f) : algnFn e o = .error f := by
  rw [algnFn, h]
  rfl

end Sys2Proof.Machine

namespace Sys2Proof.Proofs

open Sys2Proof.Machine Sys2Proof.Safety

/-- Settles O25: `pad` and `align1` put zero-digit groups before both sequences, up to the longer length and up to one more,
which leaves at least one before each. -/
theorem alignerPostconditions : Obligations.AlignerPostconditions := by
  intro e A B
  have hA := le_max_left A.length B.length
  have hB := le_max_right A.length B.length
  rw [pad_eq, align1_eq]
  exact ⟨rfl, rfl, zeros_append_length e hA, zeros_append_length e hB,
    rfl, rfl, zeros_append_length e (Nat.le_succ_of_le hA), zeros_append_length e (Nat.le_succ_of_le hB),
    zeros_append_head? e (Nat.lt_succ_of_le hA), zeros_append_head? e (Nat.lt_succ_of_le hB)⟩

/-- Settles O26: the length checks come first; after them the padded operands are as long as the longer one, which fits the
ports. -/
theorem padEqualisesLengths : Obligations.PadEqualisesLengths := by
  refine ⟨fun t => ⟨hasMatch_instrOf .pad .bcd t, hasMatch_instrOf .pad .xs3 t⟩, ?_⟩
  rintro P e t s _ _ rfl rfl
  refine ⟨fun ha hb => ?_,
    exec_faulted_of_checkLens fun _ h => (commandFn_pad e t _).trans (padFn_of_checkLens_error e h)⟩
  have hfn := (commandFn_pad e t s.pins.ops).trans (padFn_of_legalLen e ha hb)
  rw [pad_eq] at hfn
  have hfits := max_groups_length_le ha hb
  exact ⟨_, exec_of_commandFn_ok hfn, ended_conclude s _ _, portHolds_zeros_append e (le_max_left _ _) hfits,
    portHolds_zeros_append e (le_max_right _ _) hfits, rfl⟩

/-- Settles O27: after the length checks either the reserved digit fits, and so do both aligned operands, or the check of the
room names the longer operand. -/
theorem algnReservesOneDigit : Obligations.AlgnReservesOneDigit := by
  refine ⟨fun t => ⟨hasMatch_instrOf .algn .bcd t, hasMatch_instrOf .algn .xs3 t⟩, ?_⟩
  rintro P e t s _ _ rfl rfl
  obtain ⟨hfirst, hsecond⟩ := exec_faulted_of_checkLens (i := instrOf .algn e t) (s := s) fun _ h =>
    (commandFn_algn e t _).trans (algnFn_of_checkLens_error e h)
  refine ⟨fun ha hb hroom => ?_, hfirst, hsecond, fun ha hb hroom => ?_⟩
  · have hfn := (commandFn_algn e t s.pins.ops).trans (algnFn_of_room e ha hb hroom)
    rw [align1_eq] at hfn
    exact ⟨_, exec_of_commandFn_ok hfn, ended_conclude s _ _,
      portHolds_zeros_append e (Nat.le_succ_of_le (le_max_left _ _)) hroom,
      portHolds_zeros_append e (Nat.le_succ_of_le (le_max_right _ _)) hroom, rfl⟩
  · have hfn := (commandFn_algn e t s.pins.ops).trans (algnFn_of_no_room e ha hb hroom)
    exact exec_faulted_of_commandFn_error hfn P.N.succ_pos

end Sys2Proof.Proofs

/-! PROOF. The digit-wise adder (43_adder.md R68 to R79): the digit rules, the pass in closed form and position by position,
and ADDG. -/

namespace Sys2Proof.Machine

open Sys2Proof.Config Sys2Proof.Safety

variable {P : Params}

/-! ### The digit rules in closed form (R69 to R71, R76) -/

/-- What a position with raw sum `raw` computes. -/
def closedDigit (e : Encoding) (raw : Nat) : DigitSum :=
  { raw := raw, bcarry := decide (raw > 15), corr := closedCorr e raw, fixed := closedFixed e raw, cout := closedCarry e raw }

theorem addDigit_eq_closedDigit (e : Encoding) (a b : Group) (c : Bool) :
    addDigit e a b c = closedDigit e (a.toNat + b.toNat + c.toNat) := by
  obtain ⟨hraw, hfixed, hcout, hcorr, hbcarry⟩ := addDigit_closed e a b c
  calc addDigit e a b c
      = ⟨(addDigit e a b c).raw, (addDigit e a b c).bcarry, (addDigit e a b c).corr, (addDigit e a b c).fixed,
          (addDigit e a b c).cout⟩ := rfl
    _ = _ := by rw [hraw, hbcarry, hcorr, hfixed, hcout, closedDigit]

/-- Two groups and a carry add up to at most 31. -/
theorem rawSum_le (a b : Group) (c : Bool) : a.toNat + b.toNat + c.toNat ≤ 31 := by
  have ha := a.isLt
  have hb := b.isLt
  have hc := c.toNat_le
  omega

/-- The four bits that BCD keeps, by the ranges of R70's table. -/
theorem closedFixed_bcd {raw : Nat} (h : raw ≤ 31) :
    closedFixed .bcd raw = BitVec.ofNat 4 (if raw ≤ 9 then raw else if raw ≤ 25 then raw - 10 else raw - 26) := by
  refine BitVec.eq_of_toNat_eq ?_
  simp only [closedFixed, closedCarry, BitVec.toNat_ofNat, Bool.toNat, Bool.cond_decide]
  split_ifs <;> omega

/-- The four bits that Excess-3 keeps, by the ranges of R71's table. -/
theorem closedFixed_xs3 {raw : Nat} (h : raw ≤ 31) :
    closedFixed .xs3 raw = BitVec.ofNat 4 (if raw ≤ 2 then raw + 13 else if raw ≤ 15 then raw - 3 else
      if raw ≤ 28 then raw - 13 else raw - 29) := by
  refine BitVec.eq_of_toNat_eq ?_
  simp only [closedFixed, closedCarry, BitVec.toNat_ofNat, Bool.toNat, Bool.cond_decide]
  split_ifs <;> omega

/-- On valid groups a position emits the units digit of the digit sum, and its carry is the tens digit (R76). -/
theorem addDigit_of_valid_eq {e : Encoding} {a b : Group} (c : Bool) (ha : validGroup e a = true)
    (hb : validGroup e b = true) :
    (addDigit e a b c).fixed = groupOf e ((digitOf e a + digitOf e b + c.toNat) % 10) ∧
      (addDigit e a b c).cout = decide (10 ≤ digitOf e a + digitOf e b + c.toNat) := by
  obtain ⟨hvalid, hsum⟩ := addDigit_of_valid e a b c ha hb
  have hdigit := digitOf_le e hvalid
  rw [← hsum]
  constructor
  · rw [Nat.add_mul_mod_self_left, Nat.mod_eq_of_lt (by omega), groupOf_digitOf e _ hvalid]
  · cases (addDigit e a b c).cout  <;> grind

/-! ### A pass in closed form (R68, R72, R78) -/

/-- The record of position `i` of a pass over sequences whose first position is numbered `pos`. -/
def recordFrom (P : Params) (e : Encoding) (pass : Bool) (pos : Nat) (A B : List Group) (cs : List Bool) (i : Nat) :
    TraceRec P :=
  { recordAt P e pass A B cs i with pos := BitVec.ofNat P.LW (pos + i) }

theorem recordFrom_zero (e : Encoding) (pass : Bool) (A B : List Group) (cs : List Bool) :
    recordFrom P e pass 0 A B cs = recordAt P e pass A B cs := by
  funext i
  rw [recordFrom, Nat.zero_add]
  rfl

theorem recordFrom_cons_comp_succ (e : Encoding) (pass : Bool) (pos : Nat) (a b : Group) (A B : List Group) (c : Bool)
    (cs : List Bool) :
    recordFrom P e pass pos (a :: A) (b :: B) (c :: cs) ∘ Nat.succ = recordFrom P e pass (pos + 1) A B cs := by
  funext i
  rw [Function.comp_apply, recordFrom, recordFrom, Nat.add_right_comm pos 1 i]
  rfl

theorem recordFrom_cons_zero (e : Encoding) (pass : Bool) (pos : Nat) (a b : Group) (A B : List Group) (c : Bool)
    (cs : List Bool) :
    recordFrom P e pass pos (a :: A) (b :: B) (c :: cs) 0 =
      traceRec pass pos a b (cs.getD 0 false) (addDigit e a b (cs.getD 0 false)) := by
  rw [addDigit_eq_closedDigit]
  rfl

/-- One more position to the left of a pass, on any groups. -/
theorem isPass_cons {e : Encoding} {A B R : List Group} {c0 cout : Bool} {cs : List Bool} (h : IsPass e A B c0 R cout cs)
    (a b : Group) :
    IsPass e (a :: A) (b :: B) c0 ((addDigit e a b cout).fixed :: R) (addDigit e a b cout).cout
      ((addDigit e a b cout).cout :: cs) := by
  obtain ⟨hR, hcs, hseed, hcout, hpos⟩ := h
  refine ⟨congrArg (· + 1) hR, congrArg (· + 1) hcs, hseed, rfl, fun i hi => ?_⟩
  cases i with
  | zero =>
    rw [addDigit_eq_closedDigit, ← hcout]
    exact ⟨rfl, rfl⟩
  | succ i => exact hpos i (Nat.lt_of_succ_lt_succ hi)

/-- A pass has carries that make each of its positions, and each of its records, that of the closed digit rule. -/
theorem exists_isPass_addPass (e : Encoding) (pass c0 : Bool) :
    ∀ (pos : Nat) (A B : List Group), A.length = B.length →
      ∃ cs, IsPass e A B c0 (addPass P e pass c0 pos A B).seq (addPass P e pass c0 pos A B).carry cs ∧
        (addPass P e pass c0 pos A B).recs = (List.range A.length).reverse.map (recordFrom P e pass pos A B cs)
  | _, [], [], _ => ⟨[c0], ⟨rfl, rfl, rfl, rfl, fun _ hi => absurd hi (Nat.not_lt_zero _)⟩, rfl⟩
  | pos, a :: A, b :: B, hlen => by
    obtain ⟨cs, hpass, hrecs⟩ := exists_isPass_addPass e pass c0 (pos + 1) A B (Nat.succ.inj hlen)
    refine ⟨_, isPass_cons hpass a b, ?_⟩
    obtain ⟨-, -, -, hcarry, -⟩ := hpass
    rw [List.length_cons, List.range_succ_eq_map, List.reverse_cons, List.map_append, ← List.map_reverse, List.map_map,
      recordFrom_cons_comp_succ, List.map_singleton, recordFrom_cons_zero, hcarry, ← hrecs]
    rfl

theorem passOf_addg (e : Encoding) (pass c0 : Bool) {A B : List Group} (hlen : A.length = B.length) :
    PassOf e pass A B c0 (addg P e pass A B c0).seq (addg P e pass A B c0).carry (addg P e pass A B c0).recs := by
  obtain ⟨cs, hpass, hrecs⟩ := exists_isPass_addPass (P := P) e pass c0 0 A B hlen
  rw [recordFrom_zero] at hrecs
  exact ⟨cs, hpass, hrecs⟩

/-! ### The position register of a pass (10_state.md R17) -/

/-- A loop that takes at least one position takes position 0 last. -/
theorem passLoop_succ_di (e : Encoding) (pass : Bool) (A B : List Group) :
    ∀ (k : Nat) (r : PassRegs P), (passLoop e pass A B (k + 1) r).di = 0
  | 0, _ => rfl
  | k + 1, r => passLoop_succ_di e pass A B k (digitStep e pass A B (k + 1) r)

theorem runPass_di {e : Encoding} {pass c0 : Bool} {A B : List Group} {di : Fin P.LMAX} (h : A ≠ []) :
    (runPass e pass A B c0 di).di = 0 := by
  obtain ⟨a, A, rfl⟩ := List.exists_cons_of_ne_nil h
  exact passLoop_succ_di e pass (a :: A) B A.length _

/-! ### What ADDG computes (R73 to R75) -/

theorem commandFn_addg (e : Encoding) (t : Bool) (o : Operands P) : commandFn (instrOf .addg e t) o = addgFn e t o := by
  simp [commandFn]

/-- With legal lengths ADDG checks that they are equal and then runs its pass, whatever the groups. -/
theorem addgFn_of_legalLen (e : Encoding) (t : Bool) {o : Operands P} (ha : LegalLen o.ea) (hb : LegalLen o.eb) :
    addgFn e t o = (checkEqualLen o.ea.len.toNat o.eb.len.toNat).map fun _ =>
      { ra := some (packSeq (addg P e false o.ea.groups o.eb.groups o.c0).seq)
        cout := some (addg P e false o.ea.groups o.eb.groups o.c0).carry
        trace := emitted t (addg P e false o.ea.groups o.eb.groups o.c0).recs } := by
  rw [addgFn, checkLens_of_legal ha hb]
  rfl

theorem addgFn_of_len_eq (e : Encoding) (t : Bool) {o : Operands P} (ha : LegalLen o.ea) (hb : LegalLen o.eb)
    (h : o.ea.len = o.eb.len) :
    addgFn e t o = .ok { ra := some (packSeq (addg P e false o.ea.groups o.eb.groups o.c0).seq)
                         cout := some (addg P e false o.ea.groups o.eb.groups o.c0).carry
                         trace := emitted t (addg P e false o.ea.groups o.eb.groups o.c0).recs } := by
  rw [addgFn_of_legalLen e t ha hb, h, checkEqualLen, if_pos rfl]
  rfl

theorem addgFn_of_len_ne (e : Encoding) (t : Bool) {o : Operands P} (ha : LegalLen o.ea) (hb : LegalLen o.eb)
    (h : o.ea.len ≠ o.eb.len) : addgFn e t o = .error (lengthFault true) := by
  rw [addgFn_of_legalLen e t ha hb, checkEqualLen, if_neg (mt BitVec.eq_of_toNat_eq h)]
  rfl

theorem addgFn_of_checkLens_error (e : Encoding) (t : Bool) {o : Operands P} {f : FaultRec}
    (h : checkLens P.LMAX o.ea.len.toNat o.eb.len.toNat = .error f) : addgFn e t o = .error f := by
  rw [addgFn, h]
  rfl

end Sys2Proof.Machine

namespace Sys2Proof.Proofs

open Sys2Proof.Machine Sys2Proof.Safety

/-- Settles O30: the digit rule on valid groups is decimal addition of digits, and a pass over valid sequences sums their
values. -/
theorem passAddsDecimalNumbers : Obligations.PassAddsDecimalNumbers := by
  refine fun P => ⟨?_, fun e pass c0 A B hlen hA hB => addg_of_valid e pass c0 hlen hA hB⟩
  rintro e a b c ha hb _ rfl
  exact addDigit_of_valid_eq c ha hb

/-- Settles O31: the carries of a pass are those that its positions hand on, from the seed at the right end. -/
theorem passThreadsTheCarry : Obligations.PassThreadsTheCarry :=
  fun _ e pass c0 _ _ hlen => passOf_addg e pass c0 hlen

/-- Settles O32: the loop's registers hold the pass of the positions taken so far, and position 0 is taken last. -/
theorem serialPassAgrees : Obligations.SerialPassAgrees := by
  intro P e pass c0 A B di hlen
  obtain ⟨hseq, hcarry, hrecs⟩ := runPass_eq_addg e pass c0 di hlen
  exact ⟨hseq, hcarry, hrecs, runPass_di⟩

/-- Settles O33: after the length checks ADDG delivers one pass over the groups as they stand, whose result is as long as the
operands and so fits `ra`. -/
theorem addgRunsOnePass : Obligations.AddgRunsOnePass := by
  refine ⟨fun t => ⟨hasMatch_instrOf .addg .bcd t, hasMatch_instrOf .addg .xs3 t⟩, fun P e t s => ?_⟩
  obtain ⟨hfirst, hsecond⟩ := exec_faulted_of_checkLens (i := instrOf .addg e t) (s := s) fun _ h =>
    (commandFn_addg e t _).trans (addgFn_of_checkLens_error e t h)
  refine ⟨fun ha hb heq => ?_, hfirst, hsecond, fun ha hb hne => ?_⟩
  · have hfn := (commandFn_addg e t s.pins.ops).trans (addgFn_of_len_eq e t ha hb heq)
    have hlen : s.pins.ops.ea.groups.length = s.pins.ops.eb.groups.length := by rw [groups_length, groups_length, heq]
    have hpass := passOf_addg (P := P) e false s.pins.ops.c0 hlen
    obtain ⟨_, ⟨hlenR, -⟩, -⟩ := id hpass
    have hfits := (hlenR.trans (groups_length _)).trans_le ha.2
    exact ⟨_, _, _, exec_of_commandFn_ok hfn, ended_conclude s _ _, portHolds_packSeq hfits, hpass, rfl⟩
  · have hfn := (commandFn_addg e t s.pins.ops).trans (addgFn_of_len_ne e t ha hb hne)
    exact exec_faulted_of_commandFn_error hfn P.N.succ_pos

/-- Settles O28: the digit rule is the closed rule, whose raw sum is at most 31, so that the ranges of R70 are all. -/
theorem bcdDigitRuleClosedForm : Obligations.BcdDigitRuleClosedForm := by
  rintro a b c _ rfl
  rw [addDigit_eq_closedDigit, closedDigit, closedFixed_bcd (rawSum_le a b c)]
  rfl

/-- Settles O29: the digit rule is the closed rule, whose raw sum is at most 31, so that the ranges of R71 are all. -/
theorem xs3DigitRuleClosedForm : Obligations.Xs3DigitRuleClosedForm := by
  rintro a b c _ rfl
  rw [addDigit_eq_closedDigit, closedDigit, closedFixed_xs3 (rawSum_le a b c)]
  rfl

end Sys2Proof.Proofs

/-! PROOF. The trace has no semantic weight (43_adder.md R79): what a command computes under two trace bits, in two blocks that
differ at most in whether the trace exists. -/

namespace Sys2Proof.Machine

open Sys2Proof.Config Sys2Proof.Safety

variable {P Q : Params}

/-! ### Computations that end alike

A small relational program logic for computations that may raise: the same fault, or values in a relation. -/

/-- `x` and `y` end with values that `R` relates, or both with one and the same fault. -/
def EndAlike {α β : Type} (R : α → β → Prop) : Except FaultRec α → Except FaultRec β → Prop
  | .ok a, .ok b => R a b
  | .error f, .error g => f = g
  | .ok _, .error _ | .error _, .ok _ => False

theorem EndAlike.bind {α β γ δ : Type} {R : α → β → Prop} {S : γ → δ → Prop} {x : Except FaultRec α} {y : Except FaultRec β}
    {f : α → Except FaultRec γ} {g : β → Except FaultRec δ} (hxy : EndAlike R x y)
    (hfg : ∀ a b, R a b → EndAlike S (f a) (g b)) : EndAlike S (x >>= f) (y >>= g) := by
  cases x <;> cases y
  case ok.ok a b => exact hfg a b hxy
  case error.error => exact hxy
  all_goals exact hxy.elim

/-- Two computations that begin with the same part, and end alike after it. -/
theorem EndAlike.bind_left {α γ δ : Type} {S : γ → δ → Prop} (x : Except FaultRec α) {f : α → Except FaultRec γ}
    {g : α → Except FaultRec δ} (hfg : ∀ a, EndAlike S (f a) (g a)) : EndAlike S (x >>= f) (x >>= g) := by
  cases x with
  | ok a => exact hfg a
  | error e => rfl

/-! ### The widths of the outputs follow from `N` (00_scope.md R4) -/

theorem LMAX_congr (hN : P.N = Q.N) : P.LMAX = Q.LMAX := congrArg (· + 1) hN

theorem LW_congr (hN : P.N = Q.N) : P.LW = Q.LW := congrArg (fun lmax => ceilLog2 (lmax + 1)) (LMAX_congr hN)

theorem RW_congr (hN : P.N = Q.N) : P.RW = Q.RW := congrArg (fun lmax => ceilLog2 (10 ^ lmax)) (LMAX_congr hN)

theorem equalPort_packSeq (hN : P.N = Q.N) (E : List Group) : EqualPort (packSeq E : EncPort P) (packSeq E : EncPort Q) := by
  simp only [EqualPort, packSeq, BitVec.toNat_ofNat, LW_congr hN, LMAX_congr hN, and_self]

theorem ofNat_RW_toNat_congr (hN : P.N = Q.N) (v : Nat) : (BitVec.ofNat P.RW v).toNat = (BitVec.ofNat Q.RW v).toNat := by
  simp only [BitVec.toNat_ofNat, RW_congr hN]

theorem sameErr_regs (hN : P.N = Q.N) (f : FaultRec) : SameErr (f.regs : ErrRegs P) (f.regs : ErrRegs Q) := by
  simp only [SameErr, FaultRec.regs, BitVec.toNat_ofNat, LW_congr hN, and_self]

/-! ### A pass and its records -/

/-- The parameters show in the records of a pass only. -/
theorem addPass_seq_carry_params (P Q : Params) (e : Encoding) (pass c0 : Bool) :
    ∀ (pos : Nat) (A B : List Group),
      (addPass P e pass c0 pos A B).seq = (addPass Q e pass c0 pos A B).seq ∧
        (addPass P e pass c0 pos A B).carry = (addPass Q e pass c0 pos A B).carry
  | _, [], _ => ⟨rfl, rfl⟩
  | _, _ :: _, [] => ⟨rfl, rfl⟩
  | pos, a :: A, b :: B => by
    obtain ⟨hseq, hcarry⟩ := addPass_seq_carry_params P Q e pass c0 (pos + 1) A B
    simp only [addPass, hseq, hcarry, and_self]

theorem addg_seq_params (P Q : Params) (e : Encoding) (pass : Bool) (A B : List Group) (c0 : Bool) :
    (addg P e pass A B c0).seq = (addg Q e pass A B c0).seq := (addPass_seq_carry_params P Q e pass c0 0 A B).1

theorem addg_carry_params (P Q : Params) (e : Encoding) (pass : Bool) (A B : List Group) (c0 : Bool) :
    (addg P e pass A B c0).carry = (addg Q e pass A B c0).carry := (addPass_seq_carry_params P Q e pass c0 0 A B).2

/-- Two ends of the add path or the subtractor are the same, the records apart. -/
def SamePath (p : PathOut P) (q : PathOut Q) : Prop :=
  p.rr = q.rr ∧ p.cf = q.cf ∧ p.mag = q.mag ∧ p.neg = q.neg ∧ p.matchRef = q.matchRef

theorem addPath_endAlike (hN : P.N = Q.N) (e : Encoding) (n m : Nat) :
    EndAlike SamePath (addPath P e n m) (addPath Q e n m) := by
  rw [addPath, addPath, hN]
  refine EndAlike.bind_left _ fun ⟨RA, RB⟩ => ?_
  simp only [addg_seq_params P Q, addg_carry_params P Q]
  exact EndAlike.bind_left _ fun mag => ⟨rfl, rfl, rfl, rfl, rfl⟩

theorem recomplement_endAlike (hinc : P.xs3RecompInc = Q.xs3RecompInc) (e : Encoding) (R : List Group) :
    EndAlike (fun x y => x.1 = y.1) (recomplement P e R) (recomplement Q e R) := by
  rw [recomplement, recomplement, hinc]
  refine EndAlike.bind_left _ fun K => ?_
  split
  · exact EndAlike.bind_left _ fun one => addg_seq_params P Q e true K one false
  · exact rfl

theorem subPath_endAlike (hN : P.N = Q.N) (hinc : P.xs3RecompInc = Q.xs3RecompInc) (e : Encoding) (n m : Nat) :
    EndAlike SamePath (subPath P e n m) (subPath Q e n m) := by
  rw [subPath, subPath, hN]
  refine EndAlike.bind_left _ fun ⟨RA, RB⟩ => EndAlike.bind_left _ fun RC => ?_
  simp only [addg_seq_params P Q, addg_carry_params P Q]
  split
  · exact EndAlike.bind_left _ fun mag => ⟨rfl, rfl, rfl, rfl, rfl⟩
  · refine (recomplement_endAlike hinc e _).bind ?_
    rintro ⟨RM, recs⟩ ⟨RM', recs'⟩ (rfl : RM = RM')
    exact EndAlike.bind_left _ fun mag => ⟨rfl, rfl, rfl, rfl, rfl⟩

/-! ### A command in two blocks -/

/-- Two results of one operation give the same phase and the same written outputs, whatever the outputs held before. -/
def SameResults (op : Op) (r : Results P) (r' : Results Q) : Prop :=
  r.ph = r'.ph ∧ ∀ k k', SameOutputs op (r.outputs k) (r'.outputs k')

/-- Two blocks that end a command alike are left alike. -/
theorem sameEnd_settle_of_endAlike (hN : P.N = Q.N) {op : Op} {x : Except FaultRec (Results P)} {y : Except FaultRec (Results Q)}
    (h : EndAlike (SameResults op) x y) (s : Block P) (s' : Block Q) : SameEnd op (s.settle x) (s'.settle y) := by
  cases x <;> cases y
  case ok.ok r r' =>
    obtain ⟨hph, hout⟩ := h
    exact ⟨hph, ⟨rfl, rfl, rfl⟩, fun _ => hout s.fresh s'.fresh⟩
  case error.error f g =>
    obtain rfl : f = g := h
    exact ⟨rfl, sameErr_regs hN f, fun hph => absurd rfl hph⟩
  all_goals exact h.elim

theorem SamePath.results (hN : P.N = Q.N) {op : Op} (hop : op = .add ∨ op = .sub) {p : PathOut P} {q : PathOut Q}
    (h : SamePath p q) (ph : Phase) (trace : List (TraceRec P)) (trace' : List (TraceRec Q)) :
    SameResults op (p.results ph trace) (q.results ph trace') := by
  obtain ⟨hrr, hcf, hmag, hneg, hmatch⟩ := h
  have hport : EqualPort (packSeq p.rr : EncPort P) (packSeq q.rr : EncPort Q) := hrr ▸ equalPort_packSeq hN p.rr
  have hwidth : (BitVec.ofNat P.RW p.mag).toNat = (BitVec.ofNat Q.RW q.mag).toNat := hmag ▸ ofNat_RW_toNat_congr hN p.mag
  obtain rfl | rfl := hop <;> exact ⟨rfl, fun _ _ => ⟨hport, hwidth, hneg, hcf, hmatch⟩⟩

/-- On operands that agree a command ends alike under both trace bits, in blocks built with one `N` and one
`XS3_RECOMP_INC` (R79). -/
theorem commandFn_endAlike (hN : P.N = Q.N) (hinc : P.xs3RecompInc = Q.xs3RecompInc) (op : Op) (e : Encoding) (b b' : Bool)
    {o : Operands P} {o' : Operands Q} (h : SameOperands op o o') :
    EndAlike (SameResults op) (commandFn (instrOf op e b) o) (commandFn (instrOf op e b') o') := by
  simp only [commandFn, instrOf_op, instrOf_enc, instrOf_traceBit]
  cases op with
  | encd =>
    simp only [encdFn, show o.x4 = o'.x4 from h]
    exact EndAlike.bind_left _ fun g => ⟨rfl, fun _ _ => rfl⟩
  | decd =>
    simp only [decdFn, show o.x4 = o'.x4 from h]
    exact EndAlike.bind_left _ fun d => ⟨rfl, fun _ _ => rfl⟩
  | encn =>
    simp only [encnFn, hN, show o.na.toNat = o'.na.toNat from h]
    exact EndAlike.bind_left _ fun E => ⟨rfl, fun _ _ => equalPort_packSeq hN E⟩
  | decn =>
    obtain ⟨hlen, hgroups⟩ := h
    simp only [decnFn, LMAX_congr hN, hlen, hgroups]
    exact EndAlike.bind_left _ fun _ => EndAlike.bind_left _ fun v => ⟨rfl, fun _ _ => ⟨ofNat_RW_toNat_congr hN v, rfl⟩⟩
  | pad =>
    obtain ⟨⟨hlenA, hgroupsA⟩, hlenB, hgroupsB⟩ := h
    simp only [padFn, LMAX_congr hN, hlenA, hgroupsA, hlenB, hgroupsB]
    exact EndAlike.bind_left _ fun _ => ⟨rfl, fun _ _ => ⟨equalPort_packSeq hN _, equalPort_packSeq hN _⟩⟩
  | algn =>
    obtain ⟨⟨hlenA, hgroupsA⟩, hlenB, hgroupsB⟩ := h
    simp only [algnFn, LMAX_congr hN, hlenA, hgroupsA, hlenB, hgroupsB]
    exact EndAlike.bind_left _ fun _ => EndAlike.bind_left _ fun _ =>
      ⟨rfl, fun _ _ => ⟨equalPort_packSeq hN _, equalPort_packSeq hN _⟩⟩
  | addg =>
    obtain ⟨⟨hlenA, hgroupsA⟩, ⟨hlenB, hgroupsB⟩, hseed⟩ := h
    simp only [addgFn, LMAX_congr hN, hlenA, hgroupsA, hlenB, hgroupsB, hseed, addg_seq_params P Q, addg_carry_params P Q]
    exact EndAlike.bind_left _ fun _ => EndAlike.bind_left _ fun _ =>
      ⟨rfl, fun _ _ => ⟨equalPort_packSeq hN _, rfl⟩⟩
  | cmpl =>
    obtain ⟨hlen, hgroups⟩ := h
    simp only [cmplFn, LMAX_congr hN, hlen, hgroups]
    exact EndAlike.bind_left _ fun _ => EndAlike.bind_left _ fun K => ⟨rfl, fun _ _ => equalPort_packSeq hN K⟩
  | add =>
    obtain ⟨hna, hnb⟩ := h
    simp only [addFn, hna, hnb]
    exact (addPath_endAlike hN e _ _).bind fun p q hpq => hpq.results hN (.inl rfl) .done _ _
  | sub =>
    obtain ⟨hna, hnb⟩ := h
    simp only [subFn, hna, hnb]
    refine (subPath_endAlike hN hinc e _ _).bind fun p q hpq => ?_
    obtain ⟨-, hcf, -⟩ := id hpq
    rw [hcf]
    exact hpq.results hN (.inr rfl) _ _ _

end Sys2Proof.Machine

namespace Sys2Proof.Proofs

open Sys2Proof.Machine

/-- Settles O51: the parameters and the trace bit reach the end of a command through its records and its widths only, and the
widths follow from `N`. -/
theorem traceHasNoSemanticWeight : Obligations.TraceHasNoSemanticWeight := by
  intro op e b b' P Q s s' hN hinc hops
  have hend := commandFn_endAlike hN hinc op e b b' hops
  exact ⟨_, _, exec_eq_next _ s, exec_eq_next _ s', sameEnd_settle_of_endAlike hN hend _ _⟩

end Sys2Proof.Proofs

/-! PROOF. The nines-complement generator (44_complement.md R81 to R87): CMPL, and what it does to a sequence and to its value. -/

namespace Sys2Proof.Machine

open Sys2Proof.Config Sys2Proof.Safety

variable {P : Params}

/-! ### The complement of a group (R81, R82) -/

/-- The largest group that `cmpl_digit` takes: under BCD the group of 9, under Excess-3 every group. -/
def maxGroup : Encoding → Nat
  | .bcd => 9
  | .xs3 => 15

/-- What `cmpl_digit` answers: the group as far below `maxGroup` as the given one is above 0.  Under Excess-3 this inverts
every bit. -/
def complementGroup (e : Encoding) (g : Group) : Group := BitVec.ofNat 4 (maxGroup e - g.toNat)

theorem complementGroup_toNat (e : Encoding) (g : Group) : (complementGroup e g).toNat = maxGroup e - g.toNat := by
  have hfits : maxGroup e < 2 ^ 4 := by cases e <;> decide
  exact (BitVec.toNat_ofNat _ _).trans (Nat.mod_eq_of_lt ((Nat.sub_le _ _).trans_lt hfits))

theorem complementGroup_complementGroup {e : Encoding} {g : Group} (h : g.toNat ≤ maxGroup e) :
    complementGroup e (complementGroup e g) = g := by
  refine BitVec.eq_of_toNat_eq ?_
  rw [complementGroup_toNat, complementGroup_toNat, Nat.sub_sub_self h]

theorem cmplDigit_of_le {e : Encoding} (opnd : Bool) (idx : Nat) {g : Group} (h : g.toNat ≤ maxGroup e) :
    cmplDigit e opnd idx g = .ok (complementGroup e g) := by
  cases e with
  | bcd =>
    rw [cmplDigit, decDigit_of_valid .bcd opnd idx (g := g) (decide_eq_true h)]
    exact if_neg (not_lt.mpr (Nat.sub_le _ _))
  | xs3 =>
    have hinvert : ~~~g = complementGroup .xs3 g :=
      BitVec.eq_of_toNat_eq (BitVec.toNat_not.trans (complementGroup_toNat .xs3 g).symm)
    exact congrArg Except.ok hinvert

/-! ### The complement of a sequence (R83, R86) -/

/-- The groups that `cmpl` takes are the valid ones under BCD and all under Excess-3. -/
theorem le_maxGroup {e : Encoding} {E : List Group} (h : e = .bcd → AllValid .bcd E) : ∀ g ∈ E, g.toNat ≤ maxGroup e := by
  intro g hg
  cases e with
  | bcd => exact of_decide_eq_true (h rfl g hg)
  | xs3 => exact Nat.le_of_lt_succ g.isLt

theorem cmpl_of_le {e : Encoding} (opnd : Bool) {E : List Group} (h : ∀ g ∈ E, g.toNat ≤ maxGroup e) :
    cmpl e opnd E = .ok (E.map (complementGroup e)) :=
  mapRaise_of_ok 0 E fun k g hg => cmplDigit_of_le opnd k (h g hg)

theorem cmpl_map_complementGroup {e : Encoding} (opnd : Bool) {E : List Group} (h : ∀ g ∈ E, g.toNat ≤ maxGroup e) :
    cmpl e opnd (E.map (complementGroup e)) = .ok E := by
  have hle : ∀ g ∈ E.map (complementGroup e), g.toNat ≤ maxGroup e := by
    refine List.forall_mem_map.mpr fun g _ => ?_
    rw [complementGroup_toNat]
    exact Nat.sub_le _ _
  rw [cmpl_of_le opnd hle, List.map_map]
  exact congrArg Except.ok
    ((List.map_congr_left fun g hg => complementGroup_complementGroup (h g hg)).trans (List.map_id E))

/-- The valid groups before the first malformed one raise nothing, so its fault is the one reported. -/
theorem cmpl_of_firstMalformed (opnd : Bool) {E : List Group} {k : Nat} (h : FirstMalformed .bcd E k) :
    cmpl .bcd opnd E = .error ⟨.invalidDigitGroup, opnd, k⟩ := by
  obtain ⟨hlt, hbad, hgood⟩ := h
  refine mapRaise_of_error k 0 E E[k] (List.getElem?_eq_getElem hlt) ?_ fun i g hi hg => ?_
  · rw [List.getD_eq_getElem E 0 hlt] at hbad
    rw [Nat.zero_add]
    exact cmplDigit_of_malformed opnd k hbad
  · have hvalid := hgood i hi
    rw [List.getD_eq_getElem?_getD, hg] at hvalid
    exact ⟨_, cmplDigit_of_valid .bcd opnd _ hvalid⟩

/-! ### What CMPL computes (R84, R85) -/

theorem commandFn_cmpl (e : Encoding) (t : Bool) (o : Operands P) : commandFn (instrOf .cmpl e t) o = cmplFn e o := by
  simp [commandFn]

/-- With a legal length CMPL is `cmpl`, its sequence on `ra`. -/
theorem cmplFn_of_legalLen (e : Encoding) {o : Operands P} (h : LegalLen o.ea) :
    cmplFn e o = (cmpl e false o.ea.groups).map fun K => { ra := some (packSeq K) } := by
  rw [cmplFn, checkLen_of_legal false h]
  rfl

theorem cmplFn_of_illegalLen (e : Encoding) {o : Operands P} (h : ¬ LegalLen o.ea) :
    cmplFn e o = .error (lengthFault false) := by
  rw [cmplFn, checkLen_of_illegal false h]
  rfl

theorem cmplFn_of_le {e : Encoding} {o : Operands P} (hlen : LegalLen o.ea) (h : ∀ g ∈ o.ea.groups, g.toNat ≤ maxGroup e) :
    cmplFn e o = .ok { ra := some (packSeq (o.ea.groups.map (complementGroup e))) } := by
  rw [cmplFn_of_legalLen e hlen, cmpl_of_le false h]
  rfl

theorem cmplFn_of_firstMalformed {o : Operands P} {k : Nat} (hlen : LegalLen o.ea)
    (hfirst : FirstMalformed .bcd o.ea.groups k) : cmplFn .bcd o = .error ⟨.invalidDigitGroup, false, k⟩ := by
  rw [cmplFn_of_legalLen .bcd hlen, cmpl_of_firstMalformed false hfirst]
  rfl

end Sys2Proof.Machine

namespace Sys2Proof.Proofs

open Sys2Proof.Machine Sys2Proof.Safety

/-- Settles O34: both calls take every group below `maxGroup`, and subtracting from `maxGroup` twice gives the group back. -/
theorem complementIsAnInvolution : Obligations.ComplementIsAnInvolution :=
  ⟨fun _ opnd _ h => ⟨_, cmpl_of_le opnd (le_maxGroup h), cmpl_map_complementGroup opnd (le_maxGroup h)⟩,
    fun opnd _ _ => cmpl_of_firstMalformed opnd⟩

/-- Settles O35: the value of a valid sequence and that of its nines complement add up to `10^L - 1`. -/
theorem complementIsNinesComplement : Obligations.ComplementIsNinesComplement := by
  intro e opnd E hE
  have hsum := seqValue_add_ninesOf e hE
  have hK := decn_of_valid e opnd (allValid_ninesOf e E)
  refine ⟨ninesOf e E, seqValue e E, cmpl_of_valid e opnd hE, decn_of_valid e opnd hE, ?_, rfl, fun A _ hA =>
    ⟨seqValue e A, seqValue e (ninesOf e E), decn_of_valid e opnd hA, hK, ?_⟩⟩
  · rw [hK, ← hsum, Nat.add_sub_cancel, Nat.add_sub_cancel_left]
  · zify at hsum
    linear_combination hsum

/-- Settles O36: the length check comes first; after it the complement is as long as the operand, which fits `ra`, and the
index of a malformed group fits `err_idx`. -/
theorem cmplComplementsASequence : Obligations.CmplComplementsASequence := by
  refine ⟨fun t => ⟨hasMatch_instrOf .cmpl .bcd t, hasMatch_instrOf .cmpl .xs3 t⟩,
    fun P e t s => ⟨fun hlen hvalid => ?_, fun hillegal => ?_, ?_⟩⟩
  · have hfn := (commandFn_cmpl e t s.pins.ops).trans (cmplFn_of_le hlen (le_maxGroup hvalid))
    have hfits := ((List.length_map (complementGroup e)).trans (groups_length s.pins.ops.ea)).trans_le hlen.2
    refine ⟨_, exec_of_commandFn_ok hfn, ended_conclude s _ _, rfl, ?_⟩
    cases e <;> exact portHolds_packSeq hfits
  · have hfn := (commandFn_cmpl e t s.pins.ops).trans (cmplFn_of_illegalLen e hillegal)
    exact exec_faulted_of_commandFn_error hfn P.N.succ_pos
  · rintro k hlen rfl hfirst
    have hfn := (commandFn_cmpl .bcd t s.pins.ops).trans (cmplFn_of_firstMalformed hlen hfirst)
    have hidx : k < P.LMAX := hfirst.1.trans_le ((groups_length s.pins.ops.ea).trans_le hlen.2)
    exact exec_faulted_of_commandFn_error hfn hidx

end Sys2Proof.Proofs

/-! PROOF. The add path and the subtractor (45_add_sub.md R88 to R105): what the one pass of ADD and the passes of SUB stand for,
and how the two commands end. -/

namespace Sys2Proof.Machine

open Sys2Proof.Config Sys2Proof.Safety

variable {P : Params}

/-! ### The room for the operands (R91, R95) -/

theorem lt_pow_canonicalDigits_length (n : Nat) : n < 10 ^ (canonicalDigits n).length := by
  rw [← Nat.digits_length_le_iff (by norm_num), canonicalDigits_length]
  exact le_max_right _ _

/-- The digit that alignment reserves is above every digit of both operands. -/
theorem lt_pow_alignedLen_sub_one (n m : Nat) : n < 10 ^ (alignedLen n m - 1) ∧ m < 10 ^ (alignedLen n m - 1) := by
  rw [alignedLen, Nat.add_sub_cancel]
  exact ⟨(lt_pow_canonicalDigits_length n).trans_le (Nat.pow_le_pow_right (by norm_num) (le_max_left _ _)),
    (lt_pow_canonicalDigits_length m).trans_le (Nat.pow_le_pow_right (by norm_num) (le_max_right _ _))⟩

theorem pow_alignedLen (n m : Nat) : 10 ^ alignedLen n m = 10 * 10 ^ (alignedLen n m - 1) := pow_succ' 10 _

theorem operandSeq_head? {e : Encoding} {L n : Nat} (h : (canonicalDigits n).length < L) :
    (operandSeq e L n).head? = some (groupOf e 0) := by
  rw [operandSeq, ← List.length_map (groupOf e)]
  exact zeros_append_head? e ((List.length_map _).trans_lt h)

/-! ### Sequences by their value -/

/-- A valid sequence below `2·10^(L-1)` begins with the group of 0 or of 1. -/
theorem head?_of_seqValue_lt {e : Encoding} {E : List Group} (hne : E ≠ []) (h : AllValid e E)
    (hlt : seqValue e E < 2 * 10 ^ (E.length - 1)) : E.head? ∈ [some (groupOf e 0), some (groupOf e 1)] := by
  obtain ⟨g, E, rfl⟩ := List.exists_cons_of_ne_nil hne
  rw [seqValue_cons, List.length_cons, Nat.add_sub_cancel] at hlt
  have hdigit : digitOf e g < 2 := Nat.lt_of_mul_lt_mul_right (lt_of_le_of_lt (Nat.le_add_right _ _) hlt)
  rw [List.head?_cons, ← groupOf_digitOf e g (h g List.mem_cons_self)]
  interval_cases digitOf e g <;> simp

theorem eq_zeros_of_seqValue_eq_zero {e : Encoding} {E : List Group} (h : AllValid e E) (hzero : seqValue e E = 0) :
    E = List.replicate E.length (groupOf e 0) := by
  induction E with
  | nil => rfl
  | cons g E ih =>
    obtain ⟨hg, hE⟩ := List.forall_mem_cons.mp h
    rw [seqValue_cons, Nat.add_eq_zero_iff, Nat.mul_eq_zero] at hzero
    obtain ⟨hdigit, hvalue⟩ := hzero
    have hpow : 10 ^ E.length ≠ 0 := pow_ne_zero _ (by norm_num)
    rw [(digitOf_eq_zero_iff hg).mp (hdigit.resolve_right hpow), List.length_cons, List.replicate_succ, ← ih hE hvalue]

/-- The largest value of `L` groups is that of the group of 9 at every position. -/
theorem eq_nines_of_seqValue {e : Encoding} {E : List Group} (h : AllValid e E) (hmax : seqValue e E + 1 = 10 ^ E.length) :
    E = List.replicate E.length (groupOf e 9) := by
  have hnines : seqValue e (ninesOf e E) = 0 := by
    have := seqValue_add_ninesOf e h
    omega
  have hzeros := eq_zeros_of_seqValue_eq_zero (allValid_ninesOf e E) hnines
  refine List.eq_replicate_iff.mpr ⟨rfl, fun g hg => ?_⟩
  have hmem : groupOf e (9 - digitOf e g) ∈ ninesOf e E := List.mem_map_of_mem hg
  rw [hzeros] at hmem
  have hdigit := (groupOf_eq_groupOf_zero_iff e (Nat.sub_le 9 _)).mp (List.eq_of_mem_replicate hmem)
  rw [← groupOf_digitOf e g (h g hg), Nat.le_antisymm (digitOf_le e (h g hg)) (Nat.sub_eq_zero_iff_le.mp hdigit)]

/-! ### The pass of ADD (R88, R91) -/

theorem sumPass_value (e : Encoding) (n m : Nat) :
    seqValue e (sumPass P e n m).seq + 10 ^ alignedLen n m * (sumPass P e n m).carry.toNat = n + m := by
  obtain ⟨hlen, -, hA, hB, hn, hm⟩ := alignedPair_operandSeq e n m
  obtain ⟨-, -, hvalue⟩ := addg_of_valid (P := P) e false false hlen hA hB
  rwa [operandSeq_length_left, hn, hm] at hvalue

/-- The reserved digit takes the carry out of the operands' digits, so that none leaves the pass. -/
theorem sumPass_carry (e : Encoding) (n m : Nat) : (sumPass P e n m).carry = false := by
  have hvalue := sumPass_value (P := P) e n m
  obtain ⟨hn, hm⟩ := lt_pow_alignedLen_sub_one n m
  rw [pow_alignedLen] at hvalue
  cases hc : (sumPass P e n m).carry with
  | false => rfl
  | true =>
    rw [hc, Bool.toNat_true] at hvalue
    omega

theorem seqValue_sumPass (e : Encoding) (n m : Nat) : seqValue e (sumPass P e n m).seq = n + m := by
  have hvalue := sumPass_value (P := P) e n m
  rwa [sumPass_carry] at hvalue

theorem sumPass_head? (e : Encoding) (n m : Nat) :
    (sumPass P e n m).seq.head? ∈ [some (groupOf e 0), some (groupOf e 1)] := by
  obtain ⟨hvalid, hlength⟩ := sumPass_allValid_length (P := P) e n m
  obtain ⟨hn, hm⟩ := lt_pow_alignedLen_sub_one n m
  refine head?_of_seqValue_lt (List.ne_nil_of_length_pos (hlength ▸ Nat.succ_pos _)) hvalid ?_
  rw [seqValue_sumPass, hlength]
  omega

theorem matchAdd_add (n m : Nat) : matchAdd n m (n + m) = true := beq_self_eq_true (n + m)

theorem addPath_eq (e : Encoding) {n m : Nat} (hn : n < 10 ^ P.N) (hm : m < 10 ^ P.N) :
    addPath P e n m = .ok { rr := (sumPass P e n m).seq, cf := false, mag := n + m, neg := false, matchRef := true
                            recs := (sumPass P e n m).recs } := by
  have hmag := decn_of_valid e false (sumPass_allValid_length (P := P) e n m).1
  have hcarry := sumPass_carry (P := P) e n m
  rw [seqValue_sumPass] at hmag
  unfold sumPass at hmag hcarry
  simp [addPath, encodeAlign_of_lt e hn hm, hmag, hcarry, matchAdd_add, sumPass, bind, Except.bind, pure, Except.pure]

/-! ### The passes of SUB (R95 to R98) -/

theorem differencePass_value (e : Encoding) (n m : Nat) :
    seqValue e (differencePass P e n m).seq + m + 10 ^ alignedLen n m * (differencePass P e n m).carry.toNat =
      n + 10 ^ alignedLen n m := by
  obtain ⟨-, -, hvalue⟩ := firstPass_of_alignedPair (P := P) (alignedPair_operandSeq e n m)
  rwa [operandSeq_length_left] at hvalue

/-- The final carry of the first pass reads the sign: it is 1 exactly where the difference is not negative. -/
theorem differencePass_carry (e : Encoding) (n m : Nat) : (differencePass P e n m).carry = decide (m ≤ n) := by
  obtain ⟨hvalid, hlength⟩ := differencePass_allValid_length (P := P) e n m
  have hvalue := differencePass_value (P := P) e n m
  have hlt := hlength ▸ seqValue_lt e _ hvalid
  cases hc : (differencePass P e n m).carry with
  | false =>
    rw [hc, Bool.toNat_false] at hvalue
    exact (decide_eq_false (by omega)).symm
  | true =>
    rw [hc, Bool.toNat_true] at hvalue
    exact (decide_eq_true (by omega)).symm

theorem seqValue_differencePass_of_ge (e : Encoding) {n m : Nat} (h : m ≤ n) :
    seqValue e (differencePass P e n m).seq = n - m := by
  have hvalue := differencePass_value (P := P) e n m
  rw [differencePass_carry, decide_eq_true h, Bool.toNat_true] at hvalue
  omega

/-- With a negative difference the first pass leaves the ten's complement of the magnitude. -/
theorem seqValue_differencePass_of_lt (e : Encoding) {n m : Nat} (h : n < m) :
    seqValue e (differencePass P e n m).seq = 10 ^ alignedLen n m - (m - n) := by
  have hvalue := differencePass_value (P := P) e n m
  rw [differencePass_carry, decide_eq_false (by omega), Bool.toNat_false] at hvalue
  omega

/-- The ten's complement of 1 has digit 9 at every position (R105). -/
theorem differencePass_seq_of_succ (e : Encoding) (n : Nat) :
    (differencePass P e n (n + 1)).seq = List.replicate (alignedLen n (n + 1)) (groupOf e 9) := by
  obtain ⟨hvalid, hlength⟩ := differencePass_allValid_length (P := P) e n (n + 1)
  have hvalue := seqValue_differencePass_of_lt (P := P) e (Nat.lt_add_one n)
  rw [Nat.add_sub_cancel_left] at hvalue
  rw [← hlength]
  refine eq_nines_of_seqValue hvalid ?_
  rw [hlength, hvalue, Nat.sub_add_cancel (Nat.pow_pos (by norm_num))]

/-- The nines complement of that is one short of the magnitude (R98). -/
theorem seqValue_ninesOf_differencePass (e : Encoding) {n m : Nat} (h : n < m) :
    seqValue e (ninesOf e (differencePass P e n m).seq) = m - n - 1 := by
  obtain ⟨hvalid, hlength⟩ := differencePass_allValid_length (P := P) e n m
  have hsum := seqValue_add_ninesOf e hvalid
  obtain ⟨-, hm⟩ := lt_pow_alignedLen_sub_one n m
  rw [seqValue_differencePass_of_lt e h, hlength, pow_alignedLen] at hsum
  omega

/-- The second pass of SUB: over the complement of the first pass's result and the one-sequence, with carry seed 0 (R97). -/
def recoveryPass (P : Params) (e : Encoding) (n m : Nat) : PassOut P :=
  addg P e true (ninesOf e (differencePass P e n m).seq) (operandSeq e (alignedLen n m) 1) false

theorem recoveryPass_operands_length (e : Encoding) (n m : Nat) :
    (ninesOf e (differencePass P e n m).seq).length = (operandSeq e (alignedLen n m) 1).length := by
  obtain ⟨-, hlength⟩ := differencePass_allValid_length (P := P) e n m
  rw [← hlength]
  exact ninesOf_length_eq_one e (hlength ▸ Nat.succ_pos _)

theorem allValid_recoveryPass (e : Encoding) (n m : Nat) : AllValid e (recoveryPass P e n m).seq :=
  (addg_of_valid e true false (recoveryPass_operands_length e n m) (allValid_ninesOf e _) (allValid_operandSeq e _ 1)).1

/-- The second pass adds the 1 that the complement is short of; the magnitude fits, so its final carry is 0. -/
theorem seqValue_recoveryPass (e : Encoding) {n m : Nat} (h : n < m) : seqValue e (recoveryPass P e n m).seq = m - n := by
  obtain ⟨-, -, hvalue⟩ := addg_of_valid (P := P) e true false (recoveryPass_operands_length e n m) (allValid_ninesOf e _)
    (allValid_operandSeq e _ 1)
  obtain ⟨-, hm⟩ := lt_pow_alignedLen_sub_one n m
  obtain ⟨-, hlength⟩ := differencePass_allValid_length (P := P) e n m
  rw [ninesOf_length, hlength, pow_alignedLen, seqValue_ninesOf_differencePass e h, seqValue_operandSeq, Bool.toNat_false,
    ← recoveryPass] at hvalue
  cases hc : (recoveryPass P e n m).carry with
  | false =>
    rw [hc, Bool.toNat_false] at hvalue
    omega
  | true =>
    rw [hc, Bool.toNat_true] at hvalue
    omega

/-! ### The passes in closed form (R88, R95, R97) -/

theorem passOf_sumPass (e : Encoding) (n m : Nat) :
    PassOf e false (operandSeq e (alignedLen n m) n) (operandSeq e (alignedLen n m) m) false (sumPass P e n m).seq false
      (sumPass P e n m).recs := by
  have hpass := passOf_addg (P := P) e false false (alignedPair_operandSeq e n m).length_eq
  rwa [← sumPass, sumPass_carry] at hpass

theorem passOf_differencePass (e : Encoding) {n m : Nat} {cout : Bool} (hcout : cout = decide (m ≤ n)) :
    PassOf e false (operandSeq e (alignedLen n m) n) (ninesOf e (operandSeq e (alignedLen n m) m)) true
      (differencePass P e n m).seq cout (differencePass P e n m).recs := by
  have hlen := (alignedPair_operandSeq e n m).length_eq
  rw [hcout, ← differencePass_carry (P := P) e n m]
  exact passOf_addg e false true (hlen.trans (ninesOf_length e _).symm)

theorem passOf_recoveryPass (e : Encoding) (n m : Nat) :
    PassOf e true (ninesOf e (differencePass P e n m).seq) (operandSeq e (alignedLen n m) 1) false (recoveryPass P e n m).seq
      (recoveryPass P e n m).carry (recoveryPass P e n m).recs :=
  passOf_addg e true false (recoveryPass_operands_length e n m)

/-! ### The subtractor as a function (R99) -/

theorem matchSub_of_ge {n m : Nat} (h : m ≤ n) : matchSub n m false (n - m) = true := by
  simp [matchSub, signedResult, h]

theorem matchSub_of_lt {n m : Nat} (h : n < m) (mag : Nat) : matchSub n m true mag = decide (mag = m - n) := by
  rw [matchSub, signedResult, if_pos rfl, Bool.eq_iff_iff, beq_iff_eq, decide_eq_true_iff]
  omega

theorem addsOne_eq_false_iff {inc : Bool} {e : Encoding} : addsOne inc e = false ↔ e = .xs3 ∧ inc = false := by
  cases e <;> simp [addsOne]

theorem addsOne_iff {inc : Bool} {e : Encoding} : addsOne inc e = true ↔ e = .bcd ∨ inc = true := by
  cases e <;> simp [addsOne]

theorem subPath_of_ge (e : Encoding) {n m : Nat} (hn : n < 10 ^ P.N) (h : m ≤ n) :
    subPath P e n m = .ok { rr := (differencePass P e n m).seq, cf := true, mag := n - m, neg := false, matchRef := true
                            recs := (differencePass P e n m).recs } := by
  have hmag := decn_of_valid e false (differencePass_allValid_length (P := P) e n m).1
  have hcarry := differencePass_carry (P := P) e n m
  rw [seqValue_differencePass_of_ge e h] at hmag
  simp [subPath, encodeAlign_of_lt e hn (h.trans_lt hn), cmpl_of_valid e false (allValid_operandSeq e _ m),
    addg_eq_differencePass, hcarry, h, hmag, matchSub_of_ge, bind, Except.bind, pure, Except.pure]

/-- With a negative difference the subtractor is the recomplement of the first pass's result. -/
theorem subPath_of_lt_of_recomplement (e : Encoding) {n m mag : Nat} {RM : List Group} {recs : List (TraceRec P)}
    (hm : m < 10 ^ P.N) (h : n < m) (hrec : recomplement P e (differencePass P e n m).seq = .ok (RM, recs))
    (hmag : decn e false RM = .ok mag) :
    subPath P e n m = .ok { rr := (differencePass P e n m).seq, cf := false, mag := mag, neg := true
                            matchRef := decide (mag = m - n), recs := (differencePass P e n m).recs ++ recs } := by
  have hcarry := differencePass_carry (P := P) e n m
  simp [subPath, encodeAlign_of_lt e (h.trans hm) hm, cmpl_of_valid e false (allValid_operandSeq e _ m),
    addg_eq_differencePass, hcarry, not_le.mpr h, hrec, hmag, matchSub_of_lt h, bind, Except.bind, pure, Except.pure]

theorem subPath_of_lt_addsOne {e : Encoding} {n m : Nat} (hm : m < 10 ^ P.N) (h : n < m)
    (hadds : addsOne P.xs3RecompInc e = true) :
    subPath P e n m = .ok { rr := (differencePass P e n m).seq, cf := false, mag := m - n, neg := true, matchRef := true
                            recs := (differencePass P e n m).recs ++ (recoveryPass P e n m).recs } := by
  obtain ⟨hvalid, hlength⟩ := differencePass_allValid_length (P := P) e n m
  have hrec : recomplement P e (differencePass P e n m).seq =
      .ok ((recoveryPass P e n m).seq, (recoveryPass P e n m).recs) := by
    rw [recomplement, cmpl_of_valid e false hvalid, oneSeq_eq_operandSeq, hlength, hadds]
    rfl
  have hmag := decn_of_valid e false (allValid_recoveryPass (P := P) e n m)
  rw [seqValue_recoveryPass e h] at hmag
  rw [subPath_of_lt_of_recomplement e hm h hrec hmag, decide_eq_true rfl]

theorem subPath_of_lt_not_addsOne {n m : Nat} (hm : m < 10 ^ P.N) (h : n < m) (hinc : P.xs3RecompInc = false) :
    subPath P .xs3 n m = .ok { rr := (differencePass P .xs3 n m).seq, cf := false, mag := m - n - 1, neg := true
                               matchRef := false, recs := (differencePass P .xs3 n m).recs } := by
  obtain ⟨hvalid, -⟩ := differencePass_allValid_length (P := P) .xs3 n m
  have hrec : recomplement P .xs3 (differencePass P .xs3 n m).seq =
      .ok (ninesOf .xs3 (differencePass P .xs3 n m).seq, []) := by
    rw [recomplement, cmpl_of_valid .xs3 false hvalid, addsOne, hinc]
    rfl
  have hmag := decn_of_valid .xs3 false (allValid_ninesOf .xs3 (differencePass P .xs3 n m).seq)
  rw [seqValue_ninesOf_differencePass .xs3 h] at hmag
  rw [subPath_of_lt_of_recomplement .xs3 hm h hrec hmag, decide_eq_false (by omega), List.append_nil]

/-! ### Equal operands (R102) -/

/-- A valid group and its nines complement add up to the largest group `cmpl_digit` takes: 9 under BCD, 15 under Excess-3. -/
theorem toNat_add_toNat_nines : ∀ (e : Encoding) (g : Group), validGroup e g = true →
    g.toNat + (groupOf e (9 - digitOf e g)).toNat = maxGroup e := by
  intro e
  cases e <;> decide

theorem rawAt_ninesOf {e : Encoding} {A : List Group} (h : AllValid e A) (c : Bool) {i : Nat} (hi : i < A.length) :
    rawAt A (ninesOf e A) c i = maxGroup e + c.toNat := by
  have hi' : i < (ninesOf e A).length := by rwa [ninesOf_length]
  rw [rawAt, List.getD_eq_getElem _ _ hi, List.getD_eq_getElem _ _ hi',
    ← toNat_add_toNat_nines e A[i] (h _ (List.getElem_mem hi))]
  simp only [ninesOf, List.getElem_map]

/-- A position whose groups are complements hands its carry on. -/
theorem closedCarry_maxGroup (e : Encoding) (c : Bool) : closedCarry e (maxGroup e + c.toNat) = c := by
  cases e <;> cases c <;> rfl

theorem closedFixed_maxGroup_succ (e : Encoding) : closedFixed e (maxGroup e + 1) = groupOf e 0 := by cases e <;> rfl

/-- In a pass over a sequence and its nines complement with seed 1 the carry runs through every position, and each emits the
zero-digit group. -/
theorem isPass_ninesOf_self {e : Encoding} {A R : List Group} {cout : Bool} {cs : List Bool} (h : AllValid e A)
    (hpass : IsPass e A (ninesOf e A) true R cout cs) :
    R = List.replicate A.length (groupOf e 0) ∧ ∀ c ∈ cs, c = true := by
  obtain ⟨hR, hcs, hseed, -, hpos⟩ := hpass
  have hcarry : ∀ i ≤ A.length, cs.getD i false = true := by
    intro i hi
    induction hi using Nat.decreasingInduction with
    | self => exact hseed
    | of_succ i hi ih =>
      rw [(hpos i hi).1, rawAt_ninesOf h _ hi, closedCarry_maxGroup, ih]
  constructor
  · refine List.ext_getElem (by rw [hR, List.length_replicate]) fun i hi _ => ?_
    have hiA : i < A.length := hR ▸ hi
    rw [List.getElem_replicate, ← List.getD_eq_getElem _ 0 hi, (hpos i hiA).2, rawAt_ninesOf h _ hiA, hcarry (i + 1) hiA]
    exact closedFixed_maxGroup_succ e
  · intro c hc
    obtain ⟨i, hi, rfl⟩ := List.getElem_of_mem hc
    rw [← List.getD_eq_getElem _ false hi]
    exact hcarry i (by omega)

/-! ### How ADD and SUB end (R89, R90, R100, R101) -/

theorem commandFn_add (e : Encoding) (t : Bool) (o : Operands P) : commandFn (instrOf .add e t) o = addFn e t o := by
  simp [commandFn]

theorem commandFn_sub (e : Encoding) (t : Bool) (o : Operands P) : commandFn (instrOf .sub e t) o = subFn e t o := by
  simp [commandFn]

theorem addFn_of_addPath {e : Encoding} (t : Bool) {o : Operands P} {p : PathOut P}
    (h : addPath P e o.na.toNat o.nb.toNat = .ok p) : addFn e t o = .ok (p.results .done (emitted t p.recs)) := by
  rw [addFn, h]
  rfl

theorem subFn_of_subPath {e : Encoding} (t : Bool) {o : Operands P} {p : PathOut P}
    (h : subPath P e o.na.toNat o.nb.toNat = .ok p) :
    subFn e t o = .ok (p.results (if p.cf then .donePositive else .doneNegative) (emitted t p.recs)) := by
  rw [subFn, h]
  rfl

/-- A path whose result and magnitude fit their ports leaves its five outputs there, and the trace. -/
theorem exec_of_path {i : Instr} {s : Block P} {p : PathOut P} {ph : Phase} {trace : List (TraceRec P)}
    (h : commandFn i s.pins.ops = .ok (p.results ph trace)) (hrr : p.rr.length ≤ P.LMAX) (hmag : p.mag < 10 ^ P.LMAX) :
    ∃ u, exec i ⟨P, s⟩ = .next ⟨P, u⟩ ∧ Ended s u ph ∧ PortHolds u.out.ra p.rr ∧ u.out.cout = p.cf ∧
      u.out.mag.toNat = p.mag ∧ u.out.neg = p.neg ∧ u.out.matchRef = p.matchRef ∧ u.out.trace = trace :=
  ⟨_, exec_of_commandFn_ok h, ended_conclude s _ _, portHolds_packSeq hrr, rfl,
    (BitVec.toNat_ofNat _ _).trans (Nat.mod_eq_of_lt (hmag.trans_le P.le_RW)), rfl, rfl, rfl⟩

theorem lt_pow_LMAX {n : Nat} (h : n < 10 ^ P.N) : n < 10 ^ P.LMAX := h.trans (Nat.pow_lt_pow_succ (by norm_num))

theorem mag_eq_zero_iff {mag : BitVec P.RW} : mag = 0 ↔ mag.toNat = 0 := BitVec.toNat_inj.symm

theorem exec_add (e : Encoding) (t : Bool) {s : Block P} {n m : Nat} (hna : n = s.pins.ops.na.toNat)
    (hnb : m = s.pins.ops.nb.toNat) (hn : n < 10 ^ P.N) (hm : m < 10 ^ P.N) :
    ∃ u, exec (instrOf .add e t) ⟨P, s⟩ = .next ⟨P, u⟩ ∧ Ended s u .done ∧ PortHolds u.out.ra (sumPass P e n m).seq ∧
      u.out.cout = false ∧ u.out.mag.toNat = n + m ∧ u.out.neg = false ∧ u.out.matchRef = true ∧
      u.out.trace = emitted t (sumPass P e n m).recs := by
  subst hna hnb
  have hfn := (commandFn_add e t s.pins.ops).trans (addFn_of_addPath t (addPath_eq e hn hm))
  have hsum : s.pins.ops.na.toNat + s.pins.ops.nb.toNat < 10 ^ P.LMAX := by
    rw [pow_succ]
    omega
  exact exec_of_path hfn ((sumPass_allValid_length e _ _).2.trans_le (alignedLen_legal hn hm).2) hsum

/-- SUB on operands that fit ends as the subtractor does, with `ra` the result of the first pass. -/
theorem exec_sub_of_subPath {e : Encoding} (t : Bool) {s : Block P} {n m : Nat} {p : PathOut P}
    (hna : n = s.pins.ops.na.toNat) (hnb : m = s.pins.ops.nb.toNat) (hn : n < 10 ^ P.N) (hm : m < 10 ^ P.N)
    (hp : subPath P e n m = .ok p) (hrr : p.rr = (differencePass P e n m).seq) (hmag : p.mag ≤ max n m) :
    ∃ u, exec (instrOf .sub e t) ⟨P, s⟩ = .next ⟨P, u⟩ ∧
      Ended s u (if p.cf then .donePositive else .doneNegative) ∧ PortHolds u.out.ra p.rr ∧ u.out.cout = p.cf ∧
      u.out.mag.toNat = p.mag ∧ u.out.neg = p.neg ∧ u.out.matchRef = p.matchRef ∧ u.out.trace = emitted t p.recs := by
  subst hna hnb
  have hfn := (commandFn_sub e t s.pins.ops).trans (subFn_of_subPath t hp)
  have hfits : p.rr.length ≤ P.LMAX :=
    hrr ▸ (differencePass_allValid_length e _ _).2.trans_le (alignedLen_legal hn hm).2
  exact exec_of_path hfn hfits (lt_pow_LMAX (hmag.trans_lt (max_lt hn hm)))

theorem exec_sub_of_ge (e : Encoding) (t : Bool) {s : Block P} {n m : Nat} (hna : n = s.pins.ops.na.toNat)
    (hnb : m = s.pins.ops.nb.toNat) (hn : n < 10 ^ P.N) (h : m ≤ n) :
    ∃ u, exec (instrOf .sub e t) ⟨P, s⟩ = .next ⟨P, u⟩ ∧ Ended s u .donePositive ∧
      PortHolds u.out.ra (differencePass P e n m).seq ∧ u.out.cout = true ∧ u.out.mag.toNat = n - m ∧ u.out.neg = false ∧
      u.out.matchRef = true ∧ u.out.trace = emitted t (differencePass P e n m).recs :=
  exec_sub_of_subPath t hna hnb hn (h.trans_lt hn) (subPath_of_ge e hn h) rfl ((Nat.sub_le n m).trans (le_max_left n m))

theorem exec_sub_of_lt_addsOne {e : Encoding} (t : Bool) {s : Block P} {n m : Nat} (hna : n = s.pins.ops.na.toNat)
    (hnb : m = s.pins.ops.nb.toNat) (hm : m < 10 ^ P.N) (h : n < m) (hadds : addsOne P.xs3RecompInc e = true) :
    ∃ u, exec (instrOf .sub e t) ⟨P, s⟩ = .next ⟨P, u⟩ ∧ Ended s u .doneNegative ∧
      PortHolds u.out.ra (differencePass P e n m).seq ∧ u.out.cout = false ∧ u.out.mag.toNat = m - n ∧ u.out.neg = true ∧
      u.out.matchRef = true ∧ u.out.trace = emitted t ((differencePass P e n m).recs ++ (recoveryPass P e n m).recs) :=
  exec_sub_of_subPath t hna hnb (h.trans hm) hm (subPath_of_lt_addsOne hm h hadds) rfl
    ((Nat.sub_le m n).trans (le_max_right n m))

theorem exec_sub_of_lt_not_addsOne (t : Bool) {s : Block P} {n m : Nat} (hna : n = s.pins.ops.na.toNat)
    (hnb : m = s.pins.ops.nb.toNat) (hm : m < 10 ^ P.N) (h : n < m) (hinc : P.xs3RecompInc = false) :
    ∃ u, exec (instrOf .sub .xs3 t) ⟨P, s⟩ = .next ⟨P, u⟩ ∧ Ended s u .doneNegative ∧
      PortHolds u.out.ra (differencePass P .xs3 n m).seq ∧ u.out.cout = false ∧ u.out.mag.toNat = m - n - 1 ∧
      u.out.neg = true ∧ u.out.matchRef = false ∧ u.out.trace = emitted t (differencePass P .xs3 n m).recs :=
  exec_sub_of_subPath t hna hnb (h.trans hm) hm (subPath_of_lt_not_addsOne hm h hinc) rfl
    (((Nat.sub_le _ 1).trans (Nat.sub_le m n)).trans (le_max_right n m))

/-! ### Operands out of range (R89, R90, R100, R101) -/

theorem encodeAlign_of_ge_left {nmax : Nat} (e : Encoding) {n : Nat} (m : Nat) (h : 10 ^ nmax ≤ n) :
    encodeAlign nmax e n m = .error ⟨.inputOutOfRange, false, 0⟩ := by
  rw [encodeAlign, encn_of_ge e false h]
  rfl

theorem encodeAlign_of_ge_right {nmax : Nat} (e : Encoding) {n m : Nat} (hn : n < 10 ^ nmax) (h : 10 ^ nmax ≤ m) :
    encodeAlign nmax e n m = .error ⟨.inputOutOfRange, true, 0⟩ := by
  rw [encodeAlign, encn_of_lt e false hn, encn_of_ge e true h]
  rfl

/-- What encoding and aligning the operands raises, ADD and SUB raise. -/
theorem commandFn_of_encodeAlign_error {op : Op} (hop : op = .add ∨ op = .sub) {e : Encoding} (t : Bool) {o : Operands P}
    {f : FaultRec} (h : encodeAlign P.N e o.na.toNat o.nb.toNat = .error f) : commandFn (instrOf op e t) o = .error f := by
  obtain rfl | rfl := hop
  · rw [commandFn_add, addFn, addPath, h]
    rfl
  · rw [commandFn_sub, subFn, subPath, h]
    rfl

theorem exec_faulted_of_operand_ge {op : Op} (hop : op = .add ∨ op = .sub) (e : Encoding) (t : Bool) (s : Block P) :
    (10 ^ P.N ≤ s.pins.ops.na.toNat → ∃ u, exec (instrOf op e t) ⟨P, s⟩ = .next ⟨P, u⟩ ∧ Faulted s u 0x2 false 0) ∧
    (s.pins.ops.na.toNat < 10 ^ P.N → 10 ^ P.N ≤ s.pins.ops.nb.toNat →
      ∃ u, exec (instrOf op e t) ⟨P, s⟩ = .next ⟨P, u⟩ ∧ Faulted s u 0x2 true 0) :=
  ⟨fun hn => exec_faulted_of_commandFn_error (commandFn_of_encodeAlign_error hop t (encodeAlign_of_ge_left e _ hn))
      P.N.succ_pos,
    fun hn hm => exec_faulted_of_commandFn_error (commandFn_of_encodeAlign_error hop t (encodeAlign_of_ge_right e hn hm))
      P.N.succ_pos⟩

end Sys2Proof.Machine

namespace Sys2Proof.Proofs

open Sys2Proof.Machine Sys2Proof.Safety

/-- Settles O37: the reserved digits add up to 0 or 1 with the carry into them, so that no carry leaves the pass and its value
is the sum. -/
theorem addPathIsExact : Obligations.AddPathIsExact := by
  intro P e n m hn hm
  exact ⟨_, _, _, encodeAlign_of_lt e hn hm, operandSeq_head? (Nat.lt_succ_of_le (le_max_left _ _)),
    operandSeq_head? (Nat.lt_succ_of_le (le_max_right _ _)), addPath_eq e hn hm, rfl, (sumPass_allValid_length e n m).1, rfl,
    sumPass_head? e n m, rfl, rfl, rfl⟩

/-- Settles O38: each row is one equation of `add_path` or `sub_path`. -/
theorem correctnessProperties : Obligations.CorrectnessProperties := by
  refine fun P e n m hn hm => ⟨⟨_, addPath_eq e hn hm, rfl, rfl, rfl, rfl⟩,
    fun hle => ⟨_, subPath_of_ge e hn hle, rfl, rfl, rfl, rfl⟩,
    fun hlt hadds => ⟨_, subPath_of_lt_addsOne hm hlt (addsOne_iff.mpr hadds), rfl, rfl, rfl, rfl⟩, ?_⟩
  rintro hlt rfl hinc
  exact ⟨_, subPath_of_lt_not_addsOne hm hlt hinc, rfl, rfl, rfl, rfl⟩

/-- Settles O39: with operands in range ADD ends as the add path does, and its sum fits `mag`; otherwise encoding them raises
the fault. -/
theorem addAddsTwoIntegers : Obligations.AddAddsTwoIntegers := by
  refine ⟨fun t => ⟨hasMatch_instrOf .add .bcd t, hasMatch_instrOf .add .xs3 t⟩, ?_⟩
  rintro P e t s _ _ rfl rfl
  refine ⟨fun hn hm => ?_, exec_faulted_of_operand_ge (.inl rfl) e t s⟩
  obtain ⟨u, hu, hend, hra, hcout, hmag, hneg, hmatch, htrace⟩ := exec_add e t rfl rfl hn hm
  exact ⟨u, _, _, hu, hend, hra, by rw [hcout]; exact passOf_sumPass e _ _, hcout, hmag, hneg, hmatch, htrace⟩

/-- Settles O40: the first pass carries, and its value is the difference. -/
theorem subPositivePath : Obligations.SubPositivePath := by
  refine ⟨fun t => ⟨hasMatch_instrOf .sub .bcd t, hasMatch_instrOf .sub .xs3 t⟩, fun P e t s n m hna hnb hn hle => ?_⟩
  obtain ⟨u, hu, hend, hra, hcout, hmag, hneg, hmatch, htrace⟩ := exec_sub_of_ge e t hna hnb hn hle
  have hpass := passOf_differencePass (P := P) e (hcout.trans (decide_eq_true hle).symm)
  exact ⟨u, _, _, hu, hend, hra, hpass, seqValue_differencePass_of_ge e hle, hcout, hmag, hneg, hmatch, htrace⟩

/-- Settles O41: the first pass leaves the ten's complement, and the second adds the 1 that its nines complement is short of. -/
theorem subNegativePathAddingOne : Obligations.SubNegativePathAddingOne := by
  rintro P e t s n m _ hna hnb rfl hm hlt hadds
  obtain ⟨u, hu, hend, hra, hcout, hmag, hneg, hmatch, htrace⟩ :=
    exec_sub_of_lt_addsOne t hna hnb hm hlt (addsOne_iff.mpr hadds)
  have hpass := passOf_differencePass (P := P) e (hcout.trans (decide_eq_false (not_le.mpr hlt)).symm)
  exact ⟨u, _, _, _, _, _, hu, hend, hra, hpass, passOf_recoveryPass e n m, seqValue_differencePass_of_lt e hlt, hcout, hmag,
    hneg, hmatch, htrace⟩

/-- Settles O42: without the second pass the magnitude is read from the nines complement, which is one short. -/
theorem subXNegativePathByDefault : Obligations.SubXNegativePathByDefault := by
  rintro P t s n m _ hna hnb rfl hm hlt hinc
  obtain ⟨u, hu, hend, hra, hcout, hmag, hneg, hmatch, htrace⟩ := exec_sub_of_lt_not_addsOne t hna hnb hm hlt hinc
  have hpass := passOf_differencePass (P := P) .xs3 (hcout.trans (decide_eq_false (not_le.mpr hlt)).symm)
  exact ⟨u, _, _, hu, hend, hra, hpass, seqValue_differencePass_of_lt .xs3 hlt, hcout, hmag, hneg, hmatch, htrace⟩

/-- Settles O43: encoding the operands raises the fault, the first operand first. -/
theorem subOperandOutOfRange : Obligations.SubOperandOutOfRange :=
  fun _ e t s => exec_faulted_of_operand_ge (.inr rfl) e t s

/-- Settles O44: the pass adds a sequence to its own complement, so that the seed runs through every position. -/
theorem equalOperandsGivePositiveZero : Obligations.EqualOperandsGivePositiveZero := by
  rintro P e t s n _ hna rfl heq hn
  obtain ⟨u, hu, hend, hra, hcout, hmag, hneg, hmatch, -⟩ :=
    exec_sub_of_ge e t hna (hna.trans (congrArg BitVec.toNat heq)) hn le_rfl
  obtain ⟨cs, hpass, -⟩ := passOf_differencePass (P := P) e (hcout.trans (decide_eq_true (le_refl n)).symm)
  obtain ⟨hR, hcs⟩ := isPass_ninesOf_self (allValid_operandSeq e _ n) hpass
  rw [operandSeq_length_left] at hR
  rw [hR] at hpass
  rw [Nat.sub_self] at hmag
  exact ⟨u, cs, hu, hend, hcout, BitVec.eq_of_toNat_eq hmag, hneg, hmatch, hR ▸ hra, hpass, hcs⟩

/-- Settles O45: an exact negative result has a magnitude above 0, and one that is one short is 0 where the difference is 1;
the first pass then leaves the largest value of its length. -/
theorem negativeZeroOnlyUnderExcess3 : Obligations.NegativeZeroOnlyUnderExcess3 := by
  intro P e t s n m hna hnb hn hm
  obtain hle | hlt := le_or_gt m n
  · obtain ⟨u, hu, -, -, -, -, hneg, -, -⟩ := exec_sub_of_ge e t hna hnb hn hle
    have hnot : ¬ (u.out.neg = true ∧ u.out.mag = 0) := by simp [hneg]
    exact ⟨u, hu, iff_of_false hnot (by omega), fun h => absurd h hnot⟩
  cases hadds : addsOne P.xs3RecompInc e with
  | true =>
    obtain ⟨u, hu, -, -, -, hmag, -, -, -⟩ := exec_sub_of_lt_addsOne t hna hnb hm hlt hadds
    have hnot : ¬ (u.out.neg = true ∧ u.out.mag = 0) := by
      rw [mag_eq_zero_iff]
      omega
    have hexact : ¬ (e = .xs3 ∧ P.xs3RecompInc = false ∧ n + 1 = m) := by
      rintro ⟨rfl, hinc, -⟩
      exact Bool.false_ne_true (hinc.symm.trans hadds)
    exact ⟨u, hu, iff_of_false hnot hexact, fun h => absurd h hnot⟩
  | false =>
    obtain ⟨rfl, hinc⟩ := addsOne_eq_false_iff.mp hadds
    obtain ⟨u, hu, ⟨hph, -⟩, hra, hcout, hmag, hneg, hmatch, -⟩ := exec_sub_of_lt_not_addsOne t hna hnb hm hlt hinc
    have hzero : u.out.mag = 0 ↔ n + 1 = m := by
      rw [mag_eq_zero_iff]
      omega
    refine ⟨u, hu, by rw [hneg, hinc, hzero]; simp, fun ⟨_, hmag0⟩ => ⟨hph, hcout, hmatch, ?_⟩⟩
    obtain rfl := hzero.mp hmag0
    rwa [differencePass_seq_of_succ] at hra

end Sys2Proof.Proofs

/-! PROOF. The phase machine (45_add_sub.md R92, R106, R107): where each phase goes, and that its steps together do what one step
of the function view does. -/

namespace Sys2Proof.Machine

open Sys2Proof.Config Sys2Proof.Safety

variable {P : Params}

/-! ### A phase goes on, or ends the transaction -/

/-- A phase step goes on to phase `p`: the command in flight, its operands, the pins and the counter stand. -/
def MovesTo (s t : Block P) (p : Phase) : Prop :=
  t.ph = p ∧ t.pins = s.pins ∧ t.cwQ = s.cwQ ∧ t.opsQ = s.opsQ ∧ t.fresh = s.fresh

/-- A phase step ends the transaction in phase `p`, as the function of the command in flight says. -/
def EndsAt (s t : Block P) (p : Phase) : Prop :=
  t.ph = p ∧ ∃ i, decodeWord s.cwQ = .ok i ∧ t = s.settle (commandFn i s.opsQ)

/-- The end of a transaction keeps the pins and the counter's next value of the state it ends in, and nothing else. -/
theorem settle_congr {s t : Block P} (hpins : s.pins = t.pins) (hfresh : s.fresh = t.fresh)
    (x : Except FaultRec (Results P)) : s.settle x = t.settle x := by
  cases x with
  | ok r => simp only [Block.settle, Block.conclude, hpins, hfresh]
  | error f => simp only [Block.settle, Block.takeFault, hpins, hfresh]

/-! ### EXEC (R106) -/

/-- Only SUB has terminal phases of its own. -/
theorem ph_of_commandFn_eq_ok {i : Instr} {o : Operands P} {r : Results P} (hop : i.op ≠ .sub) (h : commandFn i o = .ok r) :
    r.ph = .done := by
  unfold commandFn at h
  generalize i.op = op at h hop
  cases op with
  | encd | decd | encn | pad | add =>
    obtain ⟨_, -, ⟨⟩⟩ := bind_eq_ok_iff.mp h
    rfl
  | decn | algn | cmpl | addg =>
    obtain ⟨_, -, h⟩ := bind_eq_ok_iff.mp h
    obtain ⟨_, -, ⟨⟩⟩ := bind_eq_ok_iff.mp h
    rfl
  | sub => exact absurd rfl hop

theorem execPhase_endsAt {s : Block P} (h : Inv s) (hph : s.ph = .exec) :
    EndsAt s (execPhase s) .done ∨ EndsAt s (execPhase s) .fault := by
  obtain ⟨hok, -⟩ := h
  simp only [PhaseOk, hph] at hok
  obtain ⟨⟨op, e, t, hflight, hfirst⟩, -⟩ := hok
  have hop : (instrOf op e t).op ≠ .sub := by
    rw [instrOf_op]
    rintro rfl
    cases hfirst
  have hexec := execPhase_of_ok hflight
  cases hfn : commandFn (instrOf op e t) s.opsQ with
  | ok r => exact .inl ⟨by rw [hexec, hfn]; exact ph_of_commandFn_eq_ok hop hfn, _, hflight, hexec⟩
  | error f => exact .inr ⟨by rw [hexec, hfn]; rfl, _, hflight, hexec⟩

/-! ### ALIGN and COMPLEMENT (R93, R94) -/

theorem alignPhase_cases {s : Block P} (h : Inv s) (hph : s.ph = .align) :
    ((10 ^ P.N ≤ s.opsQ.na.toNat ∨ 10 ^ P.N ≤ s.opsQ.nb.toNat) ∧ EndsAt s (alignPhase s) .fault) ∨
    (s.opsQ.na.toNat < 10 ^ P.N ∧ s.opsQ.nb.toNat < 10 ^ P.N ∧
      MovesTo s (alignPhase s) (if s.cwIsSub then .complement else .add)) := by
  obtain ⟨hok, -⟩ := h
  simp only [PhaseOk, hph] at hok
  obtain ⟨⟨op, e, t, hflight, hfirst⟩, -⟩ := hok
  obtain ⟨rfl, -, -⟩ := fields_of_inFlight hflight
  by_cases hrange : s.opsQ.na.toNat < 10 ^ P.N ∧ s.opsQ.nb.toNat < 10 ^ P.N
  · obtain ⟨hn, hm⟩ := hrange
    rw [alignPhase_of_ok (encodeAlign_of_lt s.cwEnc hn hm)]
    exact .inr ⟨hn, hm, rfl, rfl, rfl, rfl, rfl⟩
  · obtain ⟨hn, hm, -⟩ | ⟨opnd, herr⟩ := encodeAlign_cases P.N s.cwEnc s.opsQ.na.toNat s.opsQ.nb.toNat
    · exact absurd ⟨hn, hm⟩ hrange
    · rw [alignPhase_of_error herr]
      have hfn := commandFn_of_encodeAlign_error (op_of_firstPhase_align hfirst) t herr
      exact .inl ⟨by omega, rfl, _, hflight, by rw [hfn]; rfl⟩

theorem complementPhase_movesTo {s : Block P} (h : Inv s) (hph : s.ph = .complement) :
    MovesTo s (complementPhase s) .add := by
  obtain ⟨hok, -⟩ := h
  simp only [PhaseOk, hph] at hok
  obtain ⟨⟨e, t, hflight, haligned⟩, -⟩ := hok
  obtain ⟨rfl, -, -⟩ := fields_of_inFlight hflight
  rw [complementPhase_of_ok (cmpl_of_valid s.cwEnc false (alignedPair_of_encodeAlign haligned).valid_right)]
  exact ⟨rfl, rfl, rfl, rfl, rfl⟩

/-! ### ADD (R95, R106) -/

/-- The aligned operands in `RA` and `RB` are those of the function view, and in range. -/
theorem work_of_aligned {s : Block P} {e : Encoding} {n m : Nat} (h : Aligned s e) (hna : s.opsQ.na.toNat = n)
    (hnb : s.opsQ.nb.toNat = m) : n < 10 ^ P.N ∧ m < 10 ^ P.N ∧ s.work.ra = operandSeq e (alignedLen n m) n ∧
      s.work.rb = operandSeq e (alignedLen n m) m := by
  subst hna hnb
  unfold Aligned at h
  obtain ⟨hn, hm, hok⟩ | ⟨opnd, herr⟩ := encodeAlign_cases P.N e s.opsQ.na.toNat s.opsQ.nb.toNat
  · obtain ⟨hA, hB⟩ := Prod.mk.inj (Except.ok.inj (h.symm.trans hok))
    exact ⟨hn, hm, hA, hB⟩
  · cases h.symm.trans herr

theorem addResults_of_decn {s : Block P} {mag : Nat} (h : decn s.cwEnc false s.work.rr = .ok mag) :
    addResults s = .ok (PathOut.results
      { rr := s.work.rr, cf := s.work.cf, mag := mag, neg := false
        matchRef := matchAdd s.opsQ.na.toNat s.opsQ.nb.toNat mag, recs := [] } .done s.out.trace) := by
  rw [addResults, h]
  rfl

/-- Once the pass of ADD is in `RR` and `cf`, the end of ADD is that of the function view. -/
theorem addResults_of_sumPass {s : Block P} {t : Bool} {n m : Nat} (hna : s.opsQ.na.toNat = n) (hnb : s.opsQ.nb.toNat = m)
    (hn : n < 10 ^ P.N) (hm : m < 10 ^ P.N) (hrr : s.work.rr = (sumPass P s.cwEnc n m).seq)
    (hcf : s.work.cf = (sumPass P s.cwEnc n m).carry) (htrace : s.out.trace = emitted t (sumPass P s.cwEnc n m).recs) :
    ∃ r, addResults s = .ok r ∧ r.ph = .done ∧ commandFn (instrOf .add s.cwEnc t) s.opsQ = .ok r := by
  have hmag := decn_of_valid s.cwEnc false (sumPass_allValid_length (P := P) s.cwEnc n m).1
  rw [seqValue_sumPass, ← hrr] at hmag
  refine ⟨_, addResults_of_decn hmag, rfl, ?_⟩
  rw [commandFn_add, addFn_of_addPath t (by rw [hna, hnb]; exact addPath_eq s.cwEnc hn hm), hrr, hcf, sumPass_carry, htrace,
    hna, hnb, matchAdd_add]
  rfl

theorem addPhase_endsAt {s : Block P} (h : Inv s) (hph : s.ph = .add) (hadd : s.cwIsSub = false) :
    EndsAt s (addPhase s) .done := by
  obtain ⟨hok, -⟩ := h
  simp only [PhaseOk, hph] at hok
  obtain ⟨⟨e, t, haligned, hflight | ⟨hflight, -⟩⟩, htrace⟩ := hok
  · obtain ⟨rfl, rfl, -⟩ := fields_of_inFlight hflight
    obtain ⟨hn, hm, hA, hB⟩ := work_of_aligned haligned rfl rfl
    obtain ⟨hseq, hcy, hrecs⟩ :=
      runPass_eq_addg s.cwEnc false false s.work.di (alignedPair_of_encodeAlign haligned).length_eq
    rw [hA, hB, ← sumPass] at hseq hcy hrecs
    obtain ⟨r, hr, hrph, hfn⟩ := addResults_of_sumPass (t := s.cwTrace)
      (s := s.firstPass (runPass s.cwEnc false s.work.ra s.work.rb false s.work.di)) rfl rfl hn hm
      (by rw [hA, hB]; exact hseq) (by rw [hA, hB]; exact hcy) (by rw [Block.firstPass_out, htrace, hA, hB, hrecs]; rfl)
    rw [addPhase_of_add hadd rfl, hr]
    exact ⟨hrph, _, hflight, (settle_congr rfl rfl _).trans (congrArg s.settle hfn.symm)⟩
  · obtain ⟨-, -, hsub⟩ := fields_of_inFlight hflight
    cases hsub.symm.trans hadd

theorem addPhase_movesTo {s : Block P} (hsub : s.cwIsSub = true) : MovesTo s (addPhase s) .interpret := by
  rw [addPhase_of_sub hsub]
  exact ⟨rfl, rfl, rfl, rfl, rfl⟩

/-! ### INTERPRET and RECOMPLEMENT (R96 to R99) -/

/-- After the first pass of SUB, `RR`, `cf` and the trace are those of the function view. -/
theorem differencePass_of_firstPassDone {s : Block P} {e : Encoding} {t : Bool} {n m : Nat} (haligned : Aligned s e)
    (h : FirstPassDone s e t) (hna : s.opsQ.na.toNat = n) (hnb : s.opsQ.nb.toNat = m) :
    n < 10 ^ P.N ∧ m < 10 ^ P.N ∧ s.work.rr = (differencePass P e n m).seq ∧ s.work.cf = decide (m ≤ n) ∧
      s.out.trace = emitted t (differencePass P e n m).recs := by
  obtain ⟨hC, hrr, hcf, htrace⟩ := h
  obtain ⟨hn, hm, hA, hB⟩ := work_of_aligned haligned hna hnb
  rw [eq_ninesOf_of_cmpl (alignedPair_of_encodeAlign haligned).valid_right hC, hA, hB, addg_eq_differencePass]
    at hrr hcf htrace
  rw [differencePass_carry] at hcf
  exact ⟨hn, hm, hrr, hcf, htrace⟩

theorem subResults_of_decn {s : Block P} (neg : Bool) {E : List Group} {mag : Nat} (h : decn s.cwEnc false E = .ok mag) :
    subResults s neg E = .ok (PathOut.results
      { rr := s.work.rr, cf := s.work.cf, mag := mag, neg := neg
        matchRef := matchSub s.opsQ.na.toNat s.opsQ.nb.toNat neg mag, recs := [] }
      (if neg then .doneNegative else .donePositive) s.out.trace) := by
  rw [subResults, h]
  rfl

theorem interpretPhase_endsAt {s : Block P} (h : Inv s) (hph : s.ph = .interpret) (hcf : s.work.cf = true) :
    EndsAt s (interpretPhase s) .donePositive := by
  obtain ⟨hok, -⟩ := h
  simp only [PhaseOk, hph] at hok
  obtain ⟨e, t, hflight, haligned, hfirst⟩ := hok
  obtain ⟨rfl, -, -⟩ := fields_of_inFlight hflight
  obtain ⟨hn, hm, hrr, hcarry, htrace⟩ := differencePass_of_firstPassDone haligned hfirst rfl rfl
  have hle := of_decide_eq_true (hcarry.symm.trans hcf)
  have hmag := decn_of_valid s.cwEnc false
    (differencePass_allValid_length (P := P) s.cwEnc s.opsQ.na.toNat s.opsQ.nb.toNat).1
  have hfn := (commandFn_sub s.cwEnc t s.opsQ).trans (subFn_of_subPath t (subPath_of_ge s.cwEnc hn hle))
  have hres : subResults s false s.work.rr = commandFn (instrOf .sub s.cwEnc t) s.opsQ := by
    rw [seqValue_differencePass_of_ge s.cwEnc hle, ← hrr] at hmag
    rw [hfn, subResults_of_decn false hmag, hrr, hcf, htrace, matchSub_of_ge hle]
    rfl
  rw [interpretPhase_of_carry hcf]
  exact ⟨by rw [hres, hfn]; rfl, _, hflight, congrArg s.settle hres⟩

theorem interpretPhase_movesTo {s : Block P} (hcf : s.work.cf = false) : MovesTo s (interpretPhase s) .recomplement := by
  rw [interpretPhase_of_no_carry hcf]
  exact ⟨rfl, rfl, rfl, rfl, rfl⟩

@[simp] theorem Block.magnitudePass_rr (s : Block P) (K one : List Group) : (s.magnitudePass K one).work.rr = s.work.rr := by
  unfold Block.magnitudePass
  split <;> rfl

@[simp] theorem Block.magnitudePass_opsQ (s : Block P) (K one : List Group) : (s.magnitudePass K one).opsQ = s.opsQ := by
  unfold Block.magnitudePass
  split <;> rfl

/-- The magnitude sequence and the records of the phase view are those of `recomplement`. -/
theorem recomplement_eq_magnitudePass {s : Block P} (hvalid : AllValid s.cwEnc s.work.rr) (hpos : 1 ≤ s.work.rr.length)
    {u : Block P} (hu : s.magnitudePass (ninesOf s.cwEnc s.work.rr) (operandSeq s.cwEnc s.work.rr.length 1) = u) :
    AllValid s.cwEnc u.work.rm ∧ ∃ recs, recomplement P s.cwEnc s.work.rr = .ok (u.work.rm, recs) ∧
      u.out.trace = s.out.trace ++ emitted s.cwTrace recs := by
  have hlen := ninesOf_length_eq_one s.cwEnc hpos
  subst hu
  rw [Block.magnitudePass_rm s hlen]
  refine ⟨allValid_magnitudeSeq hlen (allValid_ninesOf _ _) (allValid_operandSeq _ _ 1), ?_⟩
  rw [recomplement, cmpl_of_valid _ false hvalid, oneSeq_eq_operandSeq, Block.magnitudePass, magnitudeSeq]
  cases addsOne P.xs3RecompInc s.cwEnc with
  | true =>
    obtain ⟨-, -, hrecs⟩ := runPass_eq_addg (P := P) s.cwEnc true false s.work.di hlen
    exact ⟨_, rfl, congrArg (fun recs => s.out.trace ++ emitted s.cwTrace recs) hrecs⟩
  | false => exact ⟨[], rfl, by rw [emitted_nil, List.append_nil]; rfl⟩

theorem recomplementPhase_endsAt {s : Block P} (h : Inv s) (hph : s.ph = .recomplement) :
    EndsAt s (recomplementPhase s) .doneNegative := by
  obtain ⟨hok, -⟩ := h
  simp only [PhaseOk, hph] at hok
  obtain ⟨e, t, hflight, haligned, hfirst, hcf⟩ := hok
  obtain ⟨rfl, rfl, -⟩ := fields_of_inFlight hflight
  obtain ⟨hvalid, hpos, -⟩ := rr_of_firstPassDone haligned hfirst
  obtain ⟨-, hm, hrr, hcarry, htrace⟩ := differencePass_of_firstPassDone haligned hfirst rfl rfl
  have hlt := not_le.mp (of_decide_eq_false (hcarry.symm.trans hcf))
  generalize hu : s.magnitudePass (ninesOf s.cwEnc s.work.rr) (operandSeq s.cwEnc s.work.rr.length 1) = u
  obtain ⟨hRM, recs, hrec, hrecs⟩ := recomplement_eq_magnitudePass hvalid hpos hu
  have hmag := decn_of_valid s.cwEnc false hRM
  have hfn := (commandFn_sub s.cwEnc s.cwTrace s.opsQ).trans
    (subFn_of_subPath s.cwTrace (subPath_of_lt_of_recomplement s.cwEnc hm hlt (hrr ▸ hrec) hmag))
  have hres : subResults u true u.work.rm = commandFn (instrOf .sub s.cwEnc s.cwTrace) s.opsQ := by
    rw [hfn, emitted_append, ← htrace, ← hrecs, ← hrr, ← matchSub_of_lt hlt]
    subst hu
    rw [subResults_of_decn true (by rw [Block.magnitudePass_cwEnc, hmag]), Block.magnitudePass_rr, Block.magnitudePass_cf,
      hcf, Block.magnitudePass_opsQ]
    rfl
  rw [recomplementPhase_of_ok (cmpl_of_valid _ false hvalid) (oneSeq_eq_operandSeq _ _) hu, hres]
  subst hu
  rw [magnitudePass_settle]
  exact ⟨by rw [hfn]; rfl, _, hflight, rfl⟩

/-! ### A phase step, and all of them (R92, R106, R107) -/

/-- What a phase step from a busy state can do: end the transaction, or go on to a busy phase, each as the tables list. -/
theorem phaseStep_cases {s : Block P} (h : Inv s) (hb : s.busy = true) :
    (∃ p ∈ nextPhases s.ph, EndsAt s (phaseStep s) p) ∨
    (∃ p ∈ nextPhases s.ph, p.busy = true ∧ MovesTo s (phaseStep s) p) := by
  unfold phaseStep
  cases hph : s.ph with
  | exec =>
    obtain hend | hend := execPhase_endsAt h hph
    · exact .inl ⟨_, by decide, hend⟩
    · exact .inl ⟨_, by decide, hend⟩
  | align =>
    obtain ⟨-, hend⟩ | ⟨-, -, hmove⟩ := alignPhase_cases h hph
    · exact .inl ⟨_, by decide, hend⟩
    · exact .inr ⟨_, by cases s.cwIsSub <;> decide, by cases s.cwIsSub <;> decide, hmove⟩
  | complement => exact .inr ⟨_, by decide, by decide, complementPhase_movesTo h hph⟩
  | add =>
    cases hsub : s.cwIsSub with
    | true => exact .inr ⟨_, by decide, by decide, addPhase_movesTo hsub⟩
    | false => exact .inl ⟨_, by decide, addPhase_endsAt h hph hsub⟩
  | interpret =>
    cases hcf : s.work.cf with
    | true => exact .inl ⟨_, by decide, interpretPhase_endsAt h hph hcf⟩
    | false => exact .inr ⟨_, by decide, by decide, interpretPhase_movesTo hcf⟩
  | recomplement => exact .inl ⟨_, by decide, recomplementPhase_endsAt h hph⟩
  | idle | donePositive | doneNegative | done | fault => simp [Block.busy, hph, Phase.busy] at hb

/-- The most phase steps that a transaction in a phase still takes. -/
def Phase.stepsLeft : Phase → Nat
  | .align => 5
  | .complement => 4
  | .add => 3
  | .interpret => 2
  | .recomplement | .exec => 1
  | .idle | .donePositive | .doneNegative | .done | .fault => 0

theorem stepsLeft_lt_of_mem_nextPhases {p q : Phase} (h : q ∈ nextPhases p) : q.stepsLeft < p.stepsLeft := by
  revert h
  cases p <;> cases q <;> decide

/-- The edges of a transaction in flight end, busy until then, in what the function of its command says. -/
theorem edges_reach_settle {i : Instr} (s : Block P) (h : Inv s) (hr : s.pins.rst = false) (hb : s.busy = true)
    (hi : decodeWord s.cwQ = .ok i) :
    ∃ k, k ≤ s.ph.stepsLeft ∧ (∀ j < k, (edge^[j] s).busy = true) ∧ edge^[k] s = s.settle (commandFn i s.opsQ) := by
  have hedge := edge_of_busy hr hb
  obtain ⟨p, hp, -, i', hi', hend⟩ | ⟨p, hp, hbusy, hph, hpins, hcw, hops, hfresh⟩ := phaseStep_cases h hb
  · obtain rfl := Except.ok.inj (hi'.symm.trans hi)
    have hlt := stepsLeft_lt_of_mem_nextPhases hp
    refine ⟨1, by omega, fun j hj => ?_, hedge.trans hend⟩
    obtain rfl := Nat.lt_one_iff.mp hj
    exact hb
  · have hlt := stepsLeft_lt_of_mem_nextPhases hp
    rw [← hph] at hlt hbusy
    obtain ⟨k, hk, hbefore, hreach⟩ :=
      edges_reach_settle (phaseStep s) (inv_phaseStep h) (hpins ▸ hr) hbusy (hcw ▸ hi)
    refine ⟨k + 1, by omega, fun j hj => ?_, ?_⟩
    · cases j with
      | zero => exact hb
      | succ j =>
        rw [Function.iterate_succ_apply, hedge]
        exact hbefore j (Nat.lt_of_succ_lt_succ hj)
    · rw [Function.iterate_succ_apply, hedge, hreach, hops]
      exact settle_congr hpins hfresh _
termination_by s.ph.stepsLeft

theorem settle_done (s : Block P) {x : Except FaultRec (Results P)} (h : EndsIn P Results.Sound x) :
    (s.settle x).done = true := by
  cases x with
  | error f => rfl
  | ok r =>
    rw [Block.done, Block.settle_ok, Block.conclude_ph]
    cases hph : r.ph <;> simp only [EndsIn, Results.Sound, hph] at h <;> rfl

end Sys2Proof.Machine

namespace Sys2Proof.Proofs

open Sys2Proof.Config Sys2Proof.Machine Sys2Proof.Safety

/-- Settles O53: each phase step moves or ends as its phase's rule says, on the registers that the invariant describes. -/
theorem phaseTransitionsFollowTheTables : Obligations.PhaseTransitionsFollowTheTables := by
  intro P s h hb hr
  rw [edge_of_busy hr hb]
  refine ⟨?_, fun hph => ?_, fun hph => ?_, fun hph => ?_⟩
  · obtain ⟨p, hp, hend, -⟩ | ⟨p, hp, -, hmove, -⟩ := phaseStep_cases h hb
    · exact hend ▸ hp
    · exact hmove ▸ hp
  · rw [phaseStep, hph]
    obtain ⟨hrange, hend, -⟩ | ⟨hn, hm, hmove, -⟩ := alignPhase_cases h hph
    · simp [hend, hrange]
    · rw [hmove]
      cases s.cwIsSub <;> simp [hn, hm]
  · rw [phaseStep, hph]
    cases hsub : s.cwIsSub with
    | true => simp [(addPhase_movesTo hsub).1]
    | false => simp [(addPhase_endsAt h hph hsub).1]
  · rw [phaseStep, hph]
    cases hcf : s.work.cf with
    | true => simp [(interpretPhase_endsAt h hph hcf).1]
    | false => simp [(interpretPhase_movesTo hcf).1]

/-- Settles O57: after the `start` edge each phase step moves on or ends as the command's function says, and at most five
remain; a reserved word ends at the `start` edge in both views. -/
theorem phaseViewAgreesWithFunctionView : Obligations.PhaseViewAgreesWithFunctionView := by
  intro P s hr hb hs
  have hstart := edge_of_start hr hb hs
  cases hi : decodeWord s.pins.cw with
  | error e =>
    have hedge : edge^[1] s = s.rejectCommand := hstart.trans (startEdge_of_error hi)
    exact ⟨1, le_rfl, by norm_num, fun j h1 hlt => absurd hlt (not_lt.mpr h1), by rw [hedge]; rfl,
      by rw [hedge, step_of_reserved hr hb hs hi]⟩
  | ok i =>
    rw [startEdge_of_ok hi] at hstart
    obtain ⟨k, hk, hbefore, hreach⟩ :=
      edges_reach_settle (s.accept (firstPhase i.op)) (inv_accept hi) hr (firstPhase_busy i.op) hi
    have hbound : (firstPhase i.op).stepsLeft ≤ 5 := by cases i.op <;> decide
    have hedges : ∀ j, edge^[j + 1] s = edge^[j] (s.accept (firstPhase i.op)) := fun j => by
      rw [Function.iterate_succ_apply, hstart]
    refine ⟨k + 1, Nat.le_add_left 1 k, Nat.succ_le_succ (hk.trans hbound), fun j h1 hlt => ?_, ?_, ?_⟩
    · obtain ⟨j, rfl⟩ := Nat.exists_eq_add_of_le' h1
      rw [hedges]
      exact hbefore j (Nat.lt_of_succ_lt_succ hlt)
    · rw [hedges, hreach]
      exact settle_done _ (commandFn_endsIn i _)
    · rw [hedges, hreach, step_of_command hr hb hs hi]
      rfl

end Sys2Proof.Proofs

/-! PROOF. The faults (60_exceptions.md R108 to R122): the reserved words, the fault registers, and which codes each command
raises. -/

namespace Sys2Proof

/-- A reserved word is one with `RSV` ≠ 00 or with `OP` 0x0 or 0xB..0xF (R113). -/
theorem exists_decodeWord_eq_error_iff {w : CmdWord} :
    (∃ e, decodeWord w = .error e) ↔ w.toNat / 64 ≠ 0 ∨ w.toNat % 16 = 0 ∨ 11 ≤ w.toNat % 16 := by
  have hlegal := exists_decodeWord_eq_ok_iff.trans (splitWord_wf_iff (w := w))
  have herror : (∃ e, decodeWord w = .error e) ↔ ¬ ∃ i, decodeWord w = .ok i := by
    cases decodeWord w <;> simp
  rw [herror, hlegal]
  omega

end Sys2Proof

namespace Sys2Proof.Machine

open Sys2Proof.Config Sys2Proof.Safety

variable {P : Params}

/-! ### The fault registers (R108, R113, R119) -/

theorem Block.errValid_eq_false_iff {s : Block P} : s.errValid = false ↔ s.ph ≠ .fault := beq_eq_false_iff_ne

theorem ph_ne_fault_of_busy {s : Block P} (h : s.busy = true) : s.ph ≠ .fault := by
  intro hph
  rw [Block.busy, hph] at h
  exact absurd h Bool.false_ne_true

theorem faulted_rejectCommand (s : Block P) : Faulted s s.rejectCommand 0x4 false 0 :=
  faulted_takeFault s .exec (f := illegalFault) P.N.succ_pos

/-- An end that is no fault leaves the fault registers 0. -/
theorem err_settle_of_ne_fault {s : Block P} {x : Except FaultRec (Results P)} (h : (s.settle x).ph ≠ .fault) :
    (s.settle x).err = ErrRegs.zero := by
  cases x with
  | ok r => rfl
  | error f => exact absurd rfl h

/-- The invariant leaves one code outside FAULT and four in it. -/
theorem err_code_mem_of_inv {s : Block P} (h : Inv s) : s.err.code ∈ [(0x0 : BitVec 4), 0x1, 0x2, 0x4, 0x5] := by
  by_cases hph : s.ph = .fault
  · obtain ⟨-, herr⟩ := h
    rw [ErrOk, if_pos hph] at herr
    obtain ⟨hcode, -⟩ := herr
    exact List.mem_cons_of_mem _ hcode
  · rw [err_of_inv h hph]
    exact List.mem_cons_self

/-! ### The codes that a computation can raise

The frame of `EndsIn` with another condition on the faults: a list that holds their codes. -/

/-- Every fault of `x` has its code in `codes`. -/
def RaisesOnly {α : Type} (codes : List (BitVec 4)) : Except FaultRec α → Prop
  | .ok _ => True
  | .error f => f.kind.code ∈ codes

variable {codes : List (BitVec 4)}

theorem RaisesOnly.bind {α β : Type} {x : Except FaultRec α} {f : α → Except FaultRec β}
    (hx : RaisesOnly codes x) (hf : ∀ a, RaisesOnly codes (f a)) : RaisesOnly codes (x >>= f) := by
  cases x with
  | ok a => exact hf a
  | error e => exact hx

theorem mapRaise_raisesOnly {α β : Type} {f : Nat → α → Except FaultRec β} (hf : ∀ k x, RaisesOnly codes (f k x)) :
    ∀ (k : Nat) (xs : List α), RaisesOnly codes (mapRaise f k xs)
  | _, [] => trivial
  | k, x :: xs => (hf k x).bind fun _ => (mapRaise_raisesOnly hf (k + 1) xs).bind fun _ => trivial

/-! #### LengthViolation (R114) -/

section LengthViolation

variable (h : 0x5 ∈ codes)

include h

theorem checkLen_raisesOnly (lmax : Nat) (opnd : Bool) (len : Nat) : RaisesOnly codes (checkLen lmax opnd len) := by
  unfold checkLen
  split
  · trivial
  · exact h

theorem checkLens_raisesOnly (lmax a b : Nat) : RaisesOnly codes (checkLens lmax a b) :=
  (checkLen_raisesOnly h lmax false a).bind fun _ => checkLen_raisesOnly h lmax true b

theorem checkEqualLen_raisesOnly (a b : Nat) : RaisesOnly codes (checkEqualLen a b) := by
  unfold checkEqualLen
  split
  · trivial
  · exact h

theorem checkRoom_raisesOnly (lmax a b : Nat) : RaisesOnly codes (checkRoom lmax a b) := by
  unfold checkRoom
  split
  · exact h
  · trivial

end LengthViolation

/-! #### InvalidDigitGroup (R109) -/

section InvalidDigitGroup

variable (h : 0x1 ∈ codes)

include h

theorem decDigit_raisesOnly (e : Encoding) (opnd : Bool) (idx : Nat) (g : Group) :
    RaisesOnly codes (decDigit e opnd idx g) := by
  cases hg : validGroup e g with
  | true =>
    rw [decDigit_of_valid e opnd idx hg]
    trivial
  | false =>
    rw [decDigit_of_malformed e opnd idx hg]
    exact h

theorem decnFrom_raisesOnly (e : Encoding) (opnd : Bool) :
    ∀ (k v : Nat) (E : List Group), RaisesOnly codes (decnFrom e opnd k v E)
  | _, _, [] => trivial
  | k, v, g :: E => (decDigit_raisesOnly h e opnd k g).bind fun d => decnFrom_raisesOnly e opnd (k + 1) (10 * v + d) E

theorem decn_raisesOnly (e : Encoding) (opnd : Bool) (E : List Group) : RaisesOnly codes (decn e opnd E) :=
  decnFrom_raisesOnly h e opnd 0 0 E

end InvalidDigitGroup

/-- Under BCD the complement of a digit is a digit, whose encoding raises nothing; under Excess-3 no group is examined. -/
theorem cmplDigit_raisesOnly {e : Encoding} (h : e = .bcd → 0x1 ∈ codes) (opnd : Bool) (idx : Nat) (g : Group) :
    RaisesOnly codes (cmplDigit e opnd idx g) := by
  cases e with
  | xs3 => trivial
  | bcd =>
    cases hg : validGroup .bcd g with
    | true =>
      rw [cmplDigit_of_valid .bcd opnd idx hg]
      trivial
    | false =>
      rw [cmplDigit_of_malformed opnd idx hg]
      exact h rfl

theorem cmpl_raisesOnly {e : Encoding} (h : e = .bcd → 0x1 ∈ codes) (opnd : Bool) (E : List Group) :
    RaisesOnly codes (cmpl e opnd E) :=
  mapRaise_raisesOnly (cmplDigit_raisesOnly h opnd) 0 E

/-! #### InputOutOfRange (R110) -/

section InputOutOfRange

variable (h : 0x2 ∈ codes)

include h

theorem encDigit_raisesOnly (e : Encoding) (d : Nat) : RaisesOnly codes (encDigit e d) := by
  obtain hle | hgt := le_or_gt d 9
  · rw [encDigit_of_le e hle]
    trivial
  · rw [encDigit_of_gt e hgt]
    exact h

theorem encn_raisesOnly (nmax : Nat) (e : Encoding) (opnd : Bool) (n : Nat) : RaisesOnly codes (encn nmax e opnd n) := by
  obtain hlt | hge := lt_or_ge n (10 ^ nmax)
  · rw [encn_of_lt e opnd hlt]
    trivial
  · rw [encn_of_ge e opnd hge]
    exact h

/-- The pass of two aligned operands is a valid sequence, so its decoding raises nothing (R118). -/
theorem addPath_raisesOnly (e : Encoding) (n m : Nat) : RaisesOnly codes (addPath P e n m) := by
  obtain ⟨hn, hm, -⟩ | ⟨opnd, herr⟩ := encodeAlign_cases P.N e n m
  · obtain ⟨p, hp, -⟩ := addPath_of_lt (P := P) e hn hm
    rw [hp]
    trivial
  · rw [addPath, herr]
    exact h

/-- On aligned operands neither a complement nor the decoding of the magnitude raises anything (R118). -/
theorem subPath_raisesOnly (e : Encoding) (n m : Nat) : RaisesOnly codes (subPath P e n m) := by
  obtain ⟨hn, hm, -⟩ | ⟨opnd, herr⟩ := encodeAlign_cases P.N e n m
  · obtain ⟨p, hp, -⟩ := subPath_of_lt (P := P) e hn hm
    rw [hp]
    trivial
  · rw [subPath, herr]
    exact h

end InputOutOfRange

/-! ### The fault matrix (R122) -/

/-- A command raises no fault outside its row. -/
theorem commandFn_raisesOnly (i : Instr) (o : Operands P) : RaisesOnly (possibleFaults i) (commandFn i o) := by
  rw [instr_eq_instrOf i]
  generalize i.op = op, i.enc = e, i.traceBit = t
  simp only [possibleFaults, commandFn, instrOf_op, instrOf_enc, instrOf_traceBit]
  cases op with
  | encd => exact (encDigit_raisesOnly (by simp) e _).bind fun _ => trivial
  | decd => exact (decDigit_raisesOnly (by simp) e false 0 _).bind fun _ => trivial
  | encn => exact (encn_raisesOnly (by simp) P.N e false _).bind fun _ => trivial
  | decn =>
    exact (checkLen_raisesOnly (by simp) _ _ _).bind fun _ => (decn_raisesOnly (by simp) e false _).bind fun _ => trivial
  | pad => exact (checkLens_raisesOnly (by simp) _ _ _).bind fun _ => trivial
  | algn =>
    exact (checkLens_raisesOnly (by simp) _ _ _).bind fun _ => (checkRoom_raisesOnly (by simp) _ _ _).bind fun _ => trivial
  | addg =>
    exact (checkLens_raisesOnly (by simp) _ _ _).bind fun _ => (checkEqualLen_raisesOnly (by simp) _ _).bind fun _ => trivial
  | cmpl =>
    exact (checkLen_raisesOnly (by cases e <;> simp) _ _ _).bind fun _ =>
      (cmpl_raisesOnly (by rintro rfl; simp) false _).bind fun _ => trivial
  | add => exact (addPath_raisesOnly (by simp) e _ _).bind fun _ => trivial
  | sub => exact (subPath_raisesOnly (by simp) e _ _).bind fun _ => trivial

/-- Operands that every command refuses: 15 is no digit and no group, `10^N` has a digit too many, and the sequences are the
given one, which is to be empty or malformed. -/
def refusedOperands (P : Params) (E : List Group) : Operands P :=
  { x4 := 15, c0 := false, na := BitVec.ofNat P.NW (10 ^ P.N), nb := 0, ea := packSeq E, eb := packSeq E }

theorem le_refusedOperands_na (E : List Group) : 10 ^ P.N ≤ (refusedOperands P E).na.toNat :=
  ((BitVec.toNat_ofNat _ _).trans (Nat.mod_eq_of_lt P.lt_NW)).ge

theorem refusedOperands_ea_len {E : List Group} (h : E.length ≤ P.LMAX) : (refusedOperands P E).ea.len.toNat = E.length :=
  packSeq_len_toNat h

theorem not_legalLen_refusedOperands : ¬ LegalLen (refusedOperands P []).ea := by
  rw [LegalLen, refusedOperands_ea_len (Nat.zero_le _)]
  simp

theorem legalLen_refusedOperands (g : Group) : LegalLen (refusedOperands P [g]).ea := by
  have hlen := refusedOperands_ea_len (P := P) (E := [g]) (Nat.succ_pos P.N)
  simp [LegalLen, hlen]

/-- No encoding has a digit 15. -/
theorem validGroup_fifteen (e : Encoding) : validGroup e 15 = false := by cases e <;> rfl

theorem firstMalformed_refusedOperands (e : Encoding) : FirstMalformed e (refusedOperands P [15]).ea.groups 0 := by
  have hgroups : (refusedOperands P [15]).ea.groups = [15] := groups_packSeq (Nat.succ_pos P.N)
  rw [hgroups]
  exact ⟨Nat.one_pos, validGroup_fifteen e, fun j hj => absurd hj j.not_lt_zero⟩

/-- The command raises a fault with the given code on some operands. -/
def Raises (P : Params) (i : Instr) (code : BitVec 4) : Prop :=
  ∃ (o : Operands P) (f : FaultRec), commandFn i o = .error f ∧ f.kind.code = code

/-- A command raises each fault in its row. -/
theorem raises_possibleFaults (P : Params) (i : Instr) : ∀ code ∈ possibleFaults i, Raises P i code := by
  rw [instr_eq_instrOf i]
  generalize i.op = op, i.enc = e, i.traceBit = t
  simp only [possibleFaults, instrOf_op, instrOf_enc]
  have hlens := checkLens_of_first (b := (refusedOperands P []).eb.len.toNat) (not_legalLen_refusedOperands (P := P))
  have hna := le_refusedOperands_na (P := P) []
  have hx4 : 9 < (refusedOperands P []).x4.toNat := by simp [refusedOperands]
  cases op with
  | encd => exact List.forall_mem_singleton.mpr ⟨_, _, (commandFn_encd e t _).trans (encdFn_of_gt e hx4), rfl⟩
  | decd =>
    have hmalformed : validGroup e (refusedOperands P []).x4 = false := validGroup_fifteen e
    exact List.forall_mem_singleton.mpr ⟨_, _, (commandFn_decd e t _).trans (decdFn_of_malformed hmalformed), rfl⟩
  | encn => exact List.forall_mem_singleton.mpr ⟨_, _, (commandFn_encn e t _).trans (encnFn_of_ge e hna), rfl⟩
  | decn =>
    have hlen := (commandFn_decn e t _).trans (decnFn_of_illegalLen e (not_legalLen_refusedOperands (P := P)))
    have hgroup := (commandFn_decn e t _).trans
      (decnFn_of_firstMalformed (legalLen_refusedOperands (P := P) 15) (firstMalformed_refusedOperands e))
    exact List.forall_mem_cons.mpr ⟨⟨_, _, hlen, rfl⟩, List.forall_mem_singleton.mpr ⟨_, _, hgroup, rfl⟩⟩
  | pad => exact List.forall_mem_singleton.mpr ⟨_, _, (commandFn_pad e t _).trans (padFn_of_checkLens_error e hlens), rfl⟩
  | algn => exact List.forall_mem_singleton.mpr ⟨_, _, (commandFn_algn e t _).trans (algnFn_of_checkLens_error e hlens), rfl⟩
  | addg => exact List.forall_mem_singleton.mpr ⟨_, _, (commandFn_addg e t _).trans (addgFn_of_checkLens_error e t hlens), rfl⟩
  | cmpl =>
    have hlen := (commandFn_cmpl e t _).trans (cmplFn_of_illegalLen e (not_legalLen_refusedOperands (P := P)))
    cases e with
    | bcd =>
      have hgroup := (commandFn_cmpl .bcd t _).trans
        (cmplFn_of_firstMalformed (legalLen_refusedOperands (P := P) 15) (firstMalformed_refusedOperands .bcd))
      exact List.forall_mem_cons.mpr ⟨⟨_, _, hlen, rfl⟩, List.forall_mem_singleton.mpr ⟨_, _, hgroup, rfl⟩⟩
    | xs3 => exact List.forall_mem_singleton.mpr ⟨_, _, hlen, rfl⟩
  | add | sub =>
    have halign := encodeAlign_of_ge_left e (refusedOperands P []).nb.toNat hna
    exact List.forall_mem_singleton.mpr ⟨_, _, commandFn_of_encodeAlign_error (by simp) t halign, rfl⟩

/-- A transaction ends in FAULT with a code exactly if its command raises that code on some operands: the host can drive any
operands, and no results stand for phase FAULT. -/
theorem exists_exec_fault_iff {i : Instr} {code : BitVec 4} :
    (∃ s t : Block P, exec i ⟨P, s⟩ = .next ⟨P, t⟩ ∧ t.ph = .fault ∧ t.err.code = code) ↔ Raises P i code := by
  constructor
  · rintro ⟨s, t, hexec, hph, hcode⟩
    obtain rfl := next_block_inj ((exec_eq_next i s).symm.trans hexec)
    have hends := commandFn_endsIn i s.pins.ops
    cases hfn : commandFn i s.pins.ops with
    | ok r =>
      rw [hfn] at hends hph
      exact absurd hph (Results.Sound.ph_ne_fault hends)
    | error f =>
      rw [hfn] at hcode
      exact ⟨_, f, hfn, hcode⟩
  · rintro ⟨o, f, hfn, hcode⟩
    refine ⟨(Block.reset P).drive { (Pins.idle : Pins P) with ops := o }, _, exec_eq_next i _, ?_⟩
    rw [Block.drive_pins, hfn, Block.settle_error]
    exact ⟨rfl, hcode⟩

end Sys2Proof.Machine

namespace Sys2Proof.Proofs

open Sys2Proof.Config Sys2Proof.Machine Sys2Proof.Safety

/-- Settles O48: a command raises only codes of its row, and operands that it refuses reach each of them. -/
theorem faultMatrixIsComplete : Obligations.FaultMatrixIsComplete := by
  intro P i code
  rw [exists_exec_fault_iff]
  refine ⟨raises_possibleFaults P i code, ?_⟩
  rintro ⟨o, f, hfn, rfl⟩
  have hraises := commandFn_raisesOnly i o
  rwa [hfn] at hraises

/-- Settles O49: a step keeps the invariant, which allows no other code. -/
theorem noReservedFaultCode : Obligations.NoReservedFaultCode := by
  intro s t h hstep
  obtain ⟨hnext, -⟩ := everyStepKeepsTheInvariant s h
  exact err_code_mem_of_inv (hnext t hstep).2

/-- Settles O8: both views reject a reserved word at the `start` edge, before any operand is examined. -/
theorem reservedWordRaisesIllegalCommand : Obligations.ReservedWordRaisesIllegalCommand := by
  intro P s hr hb hs hreserved
  obtain ⟨e, he⟩ := exists_decodeWord_eq_error_iff.mpr hreserved
  have hedge : edge s = s.rejectCommand := (edge_of_start hr hb hs).trans (startEdge_of_error he)
  exact ⟨_, step_of_reserved hr hb hs he, faulted_rejectCommand s, hedge ▸ faulted_rejectCommand s⟩

/-- Settles O14: a `start` accepted from FAULT enters the first phase of its command, which is busy, with the fault registers
cleared, and only a fault sets them again. -/
theorem startLeavesTheFault : Obligations.StartLeavesTheFault := by
  refine fun P => ⟨fun s hph hr hs hlegal => ?_, fun s i => ⟨_, exec_eq_next i s, fun hend => ?_⟩⟩
  · obtain ⟨i, hi⟩ := exists_of_decodeWord_isOk hlegal
    have hidle : s.busy = false := congrArg Phase.busy hph
    have hbusy : (s.accept (firstPhase i.op)).busy = true := firstPhase_busy i.op
    rw [edge_of_start hr hidle hs, startEdge_of_ok hi]
    exact ⟨Block.errValid_eq_false_iff.mpr (ph_ne_fault_of_busy hbusy), rfl, hbusy⟩
  · exact ⟨Block.errValid_eq_false_iff.mpr hend, err_settle_of_ne_fault hend⟩

end Sys2Proof.Proofs

/-! PROOF. The start protocol and the hazards (70_reset_and_hazards.md R129 to R135): what an edge and a step make of the
`start` pin in a busy block and in one that is not, and that every transaction ends. -/

namespace Sys2Proof.Machine

open Sys2Proof.Config Sys2Proof.Safety

variable {P : Params}

/-- No phase is both the end of a transaction and one in flight (10_state.md R15). -/
theorem Block.busy_eq_false_of_done {s : Block P} (h : s.done = true) : s.busy = false := by
  unfold Block.done at h
  unfold Block.busy
  cases hph : s.ph with
  | done | donePositive | doneNegative | fault => rfl
  | idle | exec | align | complement | add | interpret | recomplement => rw [hph] at h; cases h

/-- On a busy block the two views take the same edge (log entry 2). -/
theorem step_eq_edge_of_busy {s : Block P} (hb : s.busy = true) : step ⟨P, s⟩ = .next ⟨P, edge s⟩ := by
  cases hr : s.pins.rst with
  | true => rw [step_of_rst hr, edge_of_rst hr]
  | false => rw [step_of_busy hr hb, edge_of_busy hr hb]

/-- An edge of a busy block reads no pin but `rst` (R129, R130): a reset keeps the pins, and a phase step reads none. -/
theorem edge_drive_of_busy {s : Block P} {p : Pins P} (hb : s.busy = true) (hp : p.rst = s.pins.rst) :
    edge (s.drive p) = (edge s).drive p := by
  cases hr : s.pins.rst with
  | true =>
    rw [edge_of_rst hr, edge_of_rst (s := s.drive p) (hp.trans hr)]
    rfl
  | false => rw [edge_of_busy hr hb, edge_of_busy (s := s.drive p) (hp.trans hr) hb, phaseStep_drive]

theorem step_drive_of_busy {s : Block P} {p : Pins P} (hb : s.busy = true) (hp : p.rst = s.pins.rst) :
    step ⟨P, s.drive p⟩ = .next ⟨P, (edge s).drive p⟩ := by
  rw [step_eq_edge_of_busy (s := s.drive p) hb, edge_drive_of_busy hb hp]

end Sys2Proof.Machine

namespace Sys2Proof.Proofs

open Sys2Proof.Config Sys2Proof.Machine Sys2Proof.Safety

/-- Settles O10: in both views a busy block takes an edge, and that edge does not read `start`. -/
theorem startWhileBusyIsIgnored : Obligations.StartWhileBusyIsIgnored := by
  intro P s b hb
  refine ⟨edge_drive_of_busy hb rfl, fun t ht => ?_⟩
  obtain rfl := next_block_inj ((step_eq_edge_of_busy hb).symm.trans ht)
  exact step_drive_of_busy hb rfl

/-- Settles O16: `exec` settles what the command's function answers, and results and faults both end in a terminal phase. -/
theorem everyTransactionEnds : Obligations.EveryTransactionEnds := by
  intro P i s
  have hdone := settle_done (s.accept (firstPhase i.op)) (commandFn_endsIn i s.pins.ops)
  exact ⟨_, exec_eq_next i s, hdone, Block.busy_eq_false_of_done hdone⟩

/-- Settles O7: the fetched word is the one that `step` decodes, and `exec` is the transaction of its command. -/
theorem stepRunsTheDecodedInstr : Obligations.StepRunsTheDecodedInstr := by
  intro P s i rest hr hb hs hdecode
  obtain ⟨hword, -⟩ := decode_cons_eq_ok_iff.mp hdecode
  rw [step_of_command hr hb hs (decodeWord_eq_ok_iff.mpr hword), exec_eq_next]

/-- Settles O13: neither view has anything to do. -/
theorem blockWaitsForStart : Obligations.BlockWaitsForStart :=
  fun _ _ hr hb hs => ⟨step_of_waiting hr hb hs, edge_of_waiting hr hb hs⟩

end Sys2Proof.Proofs
